-- ==== Sys2Proof/Word.lean ====
section
/-! DEFINITION. The block's word types (00_scope.md R8, R11, R13; 10_state.md R35 to R37) and the s16 cast. -/

namespace Sys2Proof

/-- The 8-bit operand of a register write (00_scope.md R7, `DATA_WIDTH`). -/
abbrev Byte := BitVec 8

/-- A 9-bit register address, 0 to 0x1FF (20_memory.md R100). -/
abbrev RegAddr := BitVec 9

/-- A W command: `address[8:0] : value[7:0]` (30_encoding.md R120). -/
abbrev CmdWord := BitVec 17

/-- A two's-complement 16-bit field; its value is its `toInt` (00_scope.md R8). -/
abbrev S16 := BitVec 16

/-- A slot (operator) number, 0 to 35 (00_scope.md R13). -/
abbrev SlotIdx := Fin 36

/-- A channel number, 0 to 17 (00_scope.md R13). -/
abbrev ChanIdx := Fin 18

/-- `s16(v)`: the low 16 bits of `v`, read as two's complement (00_scope.md R9, R11). -/
def s16 (v : Int) : S16 := BitVec.ofInt 16 v

/-- Four like things numbered 0 to 3: the buses A, B, C, D, or the sources `out[0..3]` of a channel. -/
structure Quad (α : Type) where
  v0 : α
  v1 : α
  v2 : α
  v3 : α
deriving DecidableEq, Repr

/-- The same value four times. -/
def Quad.all {α : Type} (x : α) : Quad α := ⟨x, x, x, x⟩

end Sys2Proof
end

