-- ==== Sys2Proof/Config.lean ====
section
/-! DEFINITION. What an implementation fixes (00_scope.md R7, the rows marked "param"; decisions D12 and D17).
The values the model runs with are `Machine.params` in Machine/Rom.lean, where a repair can reach them. -/

namespace Sys2Proof

/-- The named parameters of 00_scope.md R7. No call changes them, so they are no state (10_state.md R32). -/
structure Config where
  /-- `CHANNEL_SAMPLE_DELAY`: true selects the tick of 45_sample_clock.md R380, false that of R382. -/
  channelSampleDelay : Bool
  /-- `LOGSIN_ROM[0..255]`, 12-bit entries (47_rom_tables.md R440). -/
  logsinRom : Vector (BitVec 12) 256
  /-- `EXP_ROM[0..255]`, 11-bit entries (47_rom_tables.md R441). -/
  expRom : Vector (BitVec 11) 256
deriving DecidableEq, Repr

end Sys2Proof
end

