-- ==== Sys2Proof/Machine/Chip.lean ====
section
/-! DEFINITION. The block's state as one aggregate value (10_state.md R32): the initialised flag (R34), the global
fields (R35), 18 channel records (R36) and 36 slot records (R37), and the accessors every read and write of a record
goes through. A field's name is the spec's in lower camel case. A field whose legal values are fewer than its
type's is held to them by `Chip.Legal` (Safety.lean), which every step keeps. -/

namespace Sys2Proof.Machine

/-- `eg_gen`: ATTACK = 0, DECAY = 1, SUSTAIN = 2, RELEASE = 3 (10_state.md R37). -/
inductive EgGen where
  | attack
  | decay
  | sustain
  | release
deriving DecidableEq, Repr

/-- `chtype` (10_state.md R36). -/
inductive ChType where
  | twoOp
  | fourOp
  | fourOp2
  | drum
deriving DecidableEq, Repr

/-- A slot's modulation source: ZERO, FB (the slot's own `fbmod`) or OUT(j) (10_state.md R37). -/
inductive ModSrc where
  | zero
  | fb
  | out (j : SlotIdx)
deriving DecidableEq, Repr

/-- One of a channel's summed sources: ZERO or OUT(j) (10_state.md R36). -/
inductive OutSrc where
  | zero
  | out (j : SlotIdx)
deriving DecidableEq, Repr

/-- A slot (operator) record (10_state.md R37). -/
structure Slot where
  pgPhase : BitVec 32
  pgPhaseOut : BitVec 16
  pgReset : Bool
  egRout : BitVec 9
  egOut : BitVec 9
  egGen : EgGen
  /-- 0 to 224. -/
  egKsl : Nat
  /-- Bit 0 the channel key, bit 1 the drum key. -/
  key : BitVec 2
  tremEn : Bool
  regVib : Bool
  regType : Bool
  regKsr : Bool
  regMult : BitVec 4
  regKsl : BitVec 2
  regTl : BitVec 6
  regAr : BitVec 4
  regDr : BitVec 4
  /-- 0 to 14, or 31. -/
  regSl : BitVec 5
  regRr : BitVec 4
  regWf : BitVec 3
  out : S16
  prout : S16
  fbmod : S16
  mod : ModSrc
deriving DecidableEq, Repr

/-- A channel record (10_state.md R36). -/
structure Channel where
  fNum : BitVec 10
  block : BitVec 3
  ksv : BitVec 4
  fb : BitVec 3
  con : Bool
  /-- 0, 1, 4, 5, 6, 7 or 8. -/
  alg : BitVec 4
  chtype : ChType
  cha : Bool
  chb : Bool
  chc : Bool
  chd : Bool
  out : Quad OutSrc
deriving DecidableEq, Repr

/-- The whole state of one block instance (10_state.md R32, R34, R35). -/
structure Chip where
  /-- `chip.valid` (R34). While it is false, the other fields are never read. -/
  valid : Bool
  newm : Bool
  nts : Bool
  /-- Bit 5 rhythm enable, bits 4:0 drum keys. -/
  rhy : BitVec 6
  /-- 2 or 4. -/
  tremoloshift : Nat
  /-- 0 or 1. -/
  vibshift : Nat
  timer : BitVec 16
  egTimer : BitVec 36
  egTimerrem : Bool
  egState : Bool
  /-- 0 to 13. -/
  egAdd : Nat
  egTimerLo : BitVec 2
  /-- 0 to 209. -/
  tremolopos : Nat
  /-- 0 to 26. -/
  tremolo : Nat
  vibpos : BitVec 3
  /-- The LFSR, never 0. -/
  noise : BitVec 23
  rmHhBit2 : Bool
  rmHhBit3 : Bool
  rmHhBit7 : Bool
  rmHhBit8 : Bool
  rmTcBit3 : Bool
  rmTcBit5 : Bool
  mixbuff : Quad Int
  /-- 1 to 65535. -/
  rateratio : Nat
  samplecnt : Nat
  oldsamples : Quad S16
  samples : Quad S16
  chans : Vector Channel 18
  slots : Vector Slot 36
deriving DecidableEq, Repr

/-- `slot[i]` (00_scope.md R10). -/
def Chip.slot (c : Chip) (i : SlotIdx) : Slot := c.slots.get i

/-- `ch[n]` (00_scope.md R10). -/
def Chip.chan (c : Chip) (n : ChanIdx) : Channel := c.chans.get n

/-- `slot[i] <- x` (00_scope.md R10). -/
def Chip.setSlot (c : Chip) (i : SlotIdx) (x : Slot) : Chip := { c with slots := c.slots.set i x }

/-- `ch[n] <- x` (00_scope.md R10). -/
def Chip.setChan (c : Chip) (n : ChanIdx) (x : Channel) : Chip := { c with chans := c.chans.set n x }

/-- Change the fields of `slot[i]` by `f`. -/
def Chip.modSlot (c : Chip) (i : SlotIdx) (f : Slot → Slot) : Chip := c.setSlot i (f (c.slot i))

/-- Change the fields of `ch[n]` by `f`. -/
def Chip.modChan (c : Chip) (n : ChanIdx) (f : Channel → Channel) : Chip := c.setChan n (f (c.chan n))

end Sys2Proof.Machine
end

