-- ==== Sys2Proof/Machine/Operands.lean ====
section
/-! DEFINITION. What an operand names: the static topology of slots, channels and pairs (10_state.md R33,
47_rom_tables.md R446), the fields of the data byte D, and the value of a routing source (42_operator_bank.md R270,
44_channel_mixer.md R350). -/

namespace Sys2Proof.Machine

/-- CH_SLOT: the first slot of a channel (47_rom_tables.md R446). -/
def chSlot (n : ChanIdx) : SlotIdx :=
  ([0, 1, 2, 6, 7, 8, 12, 13, 14, 18, 19, 20, 24, 25, 26, 30, 31, 32] : List SlotIdx).getD n.val 0

/-- `slotz(c,0)`, the channel's op1 (10_state.md R33). -/
def op1 (n : ChanIdx) : SlotIdx := chSlot n

/-- `slotz(c,1)`, the channel's op2: CH_SLOT[c] + 3 (10_state.md R33). -/
def op2 (n : ChanIdx) : SlotIdx := chSlot n + 3

/-- `channel_of(i)`: the channel c with i = slotz(c,0) or i = slotz(c,1) (10_state.md R33, its slot table). -/
def channelOf (i : SlotIdx) : ChanIdx :=
  ([0, 1, 2, 0, 1, 2, 3, 4, 5, 3, 4, 5, 6, 7, 8, 6, 7, 8,
    9, 10, 11, 9, 10, 11, 12, 13, 14, 12, 13, 14, 15, 16, 17, 15, 16, 17] : List ChanIdx).getD i.val 0

/-- `pair(c)`: c+3, c−3, or no pair (10_state.md R33). -/
def pair (n : ChanIdx) : Option ChanIdx :=
  if n.val % 9 < 3 then some (n + 3) else if n.val % 9 < 6 then some (n - 3) else none

/-- `D[hi:lo]` of a data byte, `len` bits from bit `lo` up (00_scope.md R8). -/
def field (d : Byte) (lo len : Nat) : BitVec len := d.extractLsb' lo len

/-- `D[n]` of a data byte (00_scope.md R8). -/
def bit (d : Byte) (n : Nat) : Bool := d.getLsbD n

/-- `modval(i)`: ZERO is 0, FB the slot's own `fbmod`, OUT(j) the current `slot[j].out` (42_operator_bank.md R270). -/
def modVal (c : Chip) (i : SlotIdx) : Int :=
  match (c.slot i).mod with
  | .zero => 0
  | .fb => (c.slot i).fbmod.toInt
  | .out j => (c.slot j).out.toInt

/-- `v(ZERO) = 0` and `v(OUT(j)) = slot[j].out` (44_channel_mixer.md R350). -/
def outVal (c : Chip) : OutSrc → Int
  | .zero => 0
  | .out j => (c.slot j).out.toInt

end Sys2Proof.Machine
end

