-- ==== Sys2Proof/Machine/KeyScale.lean ====
section
/-! DEFINITION. Key scaling, the helpers register writes call (43_envelope_generator.md R301,
41_register_writes.md R212). -/

namespace Sys2Proof.Machine

/-- `max((KSLROM[f_num >> 6] << 2) − ((8 − block) << 5), 0)` (R301). -/
def kslOf (fNum : BitVec 10) (block : BitVec 3) : Nat :=
  ((kslRom (fNum >>> 6).toNat <<< 2 : Nat) - ((8 - (block.toNat : Int)) * 32) : Int).toNat

/-- `update_ksl(i)` (R301). -/
def updateKsl (i : SlotIdx) (c : Chip) : Chip :=
  let ch := c.chan (channelOf i)
  c.modSlot i fun s => { s with egKsl := kslOf ch.fNum ch.block }

/-- `(block << 1) | ((f_num >> (9 − nts)) & 1)` (41_register_writes.md R212). -/
def ksvOf (nts : Bool) (fNum : BitVec 10) (block : BitVec 3) : BitVec 4 :=
  block ++ BitVec.ofBool (fNum.getLsbD (if nts then 8 else 9))

/-- `update_ksv(c)` (R212). -/
def updateKsv (n : ChanIdx) (c : Chip) : Chip :=
  c.modChan n fun ch => { ch with ksv := ksvOf c.nts ch.fNum ch.block }

end Sys2Proof.Machine
end

