-- ==== Sys2Proof/Machine/Keys.lean ====
section
/-! DEFINITION. The key bits of a slot (41_register_writes.md R216). -/

namespace Sys2Proof.Machine

/-- The requester NORM, the channel key (R216). -/
def keyNorm : BitVec 2 := 1

/-- The requester DRUM, the rhythm key (R216). -/
def keyDrum : BitVec 2 := 2

/-- `key_on(i, t)`: `key <- key | t` (R216). -/
def keyOn (i : SlotIdx) (t : BitVec 2) (c : Chip) : Chip := c.modSlot i fun s => { s with key := s.key ||| t }

/-- `key_off(i, t)`: `key <- key & (3 − t)` (R216). -/
def keyOff (i : SlotIdx) (t : BitVec 2) (c : Chip) : Chip := c.modSlot i fun s => { s with key := s.key &&& (3 - t) }

/-- `(on ? key_on : key_off)(i, t)` (R218). -/
def keySet (on : Bool) (i : SlotIdx) (t : BitVec 2) (c : Chip) : Chip := if on then keyOn i t c else keyOff i t c

end Sys2Proof.Machine
end

