-- ==== Sys2Proof/Machine/Router.lean ====
section
/-! DEFINITION. The algorithm router (44_channel_mixer.md R340 to R345). -/

namespace Sys2Proof.Machine

/-- `slot[i].mod <- m`. -/
def setMod (i : SlotIdx) (m : ModSrc) (c : Chip) : Chip := c.modSlot i fun s => { s with mod := m }

/-- `ch[n].out <- o`. -/
def setOut (n : ChanIdx) (o : Quad OutSrc) (c : Chip) : Chip := c.modChan n fun ch => { ch with out := o }

/-- `ch[n].alg <- a`. -/
def setAlg (n : ChanIdx) (a : BitVec 4) (c : Chip) : Chip := c.modChan n fun ch => { ch with alg := a }

/-- `ch[n].chtype <- t`. -/
def setChtype (n : ChanIdx) (t : ChType) (c : Chip) : Chip := c.modChan n fun ch => { ch with chtype := t }

/-- An `out` list with the given sources first and ZERO in the unlisted entries (R344, R345). -/
def outList (l : List SlotIdx) : Quad OutSrc :=
  let src (k : Nat) : OutSrc := match l[k]? with
    | some j => .out j
    | none => .zero
  ⟨src 0, src 1, src 2, src 3⟩

/-- R342: the drum channels 6, 7 and 8. A channel outside 6 to 8 is never CH_DRUM (log entry 8). -/
def setupDrum (n : ChanIdx) (c : Chip) : Chip :=
  if n = 7 ∨ n = 8 then c |> setMod (op1 n) .zero |> setMod (op2 n) .zero
  else if n = 6 then
    if (c.chan n).alg.getLsbD 0 then c |> setMod (op1 n) .fb |> setMod (op2 n) .zero
    else c |> setMod (op1 n) .fb |> setMod (op2 n) (.out (op1 n))
  else c

/-- One row of R344: the four slots' sources, operator 1 on FB, and S's `out` list. -/
def routeFour (p s : ChanIdx) (m2 m3 m4 : ModSrc) (outs : List SlotIdx) (c : Chip) : Chip :=
  c |> setMod (op1 p) .fb |> setMod (op2 p) m2 |> setMod (op1 s) m3 |> setMod (op2 s) m4
    |> setOut s (outList outs)

/-- R344: the four-operator algorithm of the pair P, S, with `alg & 3` as given; P's `out` list is zeroed first. -/
def setupFourOp (p s : ChanIdx) (k : BitVec 2) (c : Chip) : Chip :=
  let c := setOut p (outList []) c
  match k.toNat with
  | 0 => routeFour p s (.out (op1 p)) (.out (op2 p)) (.out (op1 s)) [op2 s] c
  | 1 => routeFour p s (.out (op1 p)) .zero (.out (op1 s)) [op2 p, op2 s] c
  | 2 => routeFour p s .zero (.out (op2 p)) (.out (op1 s)) [op1 p, op2 s] c
  | _ => routeFour p s .zero (.out (op2 p)) .zero [op1 p, op1 s, op2 s] c

/-- R345: the two-operator algorithm, by `alg & 1`. -/
def setupTwoOp (n : ChanIdx) (c : Chip) : Chip :=
  if (c.chan n).alg.getLsbD 0 then
    c |> setMod (op1 n) .fb |> setMod (op2 n) .zero |> setOut n (outList [op1 n, op2 n])
  else
    c |> setMod (op1 n) .fb |> setMod (op2 n) (.out (op1 n)) |> setOut n (outList [op2 n])

/-- `setup_alg(c)`: the first matching case of R341; R343 changes nothing. A channel without a pair never has
`alg & 4 ≠ 0` (log entry 8). -/
def setupAlg (n : ChanIdx) (c : Chip) : Chip :=
  let ch := c.chan n
  if ch.chtype = .drum then setupDrum n c
  else if ch.alg.getLsbD 3 then c
  else if ch.alg.getLsbD 2 then
    match pair n with
    | some p => setupFourOp p n (ch.alg.extractLsb' 0 2) c
    | none => c
  else setupTwoOp n c

/-- The algorithm number `4 | (CNT_P << 1) | CNT_S` of a pair (R340). -/
def fourOpAlg (conP conS : Bool) : BitVec 4 := BitVec.ofNat 4 (4 + 2 * conP.toNat + conS.toNat)

/-- The pair's part of R340: S gets the pair's algorithm and P is marked 8, then S is routed. -/
def updatePair (p s : ChanIdx) (c : Chip) : Chip :=
  c |> setAlg s (fourOpAlg (c.chan p).con (c.chan s).con) |> setAlg p 8 |> setupAlg s

/-- `update_alg(c)` (R340). A channel without a pair is never CH_4OP or CH_4OP2 (log entry 8). -/
def updateAlg (n : ChanIdx) (c : Chip) : Chip :=
  let c := setAlg n (BitVec.ofNat 4 (c.chan n).con.toNat) c
  match c.newm, (c.chan n).chtype, pair n with
  | true, .fourOp, some m => updatePair n m c
  | true, .fourOp2, some m => updatePair m n c
  | _, _, _ => setupAlg n c

end Sys2Proof.Machine
end

