-- ==== Sys2Proof/Machine/Reset.lean ====
section
/-! DEFINITION. The reset state (70_reset_and_hazards.md R531; the reset columns of 10_state.md R35 to R37). -/

namespace Sys2Proof.Machine

/-- The lowest and the highest accepted sample rate (00_scope.md R7, D9). -/
def srMin : Int := 49

/-- See `srMin`. -/
def srMax : Int := 3181823

/-- The nominal tick rate in ticks per second (00_scope.md R7, D3). -/
def tickRate : Nat := 49716

/-- `1 << RSM_FRAC` (00_scope.md R7, D10). -/
def rsmOne : Nat := 1024

/-- `rateratio = floor(sample_rate·1024 / 49716)` (46_host_interface.md R420). -/
def rateRatio (sampleRate : Nat) : Nat := sampleRate * rsmOne / tickRate

/-- A slot before the router has run (R531 steps 1 and 2). -/
def slotReset : Slot where
  pgPhase := 0
  pgPhaseOut := 0
  pgReset := false
  egRout := 0x1FF
  egOut := 0x1FF
  egGen := .release
  egKsl := 0
  key := 0
  tremEn := false
  regVib := false
  regType := false
  regKsr := false
  regMult := 0
  regKsl := 0
  regTl := 0
  regAr := 0
  regDr := 0
  regSl := 0
  regRr := 0
  regWf := 0
  out := 0
  prout := 0
  fbmod := 0
  mod := .zero

/-- A channel before the router has run (R531 steps 1 and 2). -/
def chanReset : Channel where
  fNum := 0
  block := 0
  ksv := 0
  fb := 0
  con := false
  alg := 0
  chtype := .twoOp
  cha := true
  chb := true
  chc := false
  chd := false
  out := Quad.all .zero

/-- The whole block before the router has run, at a sample rate (R531 steps 1, 2 and 4). -/
def chipUnrouted (sampleRate : Nat) : Chip where
  valid := false
  newm := false
  nts := false
  rhy := 0
  tremoloshift := 4
  vibshift := 1
  timer := 0
  egTimer := 0
  egTimerrem := false
  egState := false
  egAdd := 0
  egTimerLo := 0
  tremolopos := 0
  tremolo := 0
  vibpos := 0
  noise := 1
  rmHhBit2 := false
  rmHhBit3 := false
  rmHhBit7 := false
  rmHhBit8 := false
  rmTcBit3 := false
  rmTcBit5 := false
  mixbuff := Quad.all 0
  rateratio := rateRatio sampleRate
  samplecnt := 0
  oldsamples := Quad.all 0
  samples := Quad.all 0
  chans := Vector.replicate 18 chanReset
  slots := Vector.replicate 36 slotReset

/-- R531 step 3: `setup_alg` on channels 0 to 17 in order. -/
def routeAll (c : Chip) : Chip := (List.range' 0 18).foldl (fun c n => setupAlg (Fin.ofNat 18 n) c) c

/-- `reset_state(sample_rate)`, with `chip.valid` set last (R531 step 5). -/
def chipReset (sampleRate : Nat) : Chip := { routeAll (chipUnrouted sampleRate) with valid := true }

end Sys2Proof.Machine
end

