-- ==== Sys2Proof/Syntax.lean ====
section
/-! DEFINITION. What the host hands the block: a call (46_host_interface.md R420 to R422), and the command a call
stands for, one constructor per row of spec/opcode_table.json (30_encoding.md R120, R121). -/

namespace Sys2Proof

/-- One host call, with the operands the host passes: any integers (46_host_interface.md R423). -/
inductive Call where
  | reset (sampleRate : Int)
  | write (address value : Int)
  | render
deriving DecidableEq, Repr

/-- One command. The rows a to d of an operator family, and a and b of a channel family, differ in which
slots or channels they name (30_encoding.md R124; `Instr.wf`), not in what they do. `d` is the data byte D. -/
inductive Instr where
  | reset (sampleRate : Int)
  | render
  | wrNts (d : Byte)
  | wr4op (d : Byte)
  | wrNew (d : Byte)
  | wrOp20a (i : SlotIdx) (d : Byte)
  | wrOp20b (i : SlotIdx) (d : Byte)
  | wrOp20c (i : SlotIdx) (d : Byte)
  | wrOp20d (i : SlotIdx) (d : Byte)
  | wrOp40a (i : SlotIdx) (d : Byte)
  | wrOp40b (i : SlotIdx) (d : Byte)
  | wrOp40c (i : SlotIdx) (d : Byte)
  | wrOp40d (i : SlotIdx) (d : Byte)
  | wrOp60a (i : SlotIdx) (d : Byte)
  | wrOp60b (i : SlotIdx) (d : Byte)
  | wrOp60c (i : SlotIdx) (d : Byte)
  | wrOp60d (i : SlotIdx) (d : Byte)
  | wrOp80a (i : SlotIdx) (d : Byte)
  | wrOp80b (i : SlotIdx) (d : Byte)
  | wrOp80c (i : SlotIdx) (d : Byte)
  | wrOp80d (i : SlotIdx) (d : Byte)
  | wrOpE0a (i : SlotIdx) (d : Byte)
  | wrOpE0b (i : SlotIdx) (d : Byte)
  | wrOpE0c (i : SlotIdx) (d : Byte)
  | wrOpE0d (i : SlotIdx) (d : Byte)
  | wrChA0a (c : ChanIdx) (d : Byte)
  | wrChA0b (c : ChanIdx) (d : Byte)
  | wrRhy (d : Byte)
  | wrChB0a (c : ChanIdx) (d : Byte)
  | wrChB0b (c : ChanIdx) (d : Byte)
  | wrChC0a (c : ChanIdx) (d : Byte)
  | wrChC0b (c : ChanIdx) (d : Byte)
  | wrIgnored (address : RegAddr) (d : Byte)
deriving DecidableEq, Repr

end Sys2Proof
end

