-- ==== Sys2Proof/Machine/State.lean ====
section
/-! DEFINITION. The machine's state: the block's own state (`Chip`, 10_state.md R32) and the two ends of its call
interface, the calls the host has still to make and what the last call returned; the reasons a step can stop; and
the state after reset. -/

namespace Sys2Proof.Machine

/-- The two errors of the block (60_exceptions.md R500). -/
inductive ErrorCode where
  | notReset
  | invalidRate
deriving DecidableEq, Repr

/-- What a call returned (46_host_interface.md R423, 60_exceptions.md R500). -/
inductive CallResult where
  /-- The call returned without a value: a successful `reset`, or any `write_register`. -/
  | returned
  /-- The frame of a `render_one_frame`: left is bus A, right is bus B (R422). -/
  | frame (left right : S16)
  /-- The call failed; the block's state is as it was before the call (R502). -/
  | error (code : ErrorCode)
deriving DecidableEq, Repr

/-- The machine. -/
structure State where
  /-- The block instance. -/
  chip : Chip
  /-- The calls the host has still to make, the next one first (the model's own field; log entry 2). -/
  pending : List Call
  /-- What the last call returned (the model's own field; log entry 4). -/
  result : CallResult
deriving DecidableEq, Repr

/-- Why the machine stops. -/
inductive Fault where
  /-- Raised by RENDER alone, when `rateratio` is 0: the loop of 45_sample_clock.md R400 then never ends
  (90_conflicts.md C8). Stuck, and safe: no run from reset has `rateratio = 0` (log entry 7). -/
  | renderNeverEnds
deriving DecidableEq, Repr

/-- Why an instruction has no meaning. -/
inductive Refusal where
  /-- Raised by `exec` alone, for an instruction whose meaning is not written. No instruction of this model raises
  it. Safe. -/
  | notModelled (mnemonic : String)
deriving DecidableEq, Repr

/-- The machine right after `reset(49716)`: the block as 70_reset_and_hazards.md R531 leaves it, no call pending, and
the result of the `reset` call itself. DESIGN CHOICE (unsafe): the spec gives no rate to the reset state; 49716 is the
rate of the source's own scenario (95_test_vectors.md S6; log entry 1). -/
def State.reset : State where
  chip := chipReset 49716
  pending := []
  result := .returned

end Sys2Proof.Machine
end

