-- ==== Sys2Proof/Machine/Ops.lean ====
section
/-! DEFINITION. The shared operations: arithmetic (00_scope.md R9, R12; 44_channel_mixer.md R352), the three ways a
call returns, and the guard every register write goes through (46_host_interface.md R421). The block has no memory
(20_memory.md R100); its registers are the records of Chip.lean, reached through the accessors there. -/

namespace Sys2Proof.Machine

/-- `tdiv(a, b)` for b > 0: the quotient rounded toward zero (00_scope.md R12). -/
def tdiv (a b : Int) : Int := a.tdiv b

/-- `clip(x) = min(max(x, −32768), 32767)` (44_channel_mixer.md R352). -/
def clip (x : Int) : Int := min (max x (-32768)) 32767

/-- The codes of 60_exceptions.md R500. They are labels only (D15). -/
def ErrorCode.code : ErrorCode → Nat
  | .notReset => 1
  | .invalidRate => 2

/-- Error entry (60_exceptions.md R502): the failing call returns the code to its caller in place of its normal result.
No field of the block changes, no mode changes and nothing is saved. The return from the error is nothing at all:
the next call starts from the unchanged state. -/
def State.raise (s : State) (e : ErrorCode) : State := { s with result := .error e }

/-- A call that changes nothing and returns no value (46_host_interface.md R421). -/
def State.noEffect (s : State) : State := { s with result := .returned }

/-- A register write applies `f`, the effect of its family, to the block in one indivisible step (20_memory.md R105),
unless the instance was never reset, when it has no effect (46_host_interface.md R421, D8). -/
def State.regWrite (f : Chip → Chip) (s : State) : State :=
  if s.chip.valid then { s.noEffect with chip := f s.chip } else s.noEffect

end Sys2Proof.Machine
end

