-- ==== Sys2Proof/Machine/ChannelWrites.lean ====
section
/-! DEFINITION. The channel registers (41_register_writes.md R209 to R215). -/

namespace Sys2Proof.Machine

/-- `chip.newm = 1 and ch[n].chtype = CH_4OP2`: the second channel of a pair in OPL3 mode (R209, R210). -/
def isSecond (n : ChanIdx) (c : Chip) : Bool := c.newm && (c.chan n).chtype == .fourOp2

/-- `chip.newm = 1 and ch[n].chtype = CH_4OP`: the first channel of a pair in OPL3 mode (R209, R210). -/
def isFirst (n : ChanIdx) (c : Chip) : Bool := c.newm && (c.chan n).chtype == .fourOp

/-- `update_ksl` on the channel's two slots. -/
def updateKslBoth (n : ChanIdx) (c : Chip) : Chip := c |> updateKsl (op1 n) |> updateKsl (op2 n)

/-- `copy_freq_to_pair(n, with_block)` (R213). A CH_4OP channel always has a pair (log entry 8). -/
def copyFreqToPair (n : ChanIdx) (withBlock : Bool) (c : Chip) : Chip :=
  match pair n with
  | some p =>
    updateKslBoth p (c.modChan p fun ch => { ch with
      fNum := (c.chan n).fNum
      block := if withBlock then (c.chan n).block else ch.block
      ksv := (c.chan n).ksv })
  | none => c

/-- What R209 and R210 do after storing the frequency: `ksv`, both `eg_ksl`, and the copy to the pair. -/
def freqChanged (n : ChanIdx) (withBlock : Bool) (c : Chip) : Chip :=
  let c := c |> updateKsv n |> updateKslBoth n
  if isFirst n c then copyFreqToPair n withBlock c else c

/-- R209: the F-number low byte of channel `n`; dropped for a second channel. -/
def writeChA0 (n : ChanIdx) (d : Byte) (c : Chip) : Chip :=
  if isSecond n c then c
  else freqChanged n false (c.modChan n fun ch => { ch with fNum := (ch.fNum &&& 0x300) ||| d.setWidth 10 })

/-- The slots a channel's key acts on (R214): none for a second channel, four for a first, else the channel's two. -/
def keySlots (n : ChanIdx) (c : Chip) : List SlotIdx :=
  if isFirst n c then
    match pair n with
    | some p => [op1 n, op2 n, op1 p, op2 p]
    | none => [op1 n, op2 n]
  else if isSecond n c then []
  else [op1 n, op2 n]

/-- `channel_key_on(n)` (R214). -/
def channelKeyOn (n : ChanIdx) (c : Chip) : Chip := (keySlots n c).foldl (fun c i => keyOn i keyNorm c) c

/-- `channel_key_off(n)` (R215). -/
def channelKeyOff (n : ChanIdx) (c : Chip) : Chip := (keySlots n c).foldl (fun c i => keyOff i keyNorm c) c

/-- The frequency part of R210, dropped for a second channel. -/
def writeFreqHigh (n : ChanIdx) (d : Byte) (c : Chip) : Chip :=
  if isSecond n c then c
  else freqChanged n true (c.modChan n fun ch => { ch with
    fNum := (ch.fNum &&& 0xFF) ||| ((field d 0 2).setWidth 10 <<< 8)
    block := field d 2 3 })

/-- R210: F-number high bits, block and key of channel `n`. The key part always runs. -/
def writeChB0 (n : ChanIdx) (d : Byte) (c : Chip) : Chip :=
  let c := writeFreqHigh n d c
  if bit d 5 then channelKeyOn n c else channelKeyOff n c

/-- The bus enables of R211: D[4] to D[7] with NEW = 1, else A = B = 1 and C = D = 0. -/
def setEnables (n : ChanIdx) (d : Byte) (c : Chip) : Chip :=
  if c.newm then c.modChan n fun ch => { ch with cha := bit d 4, chb := bit d 5, chc := bit d 6, chd := bit d 7 }
  else c.modChan n fun ch => { ch with cha := true, chb := true, chc := false, chd := false }

/-- R211: feedback, connection and bus enables of channel `n`. -/
def writeChC0 (n : ChanIdx) (d : Byte) (c : Chip) : Chip :=
  setEnables n d (updateAlg n (c.modChan n fun ch => { ch with fb := field d 1 3, con := bit d 0 }))

/-- WR_CHA0.a (R209). -/
def execWrChA0a (n : ChanIdx) (d : Byte) (s : State) : Host.Outcome State Fault Refusal :=
  .next (s.regWrite (writeChA0 n d))

/-- WR_CHA0.b (R209). -/
def execWrChA0b (n : ChanIdx) (d : Byte) (s : State) : Host.Outcome State Fault Refusal :=
  .next (s.regWrite (writeChA0 n d))

/-- WR_CHB0.a (R210). -/
def execWrChB0a (n : ChanIdx) (d : Byte) (s : State) : Host.Outcome State Fault Refusal :=
  .next (s.regWrite (writeChB0 n d))

/-- WR_CHB0.b (R210). -/
def execWrChB0b (n : ChanIdx) (d : Byte) (s : State) : Host.Outcome State Fault Refusal :=
  .next (s.regWrite (writeChB0 n d))

/-- WR_CHC0.a (R211). -/
def execWrChC0a (n : ChanIdx) (d : Byte) (s : State) : Host.Outcome State Fault Refusal :=
  .next (s.regWrite (writeChC0 n d))

/-- WR_CHC0.b (R211). -/
def execWrChC0b (n : ChanIdx) (d : Byte) (s : State) : Host.Outcome State Fault Refusal :=
  .next (s.regWrite (writeChC0 n d))

end Sys2Proof.Machine
end

