-- ==== Sys2Proof/Machine/GlobalWrites.lean ====
section
/-! DEFINITION. The global control registers WR_NTS, WR_4OP and WR_NEW (41_register_writes.md R201 to R203), and
WR_IGNORED (R219). -/

namespace Sys2Proof.Machine

/-- R201: `chip.nts <- D[6]`. -/
def writeNts (d : Byte) (c : Chip) : Chip := { c with nts := bit d 6 }

/-- R203: `chip.newm <- D[0]`. -/
def writeNew (d : Byte) (c : Chip) : Chip := { c with newm := bit d 0 }

/-- One turn of R202's loop: pair the channels `c1` and `c1 + 3`, or unpair them. -/
def connectPair (c1 : ChanIdx) (on : Bool) (c : Chip) : Chip :=
  if on then c |> setChtype c1 .fourOp |> setChtype (c1 + 3) .fourOp2 |> updateAlg c1
  else c |> setChtype c1 .twoOp |> setChtype (c1 + 3) .twoOp |> updateAlg c1 |> updateAlg (c1 + 3)

/-- R202: the six pairs in bit order; D[7:6] have no effect. -/
def write4op (d : Byte) (c : Chip) : Chip :=
  c |> connectPair 0 (bit d 0) |> connectPair 1 (bit d 1) |> connectPair 2 (bit d 2)
    |> connectPair 9 (bit d 3) |> connectPair 10 (bit d 4) |> connectPair 11 (bit d 5)

/-- WR_NTS (R201). -/
def execWrNts (d : Byte) (s : State) : Host.Outcome State Fault Refusal := .next (s.regWrite (writeNts d))

/-- WR_4OP (R202). -/
def execWr4op (d : Byte) (s : State) : Host.Outcome State Fault Refusal := .next (s.regWrite (write4op d))

/-- WR_NEW (R203). -/
def execWrNew (d : Byte) (s : State) : Host.Outcome State Fault Refusal := .next (s.regWrite (writeNew d))

/-- WR_IGNORED (R219): no state of the block changes, whatever the address and data. -/
def execWrIgnored (_address : RegAddr) (_d : Byte) (s : State) : Host.Outcome State Fault Refusal :=
  .next (s.regWrite id)

end Sys2Proof.Machine
end

