-- ==== Sys2Proof/Machine/Flags.lean ====
section
/-! DEFINITION. The block has no condition codes and no status flags (10_state.md R31), so no command computes a
flag. This file holds the one-bit conditions the rules test on a slot, and the stage view of R39. -/

namespace Sys2Proof.Machine

/-- A slot counts as keyed while `key ≠ 0` (41_register_writes.md R216, 43_envelope_generator.md R313). -/
def Slot.keyed (s : Slot) : Bool := s.key != 0

/-- `eg_off`: `(eg_rout & 0x1F8) = 0x1F8` (43_envelope_generator.md R306). -/
def Slot.egOff (s : Slot) : Bool := s.egRout &&& 0x1F8 == 0x1F8

/-- The retrigger condition `reset` of 43_envelope_generator.md R303: keyed, and the generator in RELEASE. -/
def Slot.retrigger (s : Slot) : Bool := s.keyed && s.egGen == .release

/-- Rhythm mode, `rhy` bit 5 (10_state.md R35). -/
def Chip.rhythmOn (c : Chip) : Bool := c.rhy.getLsbD 5

/-- The source's five envelope stages (10_state.md R39). -/
inductive Stage where
  | attack
  | decay
  | sustain
  | release
  | off
deriving DecidableEq, Repr

/-- `stage(i)`: OFF when the slot is in RELEASE at 0x1FF, else its `eg_gen` (10_state.md R39). No rule reads it. -/
def Slot.stage (s : Slot) : Stage :=
  match s.egGen with
  | .attack => .attack
  | .decay => .decay
  | .sustain => .sustain
  | .release => if s.egRout = 0x1FF then .off else .release

end Sys2Proof.Machine
end

