-- ==== Sys2Proof/Machine/Envelope.lean ====
section
/-! DEFINITION. The envelope generator step of one slot (43_envelope_generator.md R300 to R311). Every function here
reads the slot as it was at the start of the step; `envCalc` writes all of the step's results at once (R300). -/

namespace Sys2Proof.Machine

/-- R302: the total attenuation. -/
def egTotal (s : Slot) (tremolo : Nat) : BitVec 9 :=
  let trem := if s.tremEn then tremolo else 0
  let e := s.egRout.toNat + (s.regTl.toNat <<< 2) + (s.egKsl >>> kslShift s.regKsl) + trem
  BitVec.ofNat 9 (min e 0x1FF)

/-- R303: the rate register the step uses. -/
def egRegRate (s : Slot) : BitVec 4 :=
  if s.retrigger then s.regAr
  else match s.egGen with
    | .attack => s.regAr
    | .decay => s.regDr
    | .sustain => if s.regType then 0 else s.regRr
    | .release => s.regRr

/-- R304: `rate = ks + (reg_rate << 2)`, with `ks = ksv >> ((reg_ksr ^ 1) << 1)`. -/
def egRate (s : Slot) (ksv : BitVec 4) : Nat :=
  (ksv.toNat >>> (if s.regKsr then 0 else 2)) + ((egRegRate s).toNat <<< 2)

/-- R304: `rate_hi`, saturated to 15. -/
def rateHi (rate : Nat) : Nat := if (rate >>> 2) &&& 0x10 ≠ 0 then 15 else rate >>> 2

/-- R304: `rate_lo`, kept from the unsaturated sum. -/
def rateLo (rate : Nat) : Nat := rate &&& 3

/-- R304 for rates below 12: a step only on ticks with `eg_state = 1`, by `eg_shift = rate_hi + eg_add`. -/
def slowShift (c : Chip) (rate : Nat) : Nat :=
  if c.egState then
    match rateHi rate + c.egAdd with
    | 12 => 1
    | 13 => (rateLo rate >>> 1) &&& 1
    | 14 => rateLo rate &&& 1
    | _ => 0
  else 0

/-- R304 for rates of 12 and above. -/
def fastShift (c : Chip) (rate : Nat) : Nat :=
  let sum := (rateHi rate &&& 3) + egIncstep (rateLo rate) c.egTimerLo
  let capped := if sum &&& 4 ≠ 0 then 3 else sum
  if capped = 0 then c.egState.toNat else capped

/-- R304: `shift`. A register rate of 0 holds, whatever the key scaling. -/
def egShift (c : Chip) (s : Slot) (ksv : BitVec 4) : Nat :=
  if egRegRate s = 0 then 0
  else if rateHi (egRate s ksv) < 12 then slowShift c (egRate s ksv) else fastShift c (egRate s ksv)

/-- R305 and R306: the level the increment is added to. -/
def egNext (s : Slot) (rate : Nat) : Int :=
  if s.retrigger then
    if rateHi rate = 15 then 0 else s.egRout.toNat
  else if s.egGen ≠ .attack ∧ s.egOff then 0x1FF
  else s.egRout.toNat

/-- The increment of the decaying stages, `1 << (shift − 1)` (R308, R309). -/
def egDecayInc (s : Slot) (shift : Nat) : Int :=
  if !s.egOff && !s.retrigger && decide (0 < shift) then ((1 <<< (shift - 1) : Nat) : Int) else 0

/-- R307 to R309: `inc`. -/
def egInc (s : Slot) (rate shift : Nat) : Int :=
  match s.egGen with
  | .attack =>
    if s.egRout ≠ 0 ∧ s.keyed ∧ 0 < shift ∧ rateHi rate ≠ 15 then (-(s.egRout.toNat : Int) - 1) >>> (4 - shift)
    else 0
  | .decay => if s.egRout.toNat >>> 4 = s.regSl.toNat then 0 else egDecayInc s shift
  | .sustain => egDecayInc s shift
  | .release => egDecayInc s shift

/-- R307 and R308: the stage before the write-back of R311. -/
def egStageStep (s : Slot) : EgGen :=
  match s.egGen with
  | .attack => if s.egRout = 0 then .decay else .attack
  | .decay => if s.egRout.toNat >>> 4 = s.regSl.toNat then .sustain else .decay
  | .sustain => .sustain
  | .release => .release

/-- R311: a retrigger enters ATTACK, and a key-off always wins. -/
def egGenNext (s : Slot) : EgGen :=
  if !s.keyed then .release else if s.retrigger then .attack else egStageStep s

/-- `env_calc(i)` (R300 to R311). -/
def envCalc (i : SlotIdx) (c : Chip) : Chip :=
  let ksv := (c.chan (channelOf i)).ksv
  c.modSlot i fun s => { s with
    egOut := egTotal s c.tremolo
    pgReset := s.retrigger
    egRout := BitVec.ofInt 9 (egNext s (egRate s ksv) + egInc s (egRate s ksv) (egShift c s ksv))
    egGen := egGenNext s }

end Sys2Proof.Machine
end

