-- ==== Sys2Proof/Machine/Mixer.lean ====
section
/-! DEFINITION. Operator feedback, channel accumulation and the bus mix (44_channel_mixer.md R347 to R351). -/

namespace Sys2Proof.Machine

/-- R347: the feedback value, `(prout + out) >> (9 − fb)`, or 0 for fb = 0. -/
def feedbackVal (fb : BitVec 3) (prout out : S16) : Int :=
  if fb = 0 then 0 else (prout.toInt + out.toInt) >>> (9 - fb.toNat)

/-- R347: the feedback step of slot `i`. -/
def feedbackStep (i : SlotIdx) (c : Chip) : Chip :=
  let fb := (c.chan (channelOf i)).fb
  c.modSlot i fun s => { s with fbmod := s16 (feedbackVal fb s.prout s.out), prout := s.out }

/-- `accm(c)` (R350). -/
def accm (c : Chip) (n : ChanIdx) : S16 :=
  let o := (c.chan n).out
  s16 (outVal c o.v0 + outVal c o.v1 + outVal c o.v2 + outVal c o.v3)

/-- One of the four output buses (R351); A is left and B is right (R354). -/
inductive Bus where
  | a
  | b
  | c
  | d
deriving DecidableEq, Repr

/-- `en_k(c)`: the channel's enable for a bus (R351, R353). -/
def busEnable (k : Bus) (ch : Channel) : Bool :=
  match k with
  | .a => ch.cha
  | .b => ch.chb
  | .c => ch.chc
  | .d => ch.chd

/-- `mix(k)`: the exact sum over channels 0 to 17 (R351). -/
def mix (k : Bus) (c : Chip) : Int :=
  (List.range' 0 18).foldl (fun sum n =>
    sum + if busEnable k (c.chan (Fin.ofNat 18 n)) then (accm c (Fin.ofNat 18 n)).toInt else 0) 0

/-- Buses A and C are mixed into `mixbuff` together (R351, 45_sample_clock.md R380). -/
def mixAC (c : Chip) : Chip := { c with mixbuff := { c.mixbuff with v0 := mix .a c, v2 := mix .c c } }

/-- Buses B and D are mixed into `mixbuff` together (R351, 45_sample_clock.md R380). -/
def mixBD (c : Chip) : Chip := { c with mixbuff := { c.mixbuff with v1 := mix .b c, v3 := mix .d c } }

end Sys2Proof.Machine
end

