-- ==== Sys2Proof/Machine/Operator.lean ====
section
/-! DEFINITION. The operator bank: phase generator, rhythm phase, noise, waveforms and operator output
(42_operator_bank.md R250 to R270). -/

namespace Sys2Proof.Machine

/-! ### Phase generator -/

/-- The magnitude of R251's vibrato offset. -/
def vibRange (fNum : BitVec 10) (vibpos : BitVec 3) (vibshift : Nat) : Nat :=
  let range := (fNum >>> 7).toNat &&& 7
  let range := if vibpos &&& 3 = 0 then 0 else if vibpos.getLsbD 0 then range >>> 1 else range
  range >>> vibshift

/-- R251: the effective F-number. The offset is at most `f >> 7`, so the difference never truncates. -/
def effFnum (fNum : BitVec 10) (vib : Bool) (vibpos : BitVec 3) (vibshift : Nat) : Nat :=
  if vib then
    if vibpos.getLsbD 2 then fNum.toNat - vibRange fNum vibpos vibshift
    else fNum.toNat + vibRange fNum vibpos vibshift
  else fNum.toNat

/-- R250: the phase increment `(basefreq · MT[mult]) >> 1`, with `basefreq = (f << block) >> 1`. -/
def phaseInc (f : Nat) (block : BitVec 3) (mult : BitVec 4) : Nat :=
  (((f <<< block.toNat) >>> 1) * mtTable mult) >>> 1

/-- R250: this tick's phase, `wrap16(pg_phase >> 9)`, taken before the update. -/
def tickPhase (s : Slot) : BitVec 16 := BitVec.ofNat 16 (s.pgPhase.toNat >>> 9)

/-- R250 and R252: the accumulator step, and the default of `pg_phase_out`. -/
def phaseAccum (i : SlotIdx) (c : Chip) : Chip :=
  let ch := c.chan (channelOf i)
  c.modSlot i fun s =>
    let inc := phaseInc (effFnum ch.fNum s.regVib c.vibpos c.vibshift) ch.block s.regMult
    { s with
      pgPhase := (if s.pgReset then 0 else s.pgPhase) + BitVec.ofNat 32 inc
      pgPhaseOut := tickPhase s }

/-- R253: the rhythm phase-bit capture of slots 13 and 17; `phase` is this tick's phase of R250. -/
def rhythmCapture (i : SlotIdx) (phase : BitVec 16) (c : Chip) : Chip :=
  if i = 13 then
    { c with
      rmHhBit2 := phase.getLsbD 2
      rmHhBit3 := phase.getLsbD 3
      rmHhBit7 := phase.getLsbD 7
      rmHhBit8 := phase.getLsbD 8 }
  else if i = 17 ∧ c.rhythmOn then { c with rmTcBit3 := phase.getLsbD 3, rmTcBit5 := phase.getLsbD 5 }
  else c

/-- R254: `rm_xor`. -/
def rmXor (c : Chip) : Bool :=
  (c.rmHhBit2 ^^ c.rmHhBit7) || (c.rmHhBit3 ^^ c.rmTcBit5) || (c.rmTcBit3 ^^ c.rmTcBit5)

/-- A one-bit value at bit `n` of a 16-bit phase. -/
def phaseBit (b : Bool) (n : Nat) : BitVec 16 := (BitVec.ofBool b).setWidth 16 <<< n

/-- R254: the hi-hat's phase; `n0` is the noise bit. -/
def hiHatPhase (c : Chip) (n0 : Bool) : BitVec 16 :=
  phaseBit (rmXor c) 9 ||| (if rmXor c ^^ n0 then 0xD0 else 0x34)

/-- R254: the snare drum's phase. -/
def snarePhase (c : Chip) (n0 : Bool) : BitVec 16 := phaseBit c.rmHhBit8 9 ||| phaseBit (c.rmHhBit8 ^^ n0) 8

/-- R254: the top cymbal's phase. -/
def cymbalPhase (c : Chip) : BitVec 16 := phaseBit (rmXor c) 9 ||| 0x80

/-- R254: in rhythm mode the phase of slots 13, 16 and 17 is replaced. -/
def rhythmOverride (i : SlotIdx) (c : Chip) : Chip :=
  let n0 := c.noise.getLsbD 0
  if c.rhythmOn then
    if i = 13 then c.modSlot i fun s => { s with pgPhaseOut := hiHatPhase c n0 }
    else if i = 16 then c.modSlot i fun s => { s with pgPhaseOut := snarePhase c n0 }
    else if i = 17 then c.modSlot i fun s => { s with pgPhaseOut := cymbalPhase c }
    else c
  else c

/-- R256: one step of the 23-bit LFSR. -/
def noiseNext (n : BitVec 23) : BitVec 23 :=
  (n >>> 1) ||| ((BitVec.ofBool (n.getLsbD 14 ^^ n.getLsbD 0)).setWidth 23 <<< 22)

/-- R256: the noise step, at the end of the phase generator of every slot. -/
def noiseStep (c : Chip) : Chip := { c with noise := noiseNext c.noise }

/-- The phase generator of slot `i`: R250 to R256 in order. -/
def phaseStep (i : SlotIdx) (c : Chip) : Chip :=
  c |> phaseAccum i |> rhythmCapture i (tickPhase (c.slot i)) |> rhythmOverride i |> noiseStep

/-! ### Waveforms -/

/-- `exp_lin(level)` (R260). -/
def expLin (cfg : Config) (level : Nat) : Nat :=
  let level := min level 0x1FFF
  ((cfg.expRom.get (Fin.ofNat 256 (level &&& 0xFF))).toNat <<< 1) >>> (level >>> 8)

/-- `LS(k)` (R261). -/
def logSin (cfg : Config) (k : Byte) : Nat := (cfg.logsinRom.get (Fin.ofNat 256 k.toNat)).toNat

/-- The magnitude of a sine half wave: `LS(p[7:0] XOR 0xFF)` if p[8] = 1, else `LS(p[7:0])` (R262). -/
def halfSine (cfg : Config) (p : BitVec 10) : Nat :=
  logSin cfg (if p.getLsbD 8 then p.extractLsb' 0 8 ^^^ 0xFF else p.extractLsb' 0 8)

/-- The magnitude of a half wave at double frequency, silent in the second half period (R266). -/
def doubleSine (cfg : Config) (p : BitVec 10) : Nat :=
  let k : Byte := p.extractLsb' 0 8
  if p.getLsbD 9 then 0x1000 else logSin cfg ((if p.getLsbD 7 then k ^^^ 0xFF else k) <<< 1)

/-- The log-domain magnitude L of waveform `wf` (R262 to R269). DEDUCED (log entry 17): R269's example gives
`wave(7, 0x100, 0)` as 0; the value here is R260's and 95_test_vectors.md 2.6's, 15. -/
def waveLog (cfg : Config) (wf : BitVec 3) (p : BitVec 10) : Nat :=
  match wf.toNat with
  | 0 => halfSine cfg p
  | 1 => if p.getLsbD 9 then 0x1000 else halfSine cfg p
  | 2 => halfSine cfg p
  | 3 => if p.getLsbD 8 then 0x1000 else logSin cfg (p.extractLsb' 0 8)
  | 4 => doubleSine cfg p
  | 5 => doubleSine cfg p
  | 6 => 0
  | _ => (if p.getLsbD 9 then (p &&& 0x1FF) ^^^ 0x1FF else p).toNat <<< 3

/-- The sign `neg` of waveform `wf` (R262 to R269). -/
def waveNeg (wf : BitVec 3) (p : BitVec 10) : Bool :=
  match wf.toNat with
  | 0 => p.getLsbD 9
  | 4 => !p.getLsbD 9 && p.getLsbD 8
  | 6 => p.getLsbD 9
  | 7 => p.getLsbD 9
  | _ => false

/-- `wave(wf, p, env)`: the exponent of `L + (env << 3)`, negated in ones' complement (R261). -/
def wave (cfg : Config) (wf : BitVec 3) (p : BitVec 10) (env : BitVec 9) : Int :=
  let v : Int := expLin cfg (waveLog cfg wf p + (env.toNat <<< 3))
  if waveNeg wf p then -v - 1 else v

/-! ### Operator output -/

/-- R270: the phase the waveform sees, `(pg_phase_out + m) mod 1024`. -/
def wavePhase (pgPhaseOut : BitVec 16) (m : Int) : BitVec 10 := BitVec.ofInt 10 (pgPhaseOut.toNat + m)

/-- R270: the output of slot `i`. -/
def outputStep (cfg : Config) (i : SlotIdx) (c : Chip) : Chip :=
  c.modSlot i fun s => { s with out := s16 (wave cfg s.regWf (wavePhase s.pgPhaseOut (modVal c i)) s.egOut) }

end Sys2Proof.Machine
end

