-- ==== Sys2Proof/Machine/Clock.lean ====
section
/-! DEFINITION. The sample clock: the tick and its order, the LFOs, the envelope timer and the resampler
(45_sample_clock.md R380 to R400). -/

namespace Sys2Proof.Machine

/-- `slot_step(i)`: feedback, envelope, phase, output, each seeing the writes of those before (R381). -/
def slotStep (cfg : Config) (i : SlotIdx) (c : Chip) : Chip :=
  c |> feedbackStep i |> envCalc i |> phaseStep i |> outputStep cfg i

/-- `slot_step` on the `n` slots from `lo` up, in order. -/
def runSlots (cfg : Config) (lo n : Nat) (c : Chip) : Chip :=
  (List.range' lo n).foldl (fun c i => slotStep cfg (Fin.ofNat 36 i) c) c

/-- R390: the tremolo level at an LFO position. -/
def tremoloAt (pos shift : Nat) : Nat := if pos < 105 then pos >>> shift else (210 - pos) >>> shift

/-- R390: the position after this tick. -/
def tremoloposNext (c : Chip) : Nat :=
  if c.timer &&& 0x3F = 0x3F then (c.tremolopos + 1) % 210 else c.tremolopos

/-- R390 and R391: both LFOs, on the tick counter before its increment. -/
def lfoStep (c : Chip) : Chip :=
  { c with
    tremolopos := tremoloposNext c
    tremolo := tremoloAt (tremoloposNext c) c.tremoloshift
    vibpos := if c.timer &&& 0x3FF = 0x3FF then c.vibpos + 1 else c.vibpos }

/-- R392: the tick counter. -/
def timerStep (c : Chip) : Chip := { c with timer := c.timer + 1 }

/-- R393: the least n in 0 to 12 with `eg_timer[n] = 1`, or 13. -/
def lowestOne (t : BitVec 36) : Nat := ((List.range' 0 13).find? fun n => t.getLsbD n).getD 13

/-- R393: the sampling of `eg_add` and `eg_timer_lo`, on ticks with `eg_state = 1`. -/
def egSample (c : Chip) : Chip :=
  if c.egState then
    { c with
      egAdd := if 12 < lowestOne c.egTimer then 0 else lowestOne c.egTimer + 1
      egTimerLo := c.egTimer.setWidth 2 }
  else c

/-- R393: the 36-bit count and its carry. -/
def egCount (c : Chip) : Chip :=
  if c.egTimerrem || c.egState then
    { c with egTimer := c.egTimer + 1, egTimerrem := c.egTimer == BitVec.allOnes 36 }
  else c

/-- `eg_timer_step()` (R393). -/
def egTimerStep (c : Chip) : Chip :=
  let c := c |> egSample |> egCount
  { c with egState := !c.egState }

/-- What ends every tick: the LFOs, the tick counter and the envelope timer (R380, R382). -/
def tickEnd (c : Chip) : Chip := c |> lfoStep |> timerStep |> egTimerStep

/-- A bus value as it leaves the tick (44_channel_mixer.md R352). -/
def busOut (x : Int) : S16 := s16 (clip x)

/-- The tick with CHANNEL_SAMPLE_DELAY = true, and the buffer it returns (R380). -/
def tickDelayed (cfg : Config) (c : Chip) : Chip × Quad S16 :=
  let c1 := c |> runSlots cfg 0 15 |> mixAC
  let c2 := runSlots cfg 15 3 c1
  let c3 := c2 |> runSlots cfg 18 15 |> mixBD |> runSlots cfg 33 3 |> tickEnd
  (c3, ⟨busOut c2.mixbuff.v0, busOut c.mixbuff.v1, busOut c2.mixbuff.v2, busOut c.mixbuff.v3⟩)

/-- The tick with CHANNEL_SAMPLE_DELAY = false, and the buffer it returns (R382). -/
def tickPlain (cfg : Config) (c : Chip) : Chip × Quad S16 :=
  let c1 := c |> runSlots cfg 0 36 |> mixAC
  let c2 := c1 |> mixBD |> tickEnd
  (c2, ⟨busOut c1.mixbuff.v0, busOut c.mixbuff.v1, busOut c1.mixbuff.v2, busOut c.mixbuff.v3⟩)

/-- `tick()` (R380, R382). -/
def tick (cfg : Config) (c : Chip) : Chip × Quad S16 :=
  if cfg.channelSampleDelay then tickDelayed cfg c else tickPlain cfg c

/-- One turn of the resampler's loop (R400). -/
def resampleTick (cfg : Config) (c : Chip) : Chip :=
  let r := tick cfg c
  { r.1 with oldsamples := c.samples, samples := r.2, samplecnt := c.samplecnt - c.rateratio }

/-- The resampler's loop, at most `n` turns: a tick while `samplecnt ≥ rateratio` (R400). -/
def resampleLoop (cfg : Config) : Nat → Chip → Chip
  | 0, c => c
  | n + 1, c => if c.rateratio ≤ c.samplecnt then resampleLoop cfg n (resampleTick cfg c) else c

/-- The whole loop. A turn lowers `samplecnt` by `rateratio`, so `samplecnt / rateratio` turns end it (R400;
log entry 9). -/
def catchUp (cfg : Config) (c : Chip) : Chip := resampleLoop cfg (c.samplecnt / c.rateratio) c

/-- R400: the interpolated value of a bus from its last two samples. -/
def interpolate (c : Chip) (old new : S16) : S16 :=
  s16 (tdiv (old.toInt * ((c.rateratio : Int) - c.samplecnt) + new.toInt * c.samplecnt) c.rateratio)

end Sys2Proof.Machine
end

