-- ==== Sys2Proof/Machine/HostCalls.lean ====
section
/-! DEFINITION. The H commands RESET and RENDER (46_host_interface.md R420, R422; 45_sample_clock.md R400). -/

namespace Sys2Proof.Machine

/-- `reset(sample_rate)` (R420): an invalid rate raises E_INVALID_RATE and changes nothing; a valid one replaces the
whole block. The host's pending calls are the host's, and stay. -/
def resetCall (sampleRate : Int) (s : State) : State :=
  if srMin ≤ sampleRate ∧ sampleRate ≤ srMax then { s.noEffect with chip := chipReset sampleRate.toNat }
  else s.raise .invalidRate

/-- The block after the frame: the loop has run and `samplecnt` has moved on by 1024 (R400). -/
def renderChip (cfg : Config) (c : Chip) : Chip :=
  let c := catchUp cfg c
  { c with samplecnt := c.samplecnt + rsmOne }

/-- The frame (left, right): buses A and B of the interpolated samples (R400, R422). -/
def renderFrame (cfg : Config) (c : Chip) : CallResult :=
  let c := catchUp cfg c
  .frame (interpolate c c.oldsamples.v0 c.samples.v0) (interpolate c c.oldsamples.v1 c.samples.v1)

/-- `render_one_frame()` under a configuration (R400, R422). -/
def renderCall (cfg : Config) (s : State) : Host.Outcome State Fault Refusal :=
  if s.chip.valid then
    if s.chip.rateratio = 0 then .fault .renderNeverEnds
    else .next { s with chip := renderChip cfg s.chip, result := renderFrame cfg s.chip }
  else .next (s.raise .notReset)

/-- RESET (R420). -/
def execReset (sampleRate : Int) (s : State) : Host.Outcome State Fault Refusal := .next (resetCall sampleRate s)

/-- RENDER (R422), with the model's parameters. -/
def execRender (s : State) : Host.Outcome State Fault Refusal := renderCall params s

end Sys2Proof.Machine
end

