-- ==== Sys2Proof/Machine/OperatorWrites.lean ====
section
/-! DEFINITION. The operator registers (41_register_writes.md R204 to R208). The four rows of a family have one effect,
on the slot their operand names. -/

namespace Sys2Proof.Machine

/-- R204: AM, VIB, EGT, KSR and MULT of slot `i`. -/
def writeOp20 (i : SlotIdx) (d : Byte) (c : Chip) : Chip :=
  c.modSlot i fun s => { s with
    tremEn := bit d 7
    regVib := bit d 6
    regType := bit d 5
    regKsr := bit d 4
    regMult := field d 0 4 }

/-- R205: KSL and TL of slot `i`, then `update_ksl(i)`. -/
def writeOp40 (i : SlotIdx) (d : Byte) (c : Chip) : Chip :=
  updateKsl i (c.modSlot i fun s => { s with regKsl := field d 6 2, regTl := field d 0 6 })

/-- R206: attack rate and decay rate of slot `i`. -/
def writeOp60 (i : SlotIdx) (d : Byte) (c : Chip) : Chip :=
  c.modSlot i fun s => { s with regAr := field d 4 4, regDr := field d 0 4 }

/-- The stored sustain level: 15 is stored as 31 (R207). -/
def storedSl (sl : BitVec 4) : BitVec 5 := if sl = 15 then 31 else sl.setWidth 5

/-- R207: sustain level and release rate of slot `i`. -/
def writeOp80 (i : SlotIdx) (d : Byte) (c : Chip) : Chip :=
  c.modSlot i fun s => { s with regSl := storedSl (field d 4 4), regRr := field d 0 4 }

/-- The stored waveform: bit 2 is dropped while NEW = 0 (R208). -/
def storedWf (newm : Bool) (wf : BitVec 3) : BitVec 3 := if newm then wf else wf &&& 3

/-- R208: the waveform of slot `i`. -/
def writeOpE0 (i : SlotIdx) (d : Byte) (c : Chip) : Chip :=
  c.modSlot i fun s => { s with regWf := storedWf c.newm (field d 0 3) }

/-- WR_OP20.a (R204). -/
def execWrOp20a (i : SlotIdx) (d : Byte) (s : State) : Host.Outcome State Fault Refusal :=
  .next (s.regWrite (writeOp20 i d))

/-- WR_OP20.b (R204). -/
def execWrOp20b (i : SlotIdx) (d : Byte) (s : State) : Host.Outcome State Fault Refusal :=
  .next (s.regWrite (writeOp20 i d))

/-- WR_OP20.c (R204). -/
def execWrOp20c (i : SlotIdx) (d : Byte) (s : State) : Host.Outcome State Fault Refusal :=
  .next (s.regWrite (writeOp20 i d))

/-- WR_OP20.d (R204). -/
def execWrOp20d (i : SlotIdx) (d : Byte) (s : State) : Host.Outcome State Fault Refusal :=
  .next (s.regWrite (writeOp20 i d))

/-- WR_OP40.a (R205). -/
def execWrOp40a (i : SlotIdx) (d : Byte) (s : State) : Host.Outcome State Fault Refusal :=
  .next (s.regWrite (writeOp40 i d))

/-- WR_OP40.b (R205). -/
def execWrOp40b (i : SlotIdx) (d : Byte) (s : State) : Host.Outcome State Fault Refusal :=
  .next (s.regWrite (writeOp40 i d))

/-- WR_OP40.c (R205). -/
def execWrOp40c (i : SlotIdx) (d : Byte) (s : State) : Host.Outcome State Fault Refusal :=
  .next (s.regWrite (writeOp40 i d))

/-- WR_OP40.d (R205). -/
def execWrOp40d (i : SlotIdx) (d : Byte) (s : State) : Host.Outcome State Fault Refusal :=
  .next (s.regWrite (writeOp40 i d))

/-- WR_OP60.a (R206). -/
def execWrOp60a (i : SlotIdx) (d : Byte) (s : State) : Host.Outcome State Fault Refusal :=
  .next (s.regWrite (writeOp60 i d))

/-- WR_OP60.b (R206). -/
def execWrOp60b (i : SlotIdx) (d : Byte) (s : State) : Host.Outcome State Fault Refusal :=
  .next (s.regWrite (writeOp60 i d))

/-- WR_OP60.c (R206). -/
def execWrOp60c (i : SlotIdx) (d : Byte) (s : State) : Host.Outcome State Fault Refusal :=
  .next (s.regWrite (writeOp60 i d))

/-- WR_OP60.d (R206). -/
def execWrOp60d (i : SlotIdx) (d : Byte) (s : State) : Host.Outcome State Fault Refusal :=
  .next (s.regWrite (writeOp60 i d))

/-- WR_OP80.a (R207). -/
def execWrOp80a (i : SlotIdx) (d : Byte) (s : State) : Host.Outcome State Fault Refusal :=
  .next (s.regWrite (writeOp80 i d))

/-- WR_OP80.b (R207). -/
def execWrOp80b (i : SlotIdx) (d : Byte) (s : State) : Host.Outcome State Fault Refusal :=
  .next (s.regWrite (writeOp80 i d))

/-- WR_OP80.c (R207). -/
def execWrOp80c (i : SlotIdx) (d : Byte) (s : State) : Host.Outcome State Fault Refusal :=
  .next (s.regWrite (writeOp80 i d))

/-- WR_OP80.d (R207). -/
def execWrOp80d (i : SlotIdx) (d : Byte) (s : State) : Host.Outcome State Fault Refusal :=
  .next (s.regWrite (writeOp80 i d))

/-- WR_OPE0.a (R208). -/
def execWrOpE0a (i : SlotIdx) (d : Byte) (s : State) : Host.Outcome State Fault Refusal :=
  .next (s.regWrite (writeOpE0 i d))

/-- WR_OPE0.b (R208). -/
def execWrOpE0b (i : SlotIdx) (d : Byte) (s : State) : Host.Outcome State Fault Refusal :=
  .next (s.regWrite (writeOpE0 i d))

/-- WR_OPE0.c (R208). -/
def execWrOpE0c (i : SlotIdx) (d : Byte) (s : State) : Host.Outcome State Fault Refusal :=
  .next (s.regWrite (writeOpE0 i d))

/-- WR_OPE0.d (R208). -/
def execWrOpE0d (i : SlotIdx) (d : Byte) (s : State) : Host.Outcome State Fault Refusal :=
  .next (s.regWrite (writeOpE0 i d))

end Sys2Proof.Machine
end

