-- ==== Sys2Proof/Machine/RhythmWrite.lean ====
section
/-! DEFINITION. The rhythm register WR_RHY (41_register_writes.md R217, R218). -/

namespace Sys2Proof.Machine

/-- R217's depth part: DAM = 1 gives `tremoloshift` 2, else 4; DVB = 1 gives `vibshift` 0, else 1. -/
def setDepths (d : Byte) (c : Chip) : Chip :=
  { c with tremoloshift := if bit d 7 then 2 else 4, vibshift := if bit d 6 then 0 else 1 }

/-- R218 with D[5] = 1: the drum routing of channels 6 to 8 and the five drum keys. -/
def rhythmEnter (d : Byte) (c : Chip) : Chip :=
  c |> setOut 6 (outList [15, 15]) |> setOut 7 (outList [13, 13, 16, 16]) |> setOut 8 (outList [14, 14, 17, 17])
    |> setChtype 6 .drum |> setChtype 7 .drum |> setChtype 8 .drum
    |> setupAlg 6 |> setupAlg 7 |> setupAlg 8
    |> keySet (bit d 0) 13 keyDrum
    |> keySet (bit d 1) 17 keyDrum
    |> keySet (bit d 2) 14 keyDrum
    |> keySet (bit d 3) 16 keyDrum
    |> keySet (bit d 4) 12 keyDrum
    |> keySet (bit d 4) 15 keyDrum

/-- R218 with D[5] = 0, for one of the channels 6 to 8. -/
def rhythmLeave (n : ChanIdx) (c : Chip) : Chip :=
  c |> setChtype n .twoOp |> setupAlg n |> keyOff (op1 n) keyDrum |> keyOff (op2 n) keyDrum

/-- `rhythm_update(D)` (R218). -/
def rhythmUpdate (d : Byte) (c : Chip) : Chip :=
  let c := { c with rhy := field d 0 6 }
  if bit d 5 then rhythmEnter d c else c |> rhythmLeave 6 |> rhythmLeave 7 |> rhythmLeave 8

/-- R217: the depths, then the rhythm part. -/
def writeRhy (d : Byte) (c : Chip) : Chip := rhythmUpdate d (setDepths d c)

/-- WR_RHY (R217, R218). -/
def execWrRhy (d : Byte) (s : State) : Host.Outcome State Fault Refusal := .next (s.regWrite (writeRhy d))

end Sys2Proof.Machine
end

