-- ==== Sys2Proof/Machine/Dispatch.lean ====
section
/-! DEFINITION. The meaning of each command, one arm per constructor of `Instr`. -/

namespace Sys2Proof.Machine

def exec (i : Instr) (s : State) : Host.Outcome State Fault Refusal :=
  match i with
  | .reset r => Sys2Proof.Machine.execReset r s
  | .render => Sys2Proof.Machine.execRender s
  | .wrNts d => Sys2Proof.Machine.execWrNts d s
  | .wr4op d => Sys2Proof.Machine.execWr4op d s
  | .wrNew d => Sys2Proof.Machine.execWrNew d s
  | .wrOp20a k d => Sys2Proof.Machine.execWrOp20a k d s
  | .wrOp20b k d => Sys2Proof.Machine.execWrOp20b k d s
  | .wrOp20c k d => Sys2Proof.Machine.execWrOp20c k d s
  | .wrOp20d k d => Sys2Proof.Machine.execWrOp20d k d s
  | .wrOp40a k d => Sys2Proof.Machine.execWrOp40a k d s
  | .wrOp40b k d => Sys2Proof.Machine.execWrOp40b k d s
  | .wrOp40c k d => Sys2Proof.Machine.execWrOp40c k d s
  | .wrOp40d k d => Sys2Proof.Machine.execWrOp40d k d s
  | .wrOp60a k d => Sys2Proof.Machine.execWrOp60a k d s
  | .wrOp60b k d => Sys2Proof.Machine.execWrOp60b k d s
  | .wrOp60c k d => Sys2Proof.Machine.execWrOp60c k d s
  | .wrOp60d k d => Sys2Proof.Machine.execWrOp60d k d s
  | .wrOp80a k d => Sys2Proof.Machine.execWrOp80a k d s
  | .wrOp80b k d => Sys2Proof.Machine.execWrOp80b k d s
  | .wrOp80c k d => Sys2Proof.Machine.execWrOp80c k d s
  | .wrOp80d k d => Sys2Proof.Machine.execWrOp80d k d s
  | .wrOpE0a k d => Sys2Proof.Machine.execWrOpE0a k d s
  | .wrOpE0b k d => Sys2Proof.Machine.execWrOpE0b k d s
  | .wrOpE0c k d => Sys2Proof.Machine.execWrOpE0c k d s
  | .wrOpE0d k d => Sys2Proof.Machine.execWrOpE0d k d s
  | .wrChA0a n d => Sys2Proof.Machine.execWrChA0a n d s
  | .wrChA0b n d => Sys2Proof.Machine.execWrChA0b n d s
  | .wrRhy d => Sys2Proof.Machine.execWrRhy d s
  | .wrChB0a n d => Sys2Proof.Machine.execWrChB0a n d s
  | .wrChB0b n d => Sys2Proof.Machine.execWrChB0b n d s
  | .wrChC0a n d => Sys2Proof.Machine.execWrChC0a n d s
  | .wrChC0b n d => Sys2Proof.Machine.execWrChC0b n d s
  | .wrIgnored a d => Sys2Proof.Machine.execWrIgnored a d s

end Sys2Proof.Machine
end

