-- ==== Sys2Proof/WellFormed.lean ====
section
/-! DEFINITION. Which operands each row of the opcode table can name (30_encoding.md R122 to R125). -/

namespace Sys2Proof

/-- A slot's number inside its bank, 0 to 17 (00_scope.md R13). -/
def inBankSlot (i : SlotIdx) : Nat := i.val % 18

/-- A channel's number inside its bank, 0 to 8 (00_scope.md R13). -/
def inBankChan (c : ChanIdx) : Nat := c.val % 9

/-- Row a of R124: offsets 0x00 to 0x03 and 0x08 to 0x0B, in-bank slots 0 to 3 and 6 to 9. -/
def slotInPartA (i : SlotIdx) : Bool :=
  decide (inBankSlot i ≤ 3) || (decide (6 ≤ inBankSlot i) && decide (inBankSlot i ≤ 9))

/-- Row b of R124: offsets 0x04, 0x05, 0x0C, 0x0D, in-bank slots 4, 5, 10, 11. -/
def slotInPartB (i : SlotIdx) : Bool :=
  (decide (4 ≤ inBankSlot i) && decide (inBankSlot i ≤ 5))
    || (decide (10 ≤ inBankSlot i) && decide (inBankSlot i ≤ 11))

/-- Row c of R124: offsets 0x10 to 0x13, in-bank slots 12 to 15. -/
def slotInPartC (i : SlotIdx) : Bool := decide (12 ≤ inBankSlot i) && decide (inBankSlot i ≤ 15)

/-- Row d of R124: offsets 0x14 and 0x15, in-bank slots 16 and 17. -/
def slotInPartD (i : SlotIdx) : Bool := decide (16 ≤ inBankSlot i)

/-- Row a of a channel family: N = 0 to 7. -/
def chanInPartA (c : ChanIdx) : Bool := decide (inBankChan c ≤ 7)

/-- Row b of a channel family: N = 8. -/
def chanInPartB (c : ChanIdx) : Bool := decide (inBankChan c = 8)

/-- An operator offset O is valid when `O & 7 ≤ 5` and `O ≤ 21` (R124). -/
def offsetValid (o : BitVec 5) : Bool := decide ((o &&& 7).toNat ≤ 5) && decide (o.toNat ≤ 21)

/-- The low byte names an operator register: R[7:5] is one of 001, 010, 011, 100, 111 and O is valid (R121). -/
def isOperatorReg (r : Byte) : Bool :=
  [1, 2, 3, 4, 7].contains (r.extractLsb' 5 3).toNat && offsetValid (r.extractLsb' 0 5)

/-- The low byte names a channel register: G is A, B or C and N ≤ 8 (R121). -/
def isChannelReg (r : Byte) : Bool :=
  [0xA, 0xB, 0xC].contains (r.extractLsb' 4 4).toNat && decide ((r.extractLsb' 0 4).toNat ≤ 8)

/-- No register family decodes the address (R125), said from the conditions of R121. -/
def addrIgnored (a : RegAddr) : Bool :=
  let r : Byte := a.extractLsb' 0 8
  !(a == 0x008 || a == 0x104 || a == 0x105 || a == 0x0BD || isOperatorReg r || isChannelReg r)

/-- The operands are ones the row can name. Every sample rate and every data byte is allowed. -/
def Instr.wf : Instr → Bool
  | .reset _ => true
  | .render => true
  | .wrNts _ => true
  | .wr4op _ => true
  | .wrNew _ => true
  | .wrOp20a i _ => slotInPartA i
  | .wrOp20b i _ => slotInPartB i
  | .wrOp20c i _ => slotInPartC i
  | .wrOp20d i _ => slotInPartD i
  | .wrOp40a i _ => slotInPartA i
  | .wrOp40b i _ => slotInPartB i
  | .wrOp40c i _ => slotInPartC i
  | .wrOp40d i _ => slotInPartD i
  | .wrOp60a i _ => slotInPartA i
  | .wrOp60b i _ => slotInPartB i
  | .wrOp60c i _ => slotInPartC i
  | .wrOp60d i _ => slotInPartD i
  | .wrOp80a i _ => slotInPartA i
  | .wrOp80b i _ => slotInPartB i
  | .wrOp80c i _ => slotInPartC i
  | .wrOp80d i _ => slotInPartD i
  | .wrOpE0a i _ => slotInPartA i
  | .wrOpE0b i _ => slotInPartB i
  | .wrOpE0c i _ => slotInPartC i
  | .wrOpE0d i _ => slotInPartD i
  | .wrChA0a c _ => chanInPartA c
  | .wrChA0b c _ => chanInPartB c
  | .wrRhy _ => true
  | .wrChB0a c _ => chanInPartA c
  | .wrChB0b c _ => chanInPartB c
  | .wrChC0a c _ => chanInPartA c
  | .wrChC0b c _ => chanInPartB c
  | .wrIgnored a _ => addrIgnored a

end Sys2Proof
end

