-- ==== Sys2Proof/Decode.lean ====
section
/-! DEFINITION. Decoding a host call (30_encoding.md R120 to R125; 46_host_interface.md R421), and the encoder,
written from the same tables. A W word always decodes: what no family matches is `WR_IGNORED` (R125). The one
rejection is a write whose address is outside 0 to 0x1FF. -/

namespace Sys2Proof

/-- Why a call stands for no command. -/
inductive DecodeError where
  /-- A write to an address below 0 or above 0x1FF: not encoded, dropped at the interface (R120, R421). -/
  | addressOutsideSpace
deriving DecidableEq, Repr

/-- The data byte D, W[7:0] (R120). -/
def wordData (w : CmdWord) : Byte := w.extractLsb' 0 8

/-- The address, W[16:8] (R120). -/
def wordAddr (w : CmdWord) : RegAddr := w.extractLsb' 8 9

/-- The bank B, W[16], as 0 or 1 (R120). -/
def wordBank (w : CmdWord) : Nat := (w.getLsbD 16).toNat

/-- `ad_slot(O) = 6·(O >> 3) + (O & 7)` (R124, 47_rom_tables.md R447). -/
def adSlot (o : BitVec 5) : Nat := 6 * (o >>> 3).toNat + (o &&& 7).toNat

/-- The slot of an operator family, `18·B + ad_slot(O)` with O = W[12:8] (R123). Below 36 for every valid O. -/
def wordSlot (w : CmdWord) : SlotIdx := Fin.ofNat 36 (18 * wordBank w + adSlot (w.extractLsb' 8 5))

/-- The channel of a channel family, `9·B + N` with N = W[11:8] (R122). Below 18 for every N ≤ 8. -/
def wordChan (w : CmdWord) : ChanIdx := Fin.ofNat 18 (9 * wordBank w + (w.extractLsb' 8 4).toNat)

/-- `(W & mask) = match` (R121). -/
def wordMatches (w mask pat : CmdWord) : Bool := w &&& mask == pat

/-- A W word's command: the first matching row of the opcode table (R121, R124, R125). -/
def decodeWord (w : CmdWord) : Instr :=
  if wordMatches w 0x1FF00 0x00800 then .wrNts (wordData w)
  else if wordMatches w 0x1FF00 0x10400 then .wr4op (wordData w)
  else if wordMatches w 0x1FF00 0x10500 then .wrNew (wordData w)
  else if wordMatches w 0x0F400 0x02000 then .wrOp20a (wordSlot w) (wordData w)
  else if wordMatches w 0x0F600 0x02400 then .wrOp20b (wordSlot w) (wordData w)
  else if wordMatches w 0x0FC00 0x03000 then .wrOp20c (wordSlot w) (wordData w)
  else if wordMatches w 0x0FE00 0x03400 then .wrOp20d (wordSlot w) (wordData w)
  else if wordMatches w 0x0F400 0x04000 then .wrOp40a (wordSlot w) (wordData w)
  else if wordMatches w 0x0F600 0x04400 then .wrOp40b (wordSlot w) (wordData w)
  else if wordMatches w 0x0FC00 0x05000 then .wrOp40c (wordSlot w) (wordData w)
  else if wordMatches w 0x0FE00 0x05400 then .wrOp40d (wordSlot w) (wordData w)
  else if wordMatches w 0x0F400 0x06000 then .wrOp60a (wordSlot w) (wordData w)
  else if wordMatches w 0x0F600 0x06400 then .wrOp60b (wordSlot w) (wordData w)
  else if wordMatches w 0x0FC00 0x07000 then .wrOp60c (wordSlot w) (wordData w)
  else if wordMatches w 0x0FE00 0x07400 then .wrOp60d (wordSlot w) (wordData w)
  else if wordMatches w 0x0F400 0x08000 then .wrOp80a (wordSlot w) (wordData w)
  else if wordMatches w 0x0F600 0x08400 then .wrOp80b (wordSlot w) (wordData w)
  else if wordMatches w 0x0FC00 0x09000 then .wrOp80c (wordSlot w) (wordData w)
  else if wordMatches w 0x0FE00 0x09400 then .wrOp80d (wordSlot w) (wordData w)
  else if wordMatches w 0x0F400 0x0E000 then .wrOpE0a (wordSlot w) (wordData w)
  else if wordMatches w 0x0F600 0x0E400 then .wrOpE0b (wordSlot w) (wordData w)
  else if wordMatches w 0x0FC00 0x0F000 then .wrOpE0c (wordSlot w) (wordData w)
  else if wordMatches w 0x0FE00 0x0F400 then .wrOpE0d (wordSlot w) (wordData w)
  else if wordMatches w 0x0F800 0x0A000 then .wrChA0a (wordChan w) (wordData w)
  else if wordMatches w 0x0FF00 0x0A800 then .wrChA0b (wordChan w) (wordData w)
  else if wordMatches w 0x1FF00 0x0BD00 then .wrRhy (wordData w)
  else if wordMatches w 0x0F800 0x0B000 then .wrChB0a (wordChan w) (wordData w)
  else if wordMatches w 0x0FF00 0x0B800 then .wrChB0b (wordChan w) (wordData w)
  else if wordMatches w 0x0F800 0x0C000 then .wrChC0a (wordChan w) (wordData w)
  else if wordMatches w 0x0FF00 0x0C800 then .wrChC0b (wordChan w) (wordData w)
  else .wrIgnored (wordAddr w) (wordData w)

/-- The word of a write inside the address space: the address, and the value's low 8 bits (R129, R421; D7). -/
def writeWord (address value : Int) : CmdWord := (BitVec.ofInt 9 address ++ BitVec.ofInt 8 value : BitVec (9 + 8))

/-- A call's command, or the name of why it has none. -/
def decode : Call → Except DecodeError Instr
  | .reset r => .ok (.reset r)
  | .render => .ok .render
  | .write a v =>
    if 0 ≤ a ∧ a ≤ 0x1FF then .ok (decodeWord (writeWord a v)) else .error .addressOutsideSpace

/-! ### The encoder -/

/-- The word `address : data` (R120). -/
def cmdWord (a : RegAddr) (d : Byte) : CmdWord := (a ++ d : BitVec (9 + 8))

/-- The offset O of an in-bank slot j: the inverse of `adSlot` on the valid offsets (R124). -/
def slotOffset (j : Nat) : Nat := 8 * (j / 6) + j % 6

/-- The register address of slot `i` in the operator family whose bank-0 base is `family` (R123, 10_state.md R33). -/
def operatorAddr (family : Nat) (i : SlotIdx) : RegAddr :=
  BitVec.ofNat 9 (0x100 * (i.val / 18) + family + slotOffset (i.val % 18))

/-- The register address of channel `c` in the channel family whose bank-0 base is `family` (R122). -/
def channelAddr (family : Nat) (c : ChanIdx) : RegAddr :=
  BitVec.ofNat 9 (0x100 * (c.val / 9) + family + c.val % 9)

/-- The host call that writes a word (R129). -/
def wordCall (w : CmdWord) : Call := .write (wordAddr w).toNat (wordData w).toNat

/-- The host call of a command. -/
def encode : Instr → Call
  | .reset r => .reset r
  | .render => .render
  | .wrNts d => wordCall (cmdWord 0x008 d)
  | .wr4op d => wordCall (cmdWord 0x104 d)
  | .wrNew d => wordCall (cmdWord 0x105 d)
  | .wrOp20a i d => wordCall (cmdWord (operatorAddr 0x020 i) d)
  | .wrOp20b i d => wordCall (cmdWord (operatorAddr 0x020 i) d)
  | .wrOp20c i d => wordCall (cmdWord (operatorAddr 0x020 i) d)
  | .wrOp20d i d => wordCall (cmdWord (operatorAddr 0x020 i) d)
  | .wrOp40a i d => wordCall (cmdWord (operatorAddr 0x040 i) d)
  | .wrOp40b i d => wordCall (cmdWord (operatorAddr 0x040 i) d)
  | .wrOp40c i d => wordCall (cmdWord (operatorAddr 0x040 i) d)
  | .wrOp40d i d => wordCall (cmdWord (operatorAddr 0x040 i) d)
  | .wrOp60a i d => wordCall (cmdWord (operatorAddr 0x060 i) d)
  | .wrOp60b i d => wordCall (cmdWord (operatorAddr 0x060 i) d)
  | .wrOp60c i d => wordCall (cmdWord (operatorAddr 0x060 i) d)
  | .wrOp60d i d => wordCall (cmdWord (operatorAddr 0x060 i) d)
  | .wrOp80a i d => wordCall (cmdWord (operatorAddr 0x080 i) d)
  | .wrOp80b i d => wordCall (cmdWord (operatorAddr 0x080 i) d)
  | .wrOp80c i d => wordCall (cmdWord (operatorAddr 0x080 i) d)
  | .wrOp80d i d => wordCall (cmdWord (operatorAddr 0x080 i) d)
  | .wrOpE0a i d => wordCall (cmdWord (operatorAddr 0x0E0 i) d)
  | .wrOpE0b i d => wordCall (cmdWord (operatorAddr 0x0E0 i) d)
  | .wrOpE0c i d => wordCall (cmdWord (operatorAddr 0x0E0 i) d)
  | .wrOpE0d i d => wordCall (cmdWord (operatorAddr 0x0E0 i) d)
  | .wrChA0a c d => wordCall (cmdWord (channelAddr 0x0A0 c) d)
  | .wrChA0b c d => wordCall (cmdWord (channelAddr 0x0A0 c) d)
  | .wrRhy d => wordCall (cmdWord 0x0BD d)
  | .wrChB0a c d => wordCall (cmdWord (channelAddr 0x0B0 c) d)
  | .wrChB0b c d => wordCall (cmdWord (channelAddr 0x0B0 c) d)
  | .wrChC0a c d => wordCall (cmdWord (channelAddr 0x0C0 c) d)
  | .wrChC0b c d => wordCall (cmdWord (channelAddr 0x0C0 c) d)
  | .wrIgnored a d => wordCall (cmdWord a d)

/-- The 17-bit word of a W command; the H commands have none (R127). -/
def encodeWord (i : Instr) : Option CmdWord :=
  match encode i with
  | .write a v => some (writeWord a v)
  | .reset _ => none
  | .render => none

/-! ### The host's word interface -/

/-- The call that the opcode table's bits stand for: bits 7:0 are the value and the bits from 8 up the address
(R120, R129). A number of more than 17 bits gives an address above 0x1FF, which is no word. -/
def tableCall (w : Nat) : Call := .write (w / 256 : Nat) (w % 256 : Nat)

/-- What the decoder reads from an instruction whose bits, numbered as the opcode table numbers them, are `w`. -/
def decodeTableWord (_nbits w : Nat) : Option Instr :=
  match decode (tableCall w) with
  | .ok i => some i
  | .error _ => none

end Sys2Proof
end

