-- ==== Sys2Proof/Machine/Fetch.lean ====
section
/-! DEFINITION. Taking the host's next call (46_host_interface.md R424): what the step calls. -/

namespace Sys2Proof.Machine

/-- The state in which a call runs: the call is off the host's list. -/
def State.taken (s : State) (rest : List Call) : State := { s with pending := rest }

/-- With no call to run, the block keeps its whole state (60_exceptions.md R522; log entry 3). -/
def State.idle (s : State) : State := s

/-- A call that decodes to no command is dropped at the interface: no effect, no error (R421). -/
def State.dropped (s : State) : State := s.noEffect

/-- The word `w` as the host's very next call; everything else stays. -/
def State.withNextWord (s : State) (w : Nat) : State := { s with pending := tableCall w :: s.pending }

end Sys2Proof.Machine
end

