-- ==== Sys2Proof/Machine/Step.lean ====
section
/-! DEFINITION. One step: one host call (00_scope.md R6). -/

namespace Sys2Proof.Machine

/-- One step takes the host's next call, decodes it and runs its command. With no call pending the block idles. -/
def step (s : State) : Host.Outcome State Fault Refusal :=
  match s.pending with
  | [] => .next s.idle
  | call :: rest =>
    match decode call with
    | .ok i => exec i (s.taken rest)
    | .error _ => .next (s.taken rest).dropped

/-- `s` with the word `w`, its bits numbered as the opcode table numbers them, as the host's very next call. -/
def State.withFetchWord (s : State) (_nbits w : Nat) : State := s.withNextWord w

end Sys2Proof.Machine
end

