-- ==== Sys2Proof/Safety.lean ====
section
/-! DEFINITION. What a legal state is (the legal values of 10_state.md R35 to R37 and the invariants of
43_envelope_generator.md R315 and 44_channel_mixer.md R346), and the two halves of the block's state that the frame
statements speak of. -/

namespace Sys2Proof.Machine

/-- The range of an operator output (42_operator_bank.md R271). -/
abbrev outRange (v : S16) : Prop := -4085 ≤ v.toInt ∧ v.toInt ≤ 4084

/-- Slot `j` belongs to channel `n` or to its pair (44_channel_mixer.md R346). -/
abbrev ownSlot (n : ChanIdx) (j : SlotIdx) : Prop := channelOf j = n ∨ pair n = some (channelOf j)

/-- R346 on a modulation source: OUT(j) names an earlier slot, and FB stands on a channel's op1 alone. -/
def modLegal (i : SlotIdx) : ModSrc → Bool
  | .zero => true
  | .fb => decide (i = op1 (channelOf i))
  | .out j => decide (j < i)

/-- R346 on a summed source: OUT(j) names a slot of the channel or of its pair. -/
def outLegal (n : ChanIdx) : OutSrc → Bool
  | .zero => true
  | .out j => decide (ownSlot n j)

/-- The legal values of slot `i` (10_state.md R37, 44_channel_mixer.md R346, R347). -/
abbrev Slot.Legal (i : SlotIdx) (s : Slot) : Prop :=
  s.egKsl ≤ 224 ∧ (s.regSl.toNat ≤ 14 ∨ s.regSl = 31) ∧ outRange s.out ∧ outRange s.prout ∧
    (-2043 ≤ s.fbmod.toInt ∧ s.fbmod.toInt ≤ 2042) ∧ modLegal i s.mod

/-- The algorithms a channel can hold: 8 on a pair's first channel only, 4 to 7 on its second only (R36, R340). -/
abbrev algLegal (n : ChanIdx) (a : BitVec 4) : Prop :=
  a = 0 ∨ a = 1 ∨ (n.val % 9 < 3 ∧ a = 8) ∨ (3 ≤ n.val % 9 ∧ n.val % 9 < 6 ∧ 4 ≤ a.toNat ∧ a.toNat ≤ 7)

/-- The types a channel can hold: the pair types on pairs only, CH_DRUM exactly on channels 6 to 8 in rhythm mode
(10_state.md R36, 41_register_writes.md R202, R218). -/
abbrev chtypeLegal (rhythm : Bool) (n : ChanIdx) (t : ChType) : Prop :=
  (t = .fourOp → n.val % 9 < 3) ∧ (t = .fourOp2 → 3 ≤ n.val % 9 ∧ n.val % 9 < 6) ∧
    (t = .drum ↔ 6 ≤ n.val ∧ n.val ≤ 8 ∧ rhythm = true)

/-- The legal values of channel `n` (10_state.md R36). -/
abbrev Channel.Legal (rhythm : Bool) (n : ChanIdx) (ch : Channel) : Prop :=
  algLegal n ch.alg ∧ chtypeLegal rhythm n ch.chtype ∧ outLegal n ch.out.v0 ∧ outLegal n ch.out.v1 ∧
    outLegal n ch.out.v2 ∧ outLegal n ch.out.v3

/-- A bus sum is bounded by 18·16340 (44_channel_mixer.md R351). -/
abbrev busRange (x : Int) : Prop := -294120 ≤ x ∧ x ≤ 294120

/-- The two channels of a pair are paired together (41_register_writes.md R202). -/
abbrev pairsAgree (c : Chip) : Prop :=
  ∀ n m : ChanIdx, pair n = some m → ((c.chan n).chtype = .fourOp ↔ (c.chan m).chtype = .fourOp2)

/-- The legal values of the global fields (10_state.md R35). -/
abbrev globalsLegal (c : Chip) : Prop :=
  (c.tremoloshift = 2 ∨ c.tremoloshift = 4) ∧ c.vibshift ≤ 1 ∧ c.egAdd ≤ 13 ∧ c.tremolopos ≤ 209 ∧ c.tremolo ≤ 26 ∧
    c.noise ≠ 0 ∧ busRange c.mixbuff.v0 ∧ busRange c.mixbuff.v1 ∧ busRange c.mixbuff.v2 ∧ busRange c.mixbuff.v3 ∧
    1 ≤ c.rateratio ∧ c.rateratio ≤ 65535 ∧ c.samplecnt < c.rateratio + 1024

/-- Every field of the block holds a legal value (10_state.md R35 to R37). -/
abbrev Chip.Legal (c : Chip) : Prop :=
  globalsLegal c ∧ pairsAgree c ∧ (∀ n : ChanIdx, (c.chan n).Legal c.rhythmOn n) ∧
    (∀ i : SlotIdx, (c.slot i).Legal i)

/-- The invariant: an instance that was reset is in a legal state. One that was not holds no values to speak of
(10_state.md R34). -/
abbrev State.Inv (s : State) : Prop := s.chip.valid = true → s.chip.Legal

/-- The slot fields that register writes alone change keep their values. -/
def Slot.SameRegs (a b : Slot) : Prop :=
    b.egKsl = a.egKsl ∧
    b.key = a.key ∧
    b.tremEn = a.tremEn ∧
    b.regVib = a.regVib ∧
    b.regType = a.regType ∧
    b.regKsr = a.regKsr ∧
    b.regMult = a.regMult ∧
    b.regKsl = a.regKsl ∧
    b.regTl = a.regTl ∧
    b.regAr = a.regAr ∧
    b.regDr = a.regDr ∧
    b.regSl = a.regSl ∧
    b.regRr = a.regRr ∧
    b.regWf = a.regWf ∧
    b.mod = a.mod

/-- The slot fields that ticks alone change keep their values. -/
def Slot.SameTick (a b : Slot) : Prop :=
    b.pgPhase = a.pgPhase ∧
    b.pgPhaseOut = a.pgPhaseOut ∧
    b.pgReset = a.pgReset ∧
    b.egRout = a.egRout ∧
    b.egOut = a.egOut ∧
    b.egGen = a.egGen ∧
    b.out = a.out ∧
    b.prout = a.prout ∧
    b.fbmod = a.fbmod

/-- Everything that calls other than RENDER alone change keeps its value: the register fields of the block, of every
channel and of every slot, the routing, the keys and the sample rate (46_host_interface.md R423). -/
def Chip.SameRegs (a b : Chip) : Prop :=
    b.valid = a.valid ∧
    b.newm = a.newm ∧
    b.nts = a.nts ∧
    b.rhy = a.rhy ∧
    b.tremoloshift = a.tremoloshift ∧
    b.vibshift = a.vibshift ∧
    b.rateratio = a.rateratio ∧
    (∀ n : ChanIdx, b.chan n = a.chan n) ∧
    (∀ i : SlotIdx, (a.slot i).SameRegs (b.slot i))

/-- Everything that ticks and the resampler alone change keeps its value: counters, LFOs, noise, captured rhythm
bits, bus sums, samples, and every slot's phase, envelope and output (46_host_interface.md R423). -/
def Chip.SameTick (a b : Chip) : Prop :=
    b.timer = a.timer ∧
    b.egTimer = a.egTimer ∧
    b.egTimerrem = a.egTimerrem ∧
    b.egState = a.egState ∧
    b.egAdd = a.egAdd ∧
    b.egTimerLo = a.egTimerLo ∧
    b.tremolopos = a.tremolopos ∧
    b.tremolo = a.tremolo ∧
    b.vibpos = a.vibpos ∧
    b.noise = a.noise ∧
    b.rmHhBit2 = a.rmHhBit2 ∧
    b.rmHhBit3 = a.rmHhBit3 ∧
    b.rmHhBit7 = a.rmHhBit7 ∧
    b.rmHhBit8 = a.rmHhBit8 ∧
    b.rmTcBit3 = a.rmTcBit3 ∧
    b.rmTcBit5 = a.rmTcBit5 ∧
    b.mixbuff = a.mixbuff ∧
    b.samplecnt = a.samplecnt ∧
    b.oldsamples = a.oldsamples ∧
    b.samples = a.samples ∧
    (∀ i : SlotIdx, (a.slot i).SameTick (b.slot i))

/-- Every global field keeps its value; channels and slots may differ. -/
def Chip.SameGlobals (a b : Chip) : Prop := { a with chans := b.chans, slots := b.slots } = b

/-- A sample rate that `reset` accepts (46_host_interface.md R420, 00_scope.md R7). -/
abbrev validRate (r : Int) : Prop := 49 ≤ r ∧ r ≤ 3181823

/-- A command that writes a register: every one but RESET and RENDER. -/
def isRegisterWrite : Instr → Bool
  | .reset _ => false
  | .render => false
  | .wrNts _ | .wr4op _ | .wrNew _ | .wrRhy _ | .wrIgnored _ _ => true
  | .wrOp20a _ _ | .wrOp20b _ _ | .wrOp20c _ _ | .wrOp20d _ _ => true
  | .wrOp40a _ _ | .wrOp40b _ _ | .wrOp40c _ _ | .wrOp40d _ _ => true
  | .wrOp60a _ _ | .wrOp60b _ _ | .wrOp60c _ _ | .wrOp60d _ _ => true
  | .wrOp80a _ _ | .wrOp80b _ _ | .wrOp80c _ _ | .wrOp80d _ _ => true
  | .wrOpE0a _ _ | .wrOpE0b _ _ | .wrOpE0c _ _ | .wrOpE0d _ _ => true
  | .wrChA0a _ _ | .wrChA0b _ _ | .wrChB0a _ _ | .wrChB0b _ _ | .wrChC0a _ _ | .wrChC0b _ _ => true

end Sys2Proof.Machine
end

