-- ==== Sys2Proof/Certificates/Slice0/Obligations.lean ====
section
/-! DEFINITION. The statements for the provers. Each docstring names the rules of spec/ it formalises.
The words of a rule are said again here in the statements' own arithmetic (sums, quotients, powers of two), so that
a slip in the model's definitions makes a statement false. -/

open Sys2Proof Sys2Proof.Machine

namespace Sys2Proof.Spec

/-- `max((KSLROM[f_num >> 6] << 2) − ((8 − block) << 5), 0)` (43_envelope_generator.md R301), in natural numbers, with the
table of 47_rom_tables.md R443 written out. -/
def ksl (f : BitVec 10) (block : BitVec 3) : Nat :=
  4 * [0, 32, 40, 45, 48, 51, 53, 55, 56, 58, 59, 60, 61, 62, 63, 64].getD (f.toNat / 64) 0 - 32 * (8 - block.toNat)

/-- `block:f_num[9]`, or `block:f_num[8]` with NTS = 1 (41_register_writes.md R212). -/
def ksv (nts : Bool) (f : BitVec 10) (block : BitVec 3) : BitVec 4 :=
  BitVec.ofNat 4 (2 * block.toNat + f.toNat / (if nts then 256 else 512) % 2)

/-- The list `out[0..3]` with the unlisted entries ZERO. -/
def outs : List SlotIdx → Quad OutSrc
  | [] => ⟨.zero, .zero, .zero, .zero⟩
  | [a] => ⟨.out a, .zero, .zero, .zero⟩
  | [a, b] => ⟨.out a, .out b, .zero, .zero⟩
  | [a, b, c] => ⟨.out a, .out b, .out c, .zero⟩
  | a :: b :: c :: d :: _ => ⟨.out a, .out b, .out c, .out d⟩

/-- Channel `n` is routed by R345 for a connection bit. -/
def TwoRouted (c : Chip) (n : ChanIdx) (con : Bool) : Prop :=
  (c.slot (op1 n)).mod = .fb ∧
  (c.slot (op2 n)).mod = (if con then .zero else .out (op1 n)) ∧
  (c.chan n).out = (if con then outs [op1 n, op2 n] else outs [op2 n])

/-- The pair P, S is routed by R340 and R344 for its two connection bits. -/
def FourRouted (c : Chip) (p s : ChanIdx) (conP conS : Bool) : Prop :=
  (c.chan p).alg = 8 ∧ (c.chan s).alg.toNat = 4 + 2 * conP.toNat + conS.toNat ∧
  (c.slot (op1 p)).mod = .fb ∧
  (c.slot (op2 p)).mod = (if conP then .zero else .out (op1 p)) ∧
  (c.slot (op1 s)).mod = (if !conP && conS then .zero else .out (op2 p)) ∧
  (c.slot (op2 s)).mod = (if conP && conS then .zero else .out (op1 s)) ∧
  (c.chan p).out = outs [] ∧
  (c.chan s).out = (match conP, conS with
    | false, false => outs [op2 s]
    | false, true => outs [op2 p, op2 s]
    | true, false => outs [op1 p, op2 s]
    | true, true => outs [op1 p, op1 s, op2 s])

/-- From `a` to `b`, channel `n` differs in nothing but its type, algorithm and `out` list. -/
def ChanRoutingOnly (a b : Chip) (n : ChanIdx) : Prop :=
  { a.chan n with chtype := (b.chan n).chtype, alg := (b.chan n).alg, out := (b.chan n).out } = b.chan n

/-- From `a` to `b`, slot `i` differs in nothing but its modulation source. -/
def SlotRoutingOnly (a b : Chip) (i : SlotIdx) : Prop := { a.slot i with mod := (b.slot i).mod } = b.slot i

/-- Channels `n` and `m` are one enabled pair under NEW = 1 (44_channel_mixer.md R340). -/
def Partner (c : Chip) (n m : ChanIdx) : Prop :=
  c.newm = true ∧ ((c.chan n).chtype = .fourOp ∨ (c.chan n).chtype = .fourOp2) ∧ pair n = some m

/-- The six pairs of 0x104 with their bit (41_register_writes.md R202). -/
def pairs : List (Nat × ChanIdx × ChanIdx) := [(0, 0, 3), (1, 1, 4), (2, 2, 5), (3, 9, 12), (4, 10, 13), (5, 11, 14)]

/-- The drum slots with their key bit in 0xBD (41_register_writes.md R218). -/
def drumBit (i : SlotIdx) : Option Nat :=
  if i = 13 then some 0 else if i = 17 then some 1 else if i = 14 then some 2 else if i = 16 then some 3
  else if i = 12 ∨ i = 15 then some 4 else none

/-- R304's shift for a rate register, with the table of 47_rom_tables.md R445 written out. -/
def rateShift (c : Chip) (ks : Nat) (reg : BitVec 4) : Nat :=
  let rate := ks + 4 * reg.toNat
  let hi := min 15 (rate / 4)
  let lo := rate % 4
  let t := c.egTimerLo.toNat
  let step : Nat := if (lo = 1 ∧ t = 0) ∨ (lo = 2 ∧ t % 2 = 0) ∨ (lo = 3 ∧ t ≠ 3) then 1 else 0
  if reg = 0 then 0
  else if hi < 12 then
    if c.egState then
      if hi + c.egAdd = 12 then 1 else if hi + c.egAdd = 13 then lo / 2 else if hi + c.egAdd = 14 then lo % 2 else 0
    else 0
  else if hi + step = 12 then (if c.egState then 1 else 0)
  else min 3 (hi + step - 12)

/-- The number of RENDER calls in a list of calls. -/
def renders : List Call → Nat
  | [] => 0
  | .render :: cs => renders cs + 1
  | .reset _ :: cs => renders cs
  | .write _ _ :: cs => renders cs

/-- The addresses of 30_encoding.md R125, written from its list: bank 0, bank 1, and the invalid operator offsets. -/
def listedIgnored (a : Nat) : Bool :=
  let within (lo hi : Nat) : Bool := decide (lo ≤ a) && decide (a ≤ hi)
  let invalidOffset (base : Nat) : Bool :=
    within (base + 0x06) (base + 0x07) || within (base + 0x0E) (base + 0x0F) || within (base + 0x16) (base + 0x1F)
  within 0x00 0x07 || within 0x09 0x1F || within 0xA9 0xAF || within 0xB9 0xBC || within 0xBE 0xBF || within 0xC9 0xDF ||
  within 0x100 0x103 || within 0x106 0x11F || within 0x1A9 0x1AF || within 0x1B9 0x1BF || within 0x1C9 0x1DF ||
  [0x20, 0x40, 0x60, 0x80, 0xE0, 0x120, 0x140, 0x160, 0x180, 0x1E0].any invalidOffset

/-- Two machines agree on all that an instance never reset holds: the calls to come, the last result, and the block
itself unless neither was ever reset (10_state.md R34). -/
def Agree (a b : State) : Prop :=
  a.pending = b.pending ∧ a.result = b.result ∧
    (a.chip = b.chip ∨ (a.chip.valid = false ∧ b.chip.valid = false))

end Sys2Proof.Spec

open Sys2Proof.Spec

/-! ### Encoding -/

/-- R120 to R124, R129: every well-formed command comes back from its encoding. -/
def Obligations.DecodeOfEncodeIsTheCommand : Prop := ∀ i : Instr, i.wf = true → decode (encode i) = .ok i

/-- R121, R127: every 17-bit word decodes to a well-formed command, and the command's word is that word. -/
def Obligations.EveryWordDecodesAndEncodesBack : Prop :=
  ∀ w : CmdWord, (decodeWord w).wf = true ∧ encodeWord (decodeWord w) = some w

/-- R129 and its example, and one word for each family, from the programs, vectors and decode table of
95_test_vectors.md. -/
def Obligations.SpecWordsDecodeAsListed : Prop :=
  decodeWord 0x1B32A = .wrChB0a 12 0x2A ∧ decodeWord 0x00840 = .wrNts 0x40 ∧ decodeWord 0x02021 = .wrOp20a 0 0x21 ∧ decodeWord 0x0403F = .wrOp40a 0 0x3F ∧
  decodeWord 0x071F8 = .wrOp60c 13 0xF8 ∧ decodeWord 0x08B1F = .wrOp80a 9 0x1F ∧ decodeWord 0x0E007 = .wrOpE0a 0 0x07 ∧
  decodeWord 0x0A044 = .wrChA0a 0 0x44 ∧
  decodeWord 0x0C01E = .wrChC0a 0 0x1E ∧ decodeWord 0x0BD31 = .wrRhy 0x31 ∧ decodeWord 0x10401 = .wr4op 0x01 ∧
  decodeWord 0x10501 = .wrNew 0x01 ∧ decodeWord 0x1BD3F = .wrIgnored 0x1BD 0x3F ∧ decodeWord 0x036FF = .wrIgnored 0x036 0xFF

/-- R125: the ignored addresses are exactly the listed ones, and a write to one has no effect on the block and no
error, in any state. -/
def Obligations.IgnoredAddressesAreTheListedOnes : Prop :=
  (∀ (a : RegAddr) (d : Byte),
    decodeWord (a ++ d : BitVec (9 + 8)) = .wrIgnored a d ↔ listedIgnored a.toNat = true) ∧
  (∀ (a : RegAddr) (d : Byte) (s : State), exec (.wrIgnored a d) s = .next { s with result := .returned })

/-! ### The step and the host interface -/

/-- D2, R6, R424: a step takes the host's next call and runs its command; with no call it changes nothing. That the
calls to come stand in `pending` is the model's own choice (log entry 2). -/
def Obligations.StepRunsTheDecodedCommand : Prop :=
  (∀ (s : State) (call : Call) (rest : List Call) (i : Instr), s.pending = call :: rest → decode call = .ok i →
    step s = exec i { s with pending := rest }) ∧
  (∀ s : State, s.pending = [] → step s = .next s)

/-- R421, R101, R503: the procedure of `write_register`. Before the first reset, and outside 0 to 0x1FF, a write has
no effect and no error. Inside, it is the register write of the address and the value's low 8 bits. It never fails and
never runs a tick. That the call waits in `pending` is the model's own choice (log entry 2). -/
def Obligations.WriteCallWritesOrDoesNothing : Prop :=
  ∀ (s : State) (a v : Int) (rest : List Call),
    let before : State := { s with pending := .write a v :: rest }
    ((s.chip.valid = false ∨ a < 0 ∨ 0x1FF < a) →
      step before = .next { s with pending := rest, result := .returned }) ∧
    (0 ≤ a → a ≤ 0x1FF →
      step before = exec (decodeWord (BitVec.ofNat 17 (a.toNat * 256 + (v % 256).toNat))) { s with pending := rest }) ∧
    ∃ t, step before = .next t ∧ t.result = .returned ∧ t.pending = rest ∧ s.chip.SameTick t.chip

/-- R500, R501, R502: the two errors, the calls and conditions that raise them, and no other. The failing call changes
no field and returns its code in place of a result (the model's `result` field, log entry 4). -/
def Obligations.ErrorsAreExactlyTwoAndPrecise : Prop :=
  (∀ (i : Instr) (s t : State) (e : ErrorCode), exec i s = .next t → t.result = .error e →
    t = { s with result := .error e } ∧
      ((e = .notReset ∧ i = .render ∧ s.chip.valid = false) ∨ (e = .invalidRate ∧ ∃ r, i = .reset r ∧ ¬ validRate r))) ∧
  (∀ (s : State) (r : Int), (r < 49 ∨ 3181823 < r) → exec (.reset r) s = .next { s with result := .error .invalidRate }) ∧
  (∀ s : State, s.chip.valid = false → exec .render s = .next { s with result := .error .notReset }) ∧
  ErrorCode.notReset.code = 1 ∧ ErrorCode.invalidRate.code = 2

/-- R421, D8: before the first reset every register write has no effect and no error. -/
def Obligations.WriteBeforeResetHasNoEffect : Prop :=
  ∀ (s : State) (i : Instr), s.chip.valid = false → isRegisterWrite i = true →
    exec i s = .next { s with result := .returned }

/-- R34, U7: nothing reads the fields of an instance that was never reset. Two machines that agree apart from those
fields stop together or go on agreeing. -/
def Obligations.UnresetFieldsAreNeverRead : Prop :=
  ∀ a b : State, Agree a b →
    (∃ a' b', step a = .next a' ∧ step b = .next b' ∧ Agree a' b') ∨
    (∃ f, step a = .fault f ∧ step b = .fault f)

/-- R425: what an instance does from a successful RESET on depends on the calls alone, not on the state before. That
the calls stand in `pending` is the model's own choice (log entry 2). -/
def Obligations.RunFromResetForgetsThePast : Prop :=
  ∀ (a b : State) (r : Int) (k : Nat), validRate r → a.pending = .reset r :: b.pending →
    Sys2Proof.core.run (k + 1) a = Sys2Proof.core.run (k + 1) { b with pending := .reset r :: b.pending }

/-! ### Reset -/

/-- R420, R531 and the reset columns of R35 to R37: an accepted RESET gives every field its reset value. The second
operator of channel `n` (47_rom_tables.md R446) and the first operators are written out. -/
def Obligations.ResetGivesEveryFieldItsResetValue : Prop :=
  ∀ (s : State) (r : Int), validRate r → ∃ t, exec (.reset r) s = .next t ∧ t.result = .returned ∧
    t.pending = s.pending ∧ t.chip.valid = true ∧ t.chip.newm = false ∧ t.chip.nts = false ∧ t.chip.rhy = 0 ∧
    t.chip.tremoloshift = 4 ∧ t.chip.vibshift = 1 ∧ t.chip.timer = 0 ∧ t.chip.egTimer = 0 ∧
    t.chip.egTimerrem = false ∧ t.chip.egState = false ∧ t.chip.egAdd = 0 ∧ t.chip.egTimerLo = 0 ∧
    t.chip.tremolopos = 0 ∧ t.chip.tremolo = 0 ∧ t.chip.vibpos = 0 ∧ t.chip.noise = 1 ∧
    t.chip.rmHhBit2 = false ∧ t.chip.rmHhBit3 = false ∧ t.chip.rmHhBit7 = false ∧ t.chip.rmHhBit8 = false ∧
    t.chip.rmTcBit3 = false ∧ t.chip.rmTcBit5 = false ∧ t.chip.mixbuff = ⟨0, 0, 0, 0⟩ ∧
    (t.chip.rateratio : Int) = r * 1024 / 49716 ∧ t.chip.samplecnt = 0 ∧ t.chip.oldsamples = ⟨0, 0, 0, 0⟩ ∧
    t.chip.samples = ⟨0, 0, 0, 0⟩ ∧
    (∀ n : ChanIdx, t.chip.chan n =
      { fNum := 0, block := 0, ksv := 0, fb := 0, con := false, alg := 0, chtype := .twoOp, cha := true, chb := true,
        chc := false, chd := false, out := ⟨.out (Fin.ofNat 36 (6 * (n.val / 3) + n.val % 3 + 3)), .zero, .zero, .zero⟩ }) ∧
    (∀ i : SlotIdx, t.chip.slot i =
      { pgPhase := 0, pgPhaseOut := 0, pgReset := false, egRout := 0x1FF, egOut := 0x1FF, egGen := .release, egKsl := 0,
        key := 0, tremEn := false, regVib := false, regType := false, regKsr := false, regMult := 0, regKsl := 0,
        regTl := 0, regAr := 0, regDr := 0, regSl := 0, regRr := 0, regWf := 0, out := 0, prout := 0, fbmod := 0,
        mod := if i.val % 6 < 3 then .fb else .out (i - 3) })

/-- R35, R420, C8: an accepted rate gives a ratio from 1 to 65535, and a positive rate below 49 or a rate above 3181823
would give 0 or more than 65535. -/
def Obligations.RateratioFitsExactlyForAcceptedRates : Prop :=
  ∀ r : Nat, (validRate r ↔ (1 ≤ rateRatio r ∧ rateRatio r ≤ 65535)) ∧ rateRatio 44100 = 908 ∧ rateRatio 49716 = 1024

/-- The legal values of R35 to R37, R315 and R346 hold after RESET at every accepted rate, and in the model's own
reset state (log entry 1). -/
def Obligations.ResetStatesAreLegal : Prop :=
  State.reset.Inv ∧ ∀ (s t : State) (r : Int), validRate r → exec (.reset r) s = .next t → t.Inv

/-- The legal values of R35 to R37, R315 and R346 are an invariant: a step from a legal state is to a legal state. -/
def Obligations.StepKeepsLegalStates : Prop := ∀ s t : State, s.Inv → step s = .next t → t.Inv

/-- From a legal state a step never stops: every call completes or reports its error (R424, R426). -/
def Obligations.StepFromLegalStateNeverStops : Prop := ∀ s : State, s.Inv → ∃ t, step s = .next t

/-! ### Register writes: the global registers -/

/-- R201, R203, R219: WR_NTS stores D[6], WR_NEW stores D[0] and nothing else (no earlier field is decoded again), and
WR_IGNORED changes nothing. -/
def Obligations.GlobalControlWrites : Prop :=
  ∀ (s : State) (d : Byte) (a : RegAddr), s.chip.valid = true →
    exec (.wrNts d) s = .next { s with chip := { s.chip with nts := d.getLsbD 6 }, result := .returned } ∧
    exec (.wrNew d) s = .next { s with chip := { s.chip with newm := d.getLsbD 0 }, result := .returned } ∧
    exec (.wrIgnored a d) s = .next { s with result := .returned }

/-- R202 with R340, R344 and R345: WR_4OP pairs or unpairs the six pairs and re-routes them, and changes nothing
else. A pair enabled under NEW = 0 gets its types, and its first channel's two-operator routing, only. -/
def Obligations.FourOpWritePairsAndReroutes : Prop :=
  ∀ (s : State) (d : Byte), s.chip.valid = true → ∃ t, exec (.wr4op d) s = .next t ∧ t.result = .returned ∧
    t.pending = s.pending ∧ s.chip.SameGlobals t.chip ∧
    (∀ b p q, (b, p, q) ∈ pairs →
      ((t.chip.chan p).chtype = if d.getLsbD b then .fourOp else .twoOp) ∧
      ((t.chip.chan q).chtype = if d.getLsbD b then .fourOp2 else .twoOp) ∧
      (d.getLsbD b = true → s.chip.newm = true → FourRouted t.chip p q (s.chip.chan p).con (s.chip.chan q).con) ∧
      ((d.getLsbD b = false ∨ s.chip.newm = false) →
        (t.chip.chan p).alg.toNat = (s.chip.chan p).con.toNat ∧ TwoRouted t.chip p (s.chip.chan p).con) ∧
      (d.getLsbD b = false →
        (t.chip.chan q).alg.toNat = (s.chip.chan q).con.toNat ∧ TwoRouted t.chip q (s.chip.chan q).con) ∧
      (d.getLsbD b = true → s.chip.newm = false →
        (t.chip.chan q).alg = (s.chip.chan q).alg ∧ (t.chip.chan q).out = (s.chip.chan q).out ∧
        ∀ i, channelOf i = q → t.chip.slot i = s.chip.slot i)) ∧
    (∀ n : ChanIdx, ChanRoutingOnly s.chip t.chip n ∧ (pair n = none → t.chip.chan n = s.chip.chan n)) ∧
    (∀ i : SlotIdx, SlotRoutingOnly s.chip t.chip i ∧ (pair (channelOf i) = none → t.chip.slot i = s.chip.slot i))

/-! ### Register writes: the operator registers -/

/-- R204. -/
def Obligations.Op20WriteStoresAmVibEgtKsrMult : Prop :=
  ∀ (s : State) (i : SlotIdx) (d : Byte), s.chip.valid = true → ∃ t,
    exec (.wrOp20a i d) s = .next t ∧ exec (.wrOp20b i d) s = .next t ∧ exec (.wrOp20c i d) s = .next t ∧
    exec (.wrOp20d i d) s = .next t ∧ t.result = .returned ∧ t.pending = s.pending ∧ s.chip.SameGlobals t.chip ∧
    (∀ n, t.chip.chan n = s.chip.chan n) ∧
    (∀ j, t.chip.slot j = if j = i then
      { s.chip.slot i with
        tremEn := d.getLsbD 7, regVib := d.getLsbD 6, regType := d.getLsbD 5, regKsr := d.getLsbD 4
        regMult := BitVec.ofNat 4 (d.toNat % 16) } else s.chip.slot j)

/-- R205 and R301. -/
def Obligations.Op40WriteStoresKslTlAndKeyScaleLevel : Prop :=
  ∀ (s : State) (i : SlotIdx) (d : Byte), s.chip.valid = true → ∃ t,
    exec (.wrOp40a i d) s = .next t ∧ exec (.wrOp40b i d) s = .next t ∧ exec (.wrOp40c i d) s = .next t ∧
    exec (.wrOp40d i d) s = .next t ∧ t.result = .returned ∧ t.pending = s.pending ∧ s.chip.SameGlobals t.chip ∧
    (∀ n, t.chip.chan n = s.chip.chan n) ∧
    (∀ j, t.chip.slot j = if j = i then
      { s.chip.slot i with
        regKsl := BitVec.ofNat 2 (d.toNat / 64), regTl := BitVec.ofNat 6 (d.toNat % 64)
        egKsl := ksl (s.chip.chan (channelOf i)).fNum (s.chip.chan (channelOf i)).block } else s.chip.slot j)

/-- R206. -/
def Obligations.Op60WriteStoresAttackAndDecayRate : Prop :=
  ∀ (s : State) (i : SlotIdx) (d : Byte), s.chip.valid = true → ∃ t,
    exec (.wrOp60a i d) s = .next t ∧ exec (.wrOp60b i d) s = .next t ∧ exec (.wrOp60c i d) s = .next t ∧
    exec (.wrOp60d i d) s = .next t ∧ t.result = .returned ∧ t.pending = s.pending ∧ s.chip.SameGlobals t.chip ∧
    (∀ n, t.chip.chan n = s.chip.chan n) ∧
    (∀ j, t.chip.slot j = if j = i then
      { s.chip.slot i with regAr := BitVec.ofNat 4 (d.toNat / 16), regDr := BitVec.ofNat 4 (d.toNat % 16) }
      else s.chip.slot j)

/-- R207: SL = 15 is stored as 31. -/
def Obligations.Op80WriteStoresSustainLevelAndReleaseRate : Prop :=
  ∀ (s : State) (i : SlotIdx) (d : Byte), s.chip.valid = true → ∃ t,
    exec (.wrOp80a i d) s = .next t ∧ exec (.wrOp80b i d) s = .next t ∧ exec (.wrOp80c i d) s = .next t ∧
    exec (.wrOp80d i d) s = .next t ∧ t.result = .returned ∧ t.pending = s.pending ∧ s.chip.SameGlobals t.chip ∧
    (∀ n, t.chip.chan n = s.chip.chan n) ∧
    (∀ j, t.chip.slot j = if j = i then
      { s.chip.slot i with
        regSl := if d.toNat / 16 = 15 then 31 else BitVec.ofNat 5 (d.toNat / 16)
        regRr := BitVec.ofNat 4 (d.toNat % 16) } else s.chip.slot j)

/-- R208: WS bit 2 is kept only while NEW = 1. -/
def Obligations.OpE0WriteStoresWaveformUnderNew : Prop :=
  ∀ (s : State) (i : SlotIdx) (d : Byte), s.chip.valid = true → ∃ t,
    exec (.wrOpE0a i d) s = .next t ∧ exec (.wrOpE0b i d) s = .next t ∧ exec (.wrOpE0c i d) s = .next t ∧
    exec (.wrOpE0d i d) s = .next t ∧ t.result = .returned ∧ t.pending = s.pending ∧ s.chip.SameGlobals t.chip ∧
    (∀ n, t.chip.chan n = s.chip.chan n) ∧
    (∀ j, t.chip.slot j = if j = i then
      { s.chip.slot i with regWf := BitVec.ofNat 3 (if s.chip.newm then d.toNat % 8 else d.toNat % 4) }
      else s.chip.slot j)

/-! ### Register writes: the channel registers -/

/-- R209 with R212, R213 and R301: the F-number low byte, its key scaling, the copy to the pair, and nothing else. -/
def Obligations.ChA0WriteSetsFnumLowAndCopiesToPair : Prop :=
  ∀ (s : State) (n : ChanIdx) (d : Byte), s.chip.valid = true → ∃ t,
    exec (.wrChA0a n d) s = .next t ∧ exec (.wrChA0b n d) s = .next t ∧ t.result = .returned ∧
    t.pending = s.pending ∧ s.chip.SameGlobals t.chip ∧
    (s.chip.newm = true → (s.chip.chan n).chtype = .fourOp2 → t.chip = s.chip) ∧
    (¬ (s.chip.newm = true ∧ (s.chip.chan n).chtype = .fourOp2) →
      let ch := s.chip.chan n
      let f : BitVec 10 := BitVec.ofNat 10 (ch.fNum.toNat / 256 * 256 + d.toNat)
      let k := ksv s.chip.nts f ch.block
      let copied (m : ChanIdx) : Prop := s.chip.newm = true ∧ ch.chtype = .fourOp ∧ pair n = some m
      (∀ m, (m = n → t.chip.chan m = { ch with fNum := f, ksv := k }) ∧
        (copied m → t.chip.chan m = { s.chip.chan m with fNum := f, ksv := k }) ∧
        (m ≠ n → ¬ copied m → t.chip.chan m = s.chip.chan m)) ∧
      (∀ j, (channelOf j = n → t.chip.slot j = { s.chip.slot j with egKsl := ksl f ch.block }) ∧
        (copied (channelOf j) →
          t.chip.slot j = { s.chip.slot j with egKsl := ksl f (s.chip.chan (channelOf j)).block }) ∧
        (channelOf j ≠ n → ¬ copied (channelOf j) → t.chip.slot j = s.chip.slot j)))

/-- R210 with R212 to R216 and R301: F-number high bits, block and key of a channel, with the copy and the key fan-out
to the pair, and nothing else. For the second channel of a pair under NEW = 1 nothing happens at all. -/
def Obligations.ChB0WriteSetsFrequencyAndKey : Prop :=
  ∀ (s : State) (n : ChanIdx) (d : Byte), s.chip.valid = true → ∃ t,
    exec (.wrChB0a n d) s = .next t ∧ exec (.wrChB0b n d) s = .next t ∧ t.result = .returned ∧
    t.pending = s.pending ∧ s.chip.SameGlobals t.chip ∧
    (s.chip.newm = true → (s.chip.chan n).chtype = .fourOp2 → t.chip = s.chip) ∧
    (¬ (s.chip.newm = true ∧ (s.chip.chan n).chtype = .fourOp2) →
      let ch := s.chip.chan n
      let f : BitVec 10 := BitVec.ofNat 10 (d.toNat % 4 * 256 + ch.fNum.toNat % 256)
      let b : BitVec 3 := BitVec.ofNat 3 (d.toNat / 4)
      let k := ksv s.chip.nts f b
      let reached (m : ChanIdx) : Prop := m = n ∨ (s.chip.newm = true ∧ ch.chtype = .fourOp ∧ pair n = some m)
      (∀ m, (reached m → t.chip.chan m = { s.chip.chan m with fNum := f, block := b, ksv := k }) ∧
        (¬ reached m → t.chip.chan m = s.chip.chan m)) ∧
      (∀ j, (reached (channelOf j) → t.chip.slot j = { s.chip.slot j with
            egKsl := ksl f b
            key := if d.getLsbD 5 then (s.chip.slot j).key ||| 1 else (s.chip.slot j).key &&& 2 }) ∧
        (¬ reached (channelOf j) → t.chip.slot j = s.chip.slot j)))

/-- R211 with R340 to R345 and R353: feedback, connection, bus enables and the re-routing of the channel, or of the
whole pair where the channel is one of an enabled pair under NEW = 1, and nothing else. That the channels' types are legal (no drum in a pair) is part of the invariant. -/
def Obligations.ChC0WriteSetsFeedbackConnectionEnablesRouting : Prop :=
  ∀ (s : State) (n : ChanIdx) (d : Byte), s.chip.valid = true → s.chip.Legal → ∃ t,
    exec (.wrChC0a n d) s = .next t ∧ exec (.wrChC0b n d) s = .next t ∧ t.result = .returned ∧
    t.pending = s.pending ∧ s.chip.SameGlobals t.chip ∧
    t.chip.chan n = { s.chip.chan n with
      fb := BitVec.ofNat 3 (d.toNat / 2), con := d.getLsbD 0
      cha := if s.chip.newm then d.getLsbD 4 else true, chb := if s.chip.newm then d.getLsbD 5 else true
      chc := s.chip.newm && d.getLsbD 6, chd := s.chip.newm && d.getLsbD 7
      alg := (t.chip.chan n).alg, out := (t.chip.chan n).out } ∧
    (∀ m, s.chip.newm = true → (s.chip.chan n).chtype = .fourOp → pair n = some m →
      FourRouted t.chip n m (d.getLsbD 0) (s.chip.chan m).con) ∧
    (∀ m, s.chip.newm = true → (s.chip.chan n).chtype = .fourOp2 → pair n = some m →
      FourRouted t.chip m n (s.chip.chan m).con (d.getLsbD 0)) ∧
    ((s.chip.newm = false ∨ (s.chip.chan n).chtype = .twoOp) → (s.chip.chan n).chtype ≠ .drum →
      (t.chip.chan n).alg.toNat = (d.getLsbD 0).toNat ∧ TwoRouted t.chip n (d.getLsbD 0)) ∧
    ((s.chip.chan n).chtype = .drum →
      (t.chip.chan n).alg.toNat = (d.getLsbD 0).toNat ∧ (t.chip.chan n).out = (s.chip.chan n).out ∧
      (n = 6 → (t.chip.slot 12).mod = .fb ∧ (t.chip.slot 15).mod = if d.getLsbD 0 then .zero else .out 12) ∧
      ((n = 7 ∨ n = 8) → (t.chip.slot (op1 n)).mod = .zero ∧ (t.chip.slot (op2 n)).mod = .zero)) ∧
    (∀ m, m ≠ n → ChanRoutingOnly s.chip t.chip m ∧ (t.chip.chan m).chtype = (s.chip.chan m).chtype ∧
      (¬ Partner s.chip n m → t.chip.chan m = s.chip.chan m)) ∧
    (∀ j, SlotRoutingOnly s.chip t.chip j ∧
      (channelOf j ≠ n → ¬ Partner s.chip n (channelOf j) → t.chip.slot j = s.chip.slot j))

/-- R217, R218 with R216 and R342, rhythm on: depths, drum types, drum routing and drum keys, and nothing else. -/
def Obligations.RhyWriteOnSetsDrums : Prop :=
  ∀ (s : State) (d : Byte), s.chip.valid = true → d.getLsbD 5 = true → ∃ t, exec (.wrRhy d) s = .next t ∧
    t.result = .returned ∧ t.pending = s.pending ∧
    Chip.SameGlobals { s.chip with
      rhy := BitVec.ofNat 6 (d.toNat % 64)
      tremoloshift := if d.getLsbD 7 then 2 else 4
      vibshift := if d.getLsbD 6 then 0 else 1 } t.chip ∧
    t.chip.chan 6 = { s.chip.chan 6 with chtype := .drum, out := outs [15, 15] } ∧
    t.chip.chan 7 = { s.chip.chan 7 with chtype := .drum, out := outs [13, 13, 16, 16] } ∧
    t.chip.chan 8 = { s.chip.chan 8 with chtype := .drum, out := outs [14, 14, 17, 17] } ∧
    (∀ n : ChanIdx, n ≠ 6 → n ≠ 7 → n ≠ 8 → t.chip.chan n = s.chip.chan n) ∧
    (∀ i : SlotIdx, match drumBit i with
      | none => t.chip.slot i = s.chip.slot i
      | some b => t.chip.slot i = { s.chip.slot i with
          key := if d.getLsbD b then (s.chip.slot i).key ||| 2 else (s.chip.slot i).key &&& 1
          mod := if i = 12 then .fb
            else if i = 15 then (if (s.chip.chan 6).alg.getLsbD 0 then .zero else .out 12) else .zero })

/-- R217, R218 with R216 and R345, rhythm off: depths, two-operator types and routing from the algorithm bit, all drum
keys off, and nothing else. That channels 6 to 8 hold algorithm 0 or 1 is part of the invariant. -/
def Obligations.RhyWriteOffRestoresChannels : Prop :=
  ∀ (s : State) (d : Byte), s.chip.valid = true → s.chip.Legal → d.getLsbD 5 = false → ∃ t,
    exec (.wrRhy d) s = .next t ∧ t.result = .returned ∧ t.pending = s.pending ∧
    Chip.SameGlobals { s.chip with
      rhy := BitVec.ofNat 6 (d.toNat % 64)
      tremoloshift := if d.getLsbD 7 then 2 else 4
      vibshift := if d.getLsbD 6 then 0 else 1 } t.chip ∧
    (∀ n : ChanIdx, 6 ≤ n.val → n.val ≤ 8 → (t.chip.chan n).chtype = .twoOp ∧
      (t.chip.chan n).alg = (s.chip.chan n).alg ∧ TwoRouted t.chip n ((s.chip.chan n).alg.getLsbD 0)) ∧
    (∀ n : ChanIdx, ChanRoutingOnly s.chip t.chip n ∧
      (¬ (6 ≤ n.val ∧ n.val ≤ 8) → t.chip.chan n = s.chip.chan n)) ∧
    (∀ i : SlotIdx, t.chip.slot i = if (drumBit i).isSome then
      { s.chip.slot i with key := (s.chip.slot i).key &&& 1, mod := (t.chip.slot i).mod } else s.chip.slot i)

/-! ### Register writes: whole-machine rules -/

/-- R105, R106, R312, R550, R551: a register write always completes, and touches nothing that ticks and the
resampler change: no counter, sample, phase, envelope or output. -/
def Obligations.RegisterWritesNeverTouchTickState : Prop :=
  ∀ (s : State) (i : Instr), isRegisterWrite i = true → ∃ t, exec i s = .next t ∧ t.result = .returned ∧
    t.pending = s.pending ∧ s.chip.SameTick t.chip ∧ t.chip.valid = s.chip.valid ∧
    t.chip.rateratio = s.chip.rateratio

/-- R220 and D25: every command but RENDER, done twice in a row, leaves the state of doing it once. -/
def Obligations.RepeatedWriteOrResetIsIdempotent : Prop :=
  ∀ (i : Instr) (s t : State), i ≠ .render → exec i s = .next t → exec i t = .next t

/-- R544, R313: a key-off followed by the key-on it undoes, with no tick between, leaves the state as after the first
key-on, in every channel type and mode. -/
def Obligations.KeyOffOnWithoutTickChangesNothing : Prop :=
  ∀ (s t1 t2 t3 : State) (n : ChanIdx) (on off : Byte), on.getLsbD 5 = true → off = on ^^^ 0x20 →
    exec (.wrChB0a n on) s = .next t1 → exec (.wrChB0a n off) t1 = .next t2 → exec (.wrChB0a n on) t2 = .next t3 →
    t3 = t1

/-! ### The slot step -/

/-- R253, with R381 and R108: the slot step of one operator changes no channel, no other slot, no register field, and of
the global fields only the noise register and the captured rhythm bits. Slot 13 captures bits 2, 3, 7 and 8 of its phase
with rhythm on or off, slot 17 bits 3 and 5 in rhythm mode only, and no other slot captures any. -/
def Obligations.SlotStepTouchesOneSlotAndNoise : Prop :=
  ∀ (cfg : Config) (c : Chip) (i : SlotIdx),
    let c' := slotStep cfg i c
    let phase (k : Nat) : Bool := (c.slot i).pgPhase.getLsbD (9 + k)
    let hiHat (k : Nat) (old : Bool) : Bool := if i = 13 then phase k else old
    let cymbal (k : Nat) (old : Bool) : Bool := if i = 17 ∧ c.rhy.getLsbD 5 = true then phase k else old
    (∀ n, c'.chan n = c.chan n) ∧ (∀ j, j ≠ i → c'.slot j = c.slot j) ∧ (c.slot i).SameRegs (c'.slot i) ∧
    Chip.SameGlobals { c with
      noise := c'.noise
      rmHhBit2 := hiHat 2 c.rmHhBit2, rmHhBit3 := hiHat 3 c.rmHhBit3
      rmHhBit7 := hiHat 7 c.rmHhBit7, rmHhBit8 := hiHat 8 c.rmHhBit8
      rmTcBit3 := cymbal 3 c.rmTcBit3, rmTcBit5 := cymbal 5 c.rmTcBit5 } c'

/-- R347: the feedback of a slot is the sum of its last two outputs over `2^(9 − fb)`, rounded down, or 0. -/
def Obligations.SlotStepFeedsBackLastTwoOutputs : Prop :=
  ∀ (cfg : Config) (c : Chip) (i : SlotIdx),
    let s := c.slot i
    let fb := (c.chan (channelOf i)).fb
    ((slotStep cfg i c).slot i).prout = s.out ∧
    ((slotStep cfg i c).slot i).fbmod =
      s16 (if fb = 0 then 0 else (s.prout.toInt + s.out.toInt) / 2 ^ (9 - fb.toNat))

/-- R302: the total attenuation, from the level before the step's update, capped at 0x1FF. -/
def Obligations.SlotStepTotalAttenuation : Prop :=
  ∀ (cfg : Config) (c : Chip) (i : SlotIdx),
    let s := c.slot i
    ((slotStep cfg i c).slot i).egOut.toNat =
      min 511 (s.egRout.toNat + 4 * s.regTl.toNat + s.egKsl / 2 ^ (if s.regKsl = 0 then 8 else
        if s.regKsl = 1 then 1 else if s.regKsl = 2 then 2 else 0) + if s.tremEn then c.tremolo else 0)

/-- R303, R307, R308, R311, R312: the stage machine. -/
def Obligations.SlotStepStageTransitions : Prop :=
  ∀ (cfg : Config) (c : Chip) (i : SlotIdx),
    let s := c.slot i
    let s' := (slotStep cfg i c).slot i
    (s.key = 0 → s'.egGen = .release) ∧
    (s.key ≠ 0 → s.egGen = .release → s'.egGen = .attack) ∧
    (s.key ≠ 0 → s.egGen = .attack → s'.egGen = if s.egRout = 0 then .decay else .attack) ∧
    (s.key ≠ 0 → s.egGen = .decay → s'.egGen = if s.egRout.toNat / 16 = s.regSl.toNat then .sustain else .decay) ∧
    (s.key ≠ 0 → s.egGen = .sustain → s'.egGen = .sustain) ∧
    (s'.pgReset = true ↔ s.key ≠ 0 ∧ s.egGen = .release)

/-- R315: outside a retrigger, ATTACK never raises the attenuation and the other stages never lower it. -/
def Obligations.EnvelopeIsMonotoneWithinAStage : Prop :=
  ∀ (cfg : Config) (c : Chip) (i : SlotIdx),
    let s := c.slot i
    let s' := (slotStep cfg i c).slot i
    ¬ (s.key ≠ 0 ∧ s.egGen = .release) →
    (s.egGen = .attack → s'.egRout.toNat ≤ s.egRout.toNat) ∧ (s.egGen ≠ .attack → s.egRout.toNat ≤ s'.egRout.toNat)

/-- R305: a retrigger whose rate reaches 60 jumps to full level, and a slower one keeps the level; R306: a decaying
or releasing level of 0x1F8 or more becomes 0x1FF. -/
def Obligations.InstantAttackAndOffJump : Prop :=
  ∀ (cfg : Config) (c : Chip) (i : SlotIdx),
    let s := c.slot i
    let s' := (slotStep cfg i c).slot i
    let ks := (c.chan (channelOf i)).ksv.toNat / (if s.regKsr then 1 else 4)
    (s.key ≠ 0 → s.egGen = .release → s'.egRout = if 60 ≤ ks + 4 * s.regAr.toNat then 0 else s.egRout) ∧
    (¬ (s.key ≠ 0 ∧ s.egGen = .release) → s.egGen ≠ .attack → 0x1F8 ≤ s.egRout.toNat → s'.egRout = 0x1FF)

/-- R315: a released, silent slot whose key stays off keeps level 0x1FF and full attenuation, and puts out 0 or −1. -/
def Obligations.OffSlotsStaySilent : Prop :=
  ∀ (cfg : Config) (c : Chip) (i : SlotIdx),
    let s' := (slotStep cfg i c).slot i
    (c.slot i).key = 0 → (c.slot i).egGen = .release → (c.slot i).egRout = 0x1FF →
      s'.egGen = .release ∧ s'.egRout = 0x1FF ∧ s'.egOut = 0x1FF ∧ (s'.out.toInt = 0 ∨ s'.out.toInt = -1)

/-- R548: the stuck envelopes. A keyed ATTACK with AR = 0 or with rate 60 or more, a keyed SUSTAIN with EGT = 1, and an
unkeyed RELEASE with RR = 0, below the off condition, keep their level and stage. -/
def Obligations.StuckEnvelopesHold : Prop :=
  ∀ (cfg : Config) (c : Chip) (i : SlotIdx),
    let s := c.slot i
    let s' := (slotStep cfg i c).slot i
    let ks := (c.chan (channelOf i)).ksv.toNat / (if s.regKsr then 1 else 4)
    (s.key ≠ 0 → s.egGen = .attack → s.egRout ≠ 0 → (s.regAr = 0 ∨ 60 ≤ ks + 4 * s.regAr.toNat) →
      s'.egRout = s.egRout ∧ s'.egGen = .attack) ∧
    (s.key ≠ 0 → s.egGen = .sustain → s.regType = true → s.egRout.toNat < 0x1F8 →
      s'.egRout = s.egRout ∧ s'.egGen = .sustain) ∧
    (s.key = 0 → s.egGen = .release → s.regRr = 0 → s.egRout.toNat < 0x1F8 →
      s'.egRout = s.egRout ∧ s'.egGen = .release)

/-- R304 with R307 to R310: outside a retrigger and below the off condition, the level moves by the step of R304's
shift for the stage's own rate register, and holds at the sustain level and on an unkeyed ATTACK. -/
def Obligations.EnvelopeLevelMovesByItsRate : Prop :=
  ∀ (cfg : Config) (c : Chip) (i : SlotIdx),
    let s := c.slot i
    let level' := ((slotStep cfg i c).slot i).egRout.toNat
    let ks := (c.chan (channelOf i)).ksv.toNat / (if s.regKsr then 1 else 4)
    let fall (reg : BitVec 4) : Nat := if rateShift c ks reg = 0 then 0 else 2 ^ (rateShift c ks reg - 1)
    (s.key = 0 → s.egGen = .release → s.egRout.toNat < 0x1F8 → level' = s.egRout.toNat + fall s.regRr) ∧
    (s.egGen = .sustain → s.egRout.toNat < 0x1F8 →
      level' = s.egRout.toNat + if s.regType then 0 else fall s.regRr) ∧
    (s.egGen = .decay → s.egRout.toNat < 0x1F8 →
      level' = s.egRout.toNat + if s.egRout.toNat / 16 = s.regSl.toNat then 0 else fall s.regDr) ∧
    (s.egGen = .attack → s.key = 0 → level' = s.egRout.toNat) ∧
    (s.egGen = .attack → s.key ≠ 0 → s.egRout ≠ 0 → ks + 4 * s.regAr.toNat < 60 →
      (level' : Int) = s.egRout.toNat + if rateShift c ks s.regAr = 0 then 0 else
        (-(s.egRout.toNat : Int) - 1) / 2 ^ (4 - rateShift c ks s.regAr))

/-- R250, R252 with R303: the accumulator adds the increment, from 0 on a retrigger, and the phase out (where R254 does
not replace it) is the accumulator before the step over 512. The slot's channel (10_state.md R33) and the table of
47_rom_tables.md R442 are written out. -/
def Obligations.SlotStepAdvancesPhase : Prop :=
  ∀ (cfg : Config) (c : Chip) (i : SlotIdx),
    let s := c.slot i
    let s' := (slotStep cfg i c).slot i
    let ch := c.chan (Fin.ofNat 18 (3 * (i.val / 6) + i.val % 3))
    let mt : Nat := [1, 2, 4, 6, 8, 10, 12, 14, 16, 18, 20, 20, 24, 24, 30, 30].getD s.regMult.toNat 0
    let f := effFnum ch.fNum s.regVib c.vibpos c.vibshift
    let inc := f * 2 ^ ch.block.toNat / 2 * mt / 2
    s'.pgPhase = (if s.key ≠ 0 ∧ s.egGen = .release then 0 else s.pgPhase) + BitVec.ofNat 32 inc ∧
    ((c.rhythmOn = false ∨ (i ≠ 13 ∧ i ≠ 16 ∧ i ≠ 17)) → s'.pgPhaseOut.toNat = s.pgPhase.toNat / 512 % 65536)

/-- R251: the vibrato offsets over the eight positions are 0, +r/2, +r, +r/2, 0, −r/2, −r, −r/2 in halves of
F-number bits 9:7, and no offset without vibrato. -/
def Obligations.VibratoPattern : Prop :=
  ∀ (f : BitVec 10) (shift : Nat),
    let r := f.toNat / 128
    let off (p : BitVec 3) : Int := (effFnum f true p shift : Int) - f.toNat
    off 0 = 0 ∧ off 1 = (r / 2 / 2 ^ shift : Nat) ∧ off 2 = (r / 2 ^ shift : Nat) ∧ off 3 = off 1 ∧
    off 4 = 0 ∧ off 5 = -off 1 ∧ off 6 = -off 2 ∧ off 7 = -off 1 ∧
    (∀ p, effFnum f false p shift = f.toNat) ∧ (∀ p, effFnum f true p shift ≤ 1030)

/-- R253, R254: the rhythm phases of slots 13, 16 and 17 in rhythm mode, from the bits captured this tick or before. -/
def Obligations.RhythmPhasesReplaceSlotPhases : Prop :=
  ∀ (cfg : Config) (c : Chip), c.rhythmOn = true →
    let n0 := c.noise.getLsbD 0
    let ph (i : SlotIdx) (k : Nat) : Bool := (c.slot i).pgPhase.getLsbD (9 + k)
    let hh := (ph 13 2 ^^ ph 13 7) || (ph 13 3 ^^ c.rmTcBit5) || (c.rmTcBit3 ^^ c.rmTcBit5)
    let tc := (c.rmHhBit2 ^^ c.rmHhBit7) || (c.rmHhBit3 ^^ ph 17 5) || (ph 17 3 ^^ ph 17 5)
    ((slotStep cfg 13 c).slot 13).pgPhaseOut.toNat = hh.toNat * 512 + (if hh ^^ n0 then 0xD0 else 0x34) ∧
    ((slotStep cfg 16 c).slot 16).pgPhaseOut.toNat = c.rmHhBit8.toNat * 512 + (c.rmHhBit8 ^^ n0).toNat * 256 ∧
    ((slotStep cfg 17 c).slot 17).pgPhaseOut.toNat = tc.toNat * 512 + 0x80

/-- R256: the noise register is a 23-bit LFSR with taps 0 and 14, stepped once a slot, and never becomes 0. -/
def Obligations.NoiseIsANonzeroLfsr : Prop :=
  (∀ (cfg : Config) (c : Chip) (i : SlotIdx), (slotStep cfg i c).noise = noiseNext c.noise) ∧
  (∀ n : BitVec 23, (noiseNext n).toNat = n.toNat / 2 + 2 ^ 22 * (n.getLsbD 14 ^^ n.getLsbD 0).toNat) ∧
  (∀ n : BitVec 23, n ≠ 0 → noiseNext n ≠ 0)

/-- R270 with R381: the output is the selected waveform at the phase plus the modulation, at this step's attenuation;
the modulation is this step's own feedback, another slot's current output, or 0. -/
def Obligations.SlotStepOutputIsTheWaveform : Prop :=
  ∀ (cfg : Config) (c : Chip) (i : SlotIdx),
    let s' := (slotStep cfg i c).slot i
    let m : Int := match (c.slot i).mod with
      | .zero => 0
      | .fb => s'.fbmod.toInt
      | .out j => (c.slot j).out.toInt
    s'.out = s16 (wave cfg (c.slot i).regWf (BitVec.ofInt 10 ((s'.pgPhaseOut.toNat + m) % 1024)) s'.egOut)

/-! ### Waveforms -/

/-- R260, R271: with the model's tables (log entry 6) every output lies in −4085 to 4084, and a full-level sine reaches both ends
(R262). -/
def Obligations.WaveOutputsStayInRange : Prop :=
  (∀ (wf : BitVec 3) (p : BitVec 10) (env : BitVec 9),
    -4085 ≤ wave params wf p env ∧ wave params wf p env ≤ 4084) ∧
  wave params 0 0x100 0 = 4084 ∧ wave params 0 0x300 0 = -4085

/-- R260, R261, R262, R268: the exponent function, the sine and the square, for every table. The logarithmic sawtooth
follows R269's formula, which its own example contradicts: the model's reading (DEDUCED, log entry 17). -/
def Obligations.ExponentSineSquareAndSawtooth : Prop :=
  ∀ (cfg : Config) (p : BitVec 10) (env : BitVec 9) (level : Nat),
    let neg (v : Int) : Int := if 512 ≤ p.toNat then -v - 1 else v
    let entry (k : Nat) : Nat := (cfg.logsinRom.get (Fin.ofNat 256 k)).toNat
    let quarter : Nat := if p.toNat / 256 % 2 = 1 then 255 - p.toNat % 256 else p.toNat % 256
    expLin cfg level = 2 * (cfg.expRom.get (Fin.ofNat 256 (min level 8191 % 256))).toNat / 2 ^ (min level 8191 / 256) ∧
    wave cfg 0 p env = neg (expLin cfg (entry quarter + 8 * env.toNat)) ∧
    wave cfg 6 p env = neg (expLin cfg (8 * env.toNat)) ∧
    wave cfg 7 p env = neg (expLin cfg (8 * (if 512 ≤ p.toNat then 1023 - p.toNat else p.toNat) + 8 * env.toNat))

/-- R261 to R269: waveforms 1 to 3 are cuts of the sine, 4 is the sine at double phase (an odd entry on its falling
quarters), 5 the absolute value of 4, 6 a constant with the sine's sign, 7 is antisymmetric, and a silent half gives 0
whatever the tables. -/
def Obligations.WaveformsDeriveFromSine : Prop :=
  ∀ (cfg : Config) (p : BitVec 10) (env : BitVec 9),
    wave cfg 1 p env = (if 512 ≤ p.toNat then 0 else wave cfg 0 p env) ∧
    wave cfg 2 p env = (if 512 ≤ p.toNat then -wave cfg 0 p env - 1 else wave cfg 0 p env) ∧
    wave cfg 3 p env = (if p.toNat / 256 % 2 = 1 then 0 else wave cfg 2 p env) ∧
    wave cfg 4 p env = (if 512 ≤ p.toNat then 0 else wave cfg 0 (BitVec.ofNat 10 (2 * p.toNat + p.toNat / 128 % 2)) env) ∧
    wave cfg 5 p env = (if 256 ≤ p.toNat ∧ p.toNat < 512 then -wave cfg 4 p env - 1 else wave cfg 4 p env) ∧
    wave cfg 6 p env = (if 512 ≤ p.toNat then -wave cfg 6 0 env - 1 else wave cfg 6 0 env) ∧
    wave cfg 7 (p ^^^ 0x3FF) env = -wave cfg 7 p env - 1

/-! ### Mixer -/

/-- R350, R351, R353: in every state a channel's value is the cast sum of its four sources, ZERO counting 0 and OUT(j) the
output of slot j, and each bus is the exact sum of the channels whose own enable bit is set. In a legal state the cast
never wraps. -/
def Obligations.LegalChannelSumsNeverWrap : Prop :=
  ∀ c : Chip,
    let v (o : OutSrc) : Int := match o with
      | .zero => 0
      | .out j => (c.slot j).out.toInt
    let total (n : ChanIdx) : Int := v (c.chan n).out.v0 + v (c.chan n).out.v1 + v (c.chan n).out.v2 + v (c.chan n).out.v3
    (∀ n, accm c n = s16 (total n)) ∧
    mix .a c = (∑ n : ChanIdx, if (c.chan n).cha then (accm c n).toInt else 0) ∧
    mix .b c = (∑ n : ChanIdx, if (c.chan n).chb then (accm c n).toInt else 0) ∧
    mix .c c = (∑ n : ChanIdx, if (c.chan n).chc then (accm c n).toInt else 0) ∧
    mix .d c = (∑ n : ChanIdx, if (c.chan n).chd then (accm c n).toInt else 0) ∧
    (c.Legal →
      (∀ n, (accm c n).toInt = total n ∧ -16340 ≤ total n ∧ total n ≤ 16340) ∧
      (∀ k, -294120 ≤ mix k c ∧ mix k c ≤ 294120))

/-- R352, R380, R382: a tick's A and C leave the block from this tick's mix and its B and D from the tick before, each
clipped, in both variants. -/
def Obligations.TickReturnsOldBDAndNewAC : Prop :=
  ∀ (cfg : Config) (c : Chip),
    let r := tick cfg c
    let cl (x : Int) : Int := if x < -32768 then -32768 else if 32767 < x then 32767 else x
    r.2.v0.toInt = cl r.1.mixbuff.v0 ∧ r.2.v2.toInt = cl r.1.mixbuff.v2 ∧
    r.2.v1.toInt = cl c.mixbuff.v1 ∧ r.2.v3.toInt = cl c.mixbuff.v3

/-- R380, R381, R382, R383, R108: in both variants a tick steps the slots 0 to 35, each once and in that order, and but
for the bus sums, the LFOs and the counters it does nothing else. Without the channel sample delay every bus sees all 36
slots of the same tick; with it, buses B and D miss slots 33 to 35 alone, and A and C slots 15 to 35. -/
def Obligations.TickMixesAtTheStatedPoints : Prop :=
  ∀ (cfg : Config) (c : Chip),
    let r := tick cfg c
    { r.1 with
      mixbuff := c.mixbuff, timer := c.timer, egTimer := c.egTimer, egTimerrem := c.egTimerrem, egState := c.egState
      egAdd := c.egAdd, egTimerLo := c.egTimerLo, tremolopos := c.tremolopos, tremolo := c.tremolo, vibpos := c.vibpos } =
      (List.finRange 36).foldl (fun c i => slotStep cfg i c) c ∧
    ∀ k : Bus,
      let got : Int := match k with
        | .a => r.1.mixbuff.v0
        | .b => r.1.mixbuff.v1
        | .c => r.1.mixbuff.v2
        | .d => r.1.mixbuff.v3
      let last : Nat := if cfg.channelSampleDelay then (if k = .a ∨ k = .c then 15 else 33) else 36
      let seen : Chip := { c with slots := Vector.ofFn fun i => if i.val < last then r.1.slot i else c.slot i }
      got = mix k seen

/-! ### Clock and resampler -/

/-- R390, R391, R392: the LFOs and the tick counter over one tick, in both variants. -/
def Obligations.TickAdvancesLfosAndTimer : Prop :=
  ∀ (cfg : Config) (c : Chip),
    let c' := (tick cfg c).1
    c'.timer.toNat = (c.timer.toNat + 1) % 65536 ∧
    c'.tremolopos = (if c.timer.toNat % 64 = 63 then (c.tremolopos + 1) % 210 else c.tremolopos) ∧
    c'.tremolo = (if c'.tremolopos < 105 then c'.tremolopos else 210 - c'.tremolopos) / 2 ^ c.tremoloshift ∧
    c'.vibpos.toNat = (if c.timer.toNat % 1024 = 1023 then (c.vibpos.toNat + 1) % 8 else c.vibpos.toNat)

/-- R393: the envelope timer over one tick, in both variants. -/
def Obligations.TickAdvancesEnvelopeTimer : Prop :=
  ∀ (cfg : Config) (c : Chip),
    let c' := (tick cfg c).1
    let t := c.egTimer.toNat
    c'.egState = !c.egState ∧
    (c.egState = true → c'.egTimerLo.toNat = t % 4 ∧
      (∀ k, k ≤ 12 → 2 ^ k ∣ t → ¬ 2 ^ (k + 1) ∣ t → c'.egAdd = k + 1) ∧ (2 ^ 13 ∣ t → c'.egAdd = 0)) ∧
    (c.egState = false → c'.egTimerLo = c.egTimerLo ∧ c'.egAdd = c.egAdd) ∧
    ((c.egTimerrem = true ∨ c.egState = true) →
      c'.egTimer.toNat = (t + 1) % 2 ^ 36 ∧ (c'.egTimerrem = true ↔ t = 2 ^ 36 - 1)) ∧
    (c.egTimerrem = false → c.egState = false → c'.egTimer = c.egTimer ∧ c'.egTimerrem = false)

/-- R256, R380: a tick steps the noise register 36 times. -/
def Obligations.TickStepsNoiseThirtySixTimes : Prop :=
  ∀ (cfg : Config) (c : Chip), (tick cfg c).1.noise = noiseNext^[36] c.noise

/-- R400 (with R402, R422): on a reset instance RENDER completes. It runs `samplecnt / rateratio` turns of the tick and
sample shift, returns buses A and B interpolated between the last two samples, and moves `samplecnt` on by 1024. On an
instance that was never reset it returns its error. -/
def Obligations.RenderRunsTicksAndInterpolates : Prop :=
  (∀ s : State, s.chip.valid = false → exec .render s = .next { s with result := .error .notReset }) ∧
  ∀ s : State, s.chip.valid = true → 1 ≤ s.chip.rateratio →
    let ticks := s.chip.samplecnt / s.chip.rateratio
    let turn (c : Chip) : Chip := { (tick params c).1 with
      oldsamples := c.samples, samples := (tick params c).2, samplecnt := c.samplecnt - c.rateratio }
    let c := turn^[ticks] s.chip
    let y (old new : S16) : S16 := s16 (Int.tdiv (old.toInt * ((s.chip.rateratio : Int) - (s.chip.samplecnt % s.chip.rateratio : Nat))
      + new.toInt * (s.chip.samplecnt % s.chip.rateratio : Nat)) s.chip.rateratio)
    exec .render s = .next { s with
      chip := { c with samplecnt := s.chip.samplecnt % s.chip.rateratio + 1024 }
      result := .frame (y c.oldsamples.v0 c.samples.v0) (y c.oldsamples.v1 c.samples.v1) }

/-- R400: a frame's value lies between the two samples it is interpolated from, so no bound is ever passed. -/
def Obligations.FramesLieBetweenSamples : Prop :=
  ∀ (c : Chip) (old new : S16), c.samplecnt < c.rateratio →
    min old.toInt new.toInt ≤ (interpolate c old new).toInt ∧ (interpolate c old new).toInt ≤ max old.toInt new.toInt

/-- R423: RENDER changes no register field, key, routing or channel, and leaves the ratio and the flag as they are. -/
def Obligations.RenderNeverTouchesRegisters : Prop :=
  ∀ s t : State, exec .render s = .next t → s.chip.SameRegs t.chip ∧ t.pending = s.pending

/-- R402, R426: from a legal state of a reset instance RENDER completes, and the block it leaves is made by n turns of
the tick and sample shift, seen in the tick counter, with n at most ceil(1024 / rateratio) and so at most 1024. On every
frame but the first after a reset (1024 ≤ `samplecnt`), n is at least floor(1024 / rateratio). -/
def Obligations.RenderTickCountIsBounded : Prop :=
  ∀ s : State, s.chip.valid = true → s.chip.Legal →
    let rr := s.chip.rateratio
    let turn (c : Chip) : Chip := { (tick params c).1 with
      oldsamples := c.samples, samples := (tick params c).2, samplecnt := c.samplecnt - c.rateratio }
    ∃ t n, exec .render s = .next t ∧ t.chip = { turn^[n] s.chip with samplecnt := t.chip.samplecnt } ∧
      t.chip.timer = s.chip.timer + BitVec.ofNat 16 n ∧ n ≤ (1024 + rr - 1) / rr ∧ n ≤ 1024 ∧
      (1024 ≤ s.chip.samplecnt → 1024 / rr ≤ n)

/-- R401, R402: after RESET at an accepted rate and any calls with no other RESET, of which k + 1 are RENDERs, exactly
floor(k·1024 / rateratio) ticks have run, whatever was written. The tick counter shows their number modulo 2^16. That
the calls stand in `pending` is the model's own choice (log entry 2). -/
def Obligations.TicksRunAreTheClosedForm : Prop :=
  ∀ (s : State) (r : Int) (cs rest : List Call) (k : Nat), validRate r → (∀ x, Call.reset x ∉ cs) →
    renders cs = k + 1 → s.pending = .reset r :: cs ++ rest →
    ∃ t, Sys2Proof.core.run (cs.length + 1) s = .next t ∧ t.pending = rest ∧
      t.chip.timer = BitVec.ofNat 16 (k * 1024 / rateRatio r.toNat) ∧
      t.chip.samplecnt = k * 1024 % rateRatio r.toNat + 1024

/-- R534: with no write after RESET, every frame is (0, 0), at every accepted rate. That the calls stand in `pending` is
the model's own choice (log entry 2), and so are the parameters and tables it runs with (log entry 6). -/
def Obligations.SilenceAfterReset : Prop :=
  ∀ (s : State) (r : Int) (k : Nat) (rest : List Call), validRate r →
    s.pending = .reset r :: List.replicate (k + 1) .render ++ rest →
    ∃ t, Sys2Proof.core.run (k + 2) s = .next t ∧ t.result = .frame 0 0 ∧ t.pending = rest

/-- 90_conflicts.md C8 (log entry 7): on a reset instance RENDER stops exactly when the ratio is 0, where the spec's
loop never ends. -/
def Obligations.RenderStopsOnlyOnZeroRatio : Prop :=
  ∀ s : State, exec .render s = .fault .renderNeverEnds ↔ (s.chip.valid = true ∧ s.chip.rateratio = 0)
end

