-- ==== Sys2Proof/Laws/Decode.lean ====
section
/-! SUPPORT. The decoder reads the address and the data byte of a word apart: what a word decodes to is fixed by its
address, with the data byte put in. -/

namespace Sys2Proof

theorem getLsbD_cmdWord (a : RegAddr) (d : Byte) (i : Nat) :
    (cmdWord a d).getLsbD i = if i < 8 then d.getLsbD i else a.getLsbD (i - 8) :=
  BitVec.getLsbD_append (x := a) (y := d)

@[simp] theorem wordData_cmdWord (a : RegAddr) (d : Byte) : wordData (cmdWord a d) = d := by
  ext i h
  rw [← BitVec.getLsbD_eq_getElem, ← BitVec.getLsbD_eq_getElem]
  simp [wordData, getLsbD_cmdWord, h]

@[simp] theorem wordAddr_cmdWord (a : RegAddr) (d : Byte) : wordAddr (cmdWord a d) = a := by
  ext i h
  rw [← BitVec.getLsbD_eq_getElem, ← BitVec.getLsbD_eq_getElem]
  simp [wordAddr, getLsbD_cmdWord, h]

@[simp] theorem cmdWord_addr_data (w : CmdWord) : cmdWord (wordAddr w) (wordData w) = w := by
  ext i h
  rw [← BitVec.getLsbD_eq_getElem, ← BitVec.getLsbD_eq_getElem, getLsbD_cmdWord]
  split
  · simp [wordData, *]
  · have : 8 + (i - 8) = i := by omega
    have : i - 8 < 9 := by omega
    simp [wordAddr, *]

/-- A word written through the interface is the address and the byte again. -/
@[simp] theorem writeWord_toNat (w : CmdWord) : writeWord (wordAddr w).toNat (wordData w).toNat = w := by
  have h : writeWord (wordAddr w).toNat (wordData w).toNat = cmdWord (wordAddr w) (wordData w) := by
    simp [writeWord, cmdWord]
  rw [h, cmdWord_addr_data]

/-- Only the value's low 8 bits count. -/
theorem writeWord_emod (a v : Int) : writeWord a (v % 256) = writeWord a v := by
  have h : BitVec.ofInt 8 (v % 256) = BitVec.ofInt 8 v := by
    apply BitVec.eq_of_toInt_eq
    simp [BitVec.toInt_ofInt, Int.bmod_def]
  simp [writeWord, h]

/-- A mask and a pattern with no data bits look at the address alone. -/
theorem wordMatches_cmdWord (a m p : RegAddr) (d : Byte) :
    wordMatches (cmdWord a d) (cmdWord m 0) (cmdWord p 0) = (a &&& m == p) := by
  have h : cmdWord a d &&& cmdWord m 0 = cmdWord (a &&& m) 0 := by
    ext i h
    rw [← BitVec.getLsbD_eq_getElem, ← BitVec.getLsbD_eq_getElem, BitVec.getLsbD_and]
    simp only [getLsbD_cmdWord]
    split <;> simp
  unfold wordMatches
  rw [h]
  by_cases e : a &&& m = p
  · rw [e]; simp
  · have hne : cmdWord (a &&& m) 0 ≠ cmdWord p 0 := fun hh =>
      e (by rw [← wordAddr_cmdWord (a &&& m) 0, hh, wordAddr_cmdWord])
    rw [beq_eq_false_iff_ne.mpr hne, beq_eq_false_iff_ne.mpr e]

theorem wordMatches_data (a : RegAddr) (d : Byte) (m p : CmdWord) (hm : cmdWord (wordAddr m) 0 = m)
    (hp : cmdWord (wordAddr p) 0 = p) : wordMatches (cmdWord a d) m p = wordMatches (cmdWord a 0) m p := by
  rw [← hm, ← hp, wordMatches_cmdWord, wordMatches_cmdWord]

theorem extract_cmdWord (a : RegAddr) (d : Byte) (len : Nat) :
    (cmdWord a d).extractLsb' 8 len = (cmdWord a 0).extractLsb' 8 len := by
  ext i h
  rw [← BitVec.getLsbD_eq_getElem, ← BitVec.getLsbD_eq_getElem]
  simp only [BitVec.getLsbD_extractLsb', getLsbD_cmdWord]
  simp

theorem wordBank_cmdWord (a : RegAddr) (d : Byte) : wordBank (cmdWord a d) = wordBank (cmdWord a 0) := by
  simp only [wordBank, getLsbD_cmdWord]; rfl

theorem wordSlot_cmdWord (a : RegAddr) (d : Byte) : wordSlot (cmdWord a d) = wordSlot (cmdWord a 0) := by
  rw [wordSlot, wordSlot, wordBank_cmdWord a d, extract_cmdWord a d]

theorem wordChan_cmdWord (a : RegAddr) (d : Byte) : wordChan (cmdWord a d) = wordChan (cmdWord a 0) := by
  rw [wordChan, wordChan, wordBank_cmdWord a d, extract_cmdWord a d]

/-- A command with its data byte replaced. -/
def withData (d : Byte) : Instr → Instr
  | .reset r => .reset r
  | .render => .render
  | .wrNts _ => .wrNts d
  | .wr4op _ => .wr4op d
  | .wrNew _ => .wrNew d
  | .wrOp20a k _ => .wrOp20a k d
  | .wrOp20b k _ => .wrOp20b k d
  | .wrOp20c k _ => .wrOp20c k d
  | .wrOp20d k _ => .wrOp20d k d
  | .wrOp40a k _ => .wrOp40a k d
  | .wrOp40b k _ => .wrOp40b k d
  | .wrOp40c k _ => .wrOp40c k d
  | .wrOp40d k _ => .wrOp40d k d
  | .wrOp60a k _ => .wrOp60a k d
  | .wrOp60b k _ => .wrOp60b k d
  | .wrOp60c k _ => .wrOp60c k d
  | .wrOp60d k _ => .wrOp60d k d
  | .wrOp80a k _ => .wrOp80a k d
  | .wrOp80b k _ => .wrOp80b k d
  | .wrOp80c k _ => .wrOp80c k d
  | .wrOp80d k _ => .wrOp80d k d
  | .wrOpE0a k _ => .wrOpE0a k d
  | .wrOpE0b k _ => .wrOpE0b k d
  | .wrOpE0c k _ => .wrOpE0c k d
  | .wrOpE0d k _ => .wrOpE0d k d
  | .wrChA0a k _ => .wrChA0a k d
  | .wrChA0b k _ => .wrChA0b k d
  | .wrRhy _ => .wrRhy d
  | .wrChB0a k _ => .wrChB0a k d
  | .wrChB0b k _ => .wrChB0b k d
  | .wrChC0a k _ => .wrChC0a k d
  | .wrChC0b k _ => .wrChC0b k d
  | .wrIgnored a _ => .wrIgnored a d

/-- The address fixes the command, and the data byte is put in unchanged. -/
theorem decodeWord_cmdWord (a : RegAddr) (d : Byte) :
    decodeWord (cmdWord a d) = withData d (decodeWord (cmdWord a 0)) := by
  unfold decodeWord
  simp only [wordSlot_cmdWord a d, wordChan_cmdWord a d, wordData_cmdWord, wordAddr_cmdWord]
  repeat' rw [wordMatches_data a d _ _ (by decide) (by decide)]
  simp only [apply_ite (withData d)]
  rfl

end Sys2Proof
end

