-- ==== Sys2Proof/Laws/PerInstr.lean ====
section
/-! SUPPORT. Statements made of every command of the syntax, one lemma a constructor. -/

namespace Sys2Proof.Laws.EncodeStays

open Sys2Proof

/-- The host call of a command is a call that names no address outside 0 to 0x1FF and no value outside 0 to 255
(30_encoding.md R120, R129). -/
def Statement (i : Instr) : Prop :=
  match encode i with
  | .reset _ => True
  | .render => True
  | .write a v => (0 ≤ a ∧ a ≤ 0x1FF) ∧ (0 ≤ v ∧ v ≤ 255)

/-- A word's own call names an address and a value in range. -/
theorem wordCall_inRange (w : CmdWord) : ∃ a v, wordCall w = .write a v ∧ (0 ≤ a ∧ a ≤ 0x1FF) ∧ (0 ≤ v ∧ v ≤ 255) := by
  refine ⟨_, _, rfl, ?_, ?_⟩
  · have := (wordAddr w).isLt; omega
  · have := (wordData w).isLt; omega

theorem of_wordCall {i : Instr} {w : CmdWord} (h : encode i = wordCall w) : Statement i := by
  obtain ⟨a, v, e, hr⟩ := wordCall_inRange w
  unfold Statement
  rw [h, e]
  exact hr

theorem reset (sampleRate : Int) : Statement (.reset sampleRate) := trivial
theorem render : Statement .render := trivial
theorem wrNts (d : Byte) : Statement (.wrNts d) := of_wordCall rfl
theorem wr4op (d : Byte) : Statement (.wr4op d) := of_wordCall rfl
theorem wrNew (d : Byte) : Statement (.wrNew d) := of_wordCall rfl
theorem wrOp20a (i : SlotIdx) (d : Byte) : Statement (.wrOp20a i d) := of_wordCall rfl
theorem wrOp20b (i : SlotIdx) (d : Byte) : Statement (.wrOp20b i d) := of_wordCall rfl
theorem wrOp20c (i : SlotIdx) (d : Byte) : Statement (.wrOp20c i d) := of_wordCall rfl
theorem wrOp20d (i : SlotIdx) (d : Byte) : Statement (.wrOp20d i d) := of_wordCall rfl
theorem wrOp40a (i : SlotIdx) (d : Byte) : Statement (.wrOp40a i d) := of_wordCall rfl
theorem wrOp40b (i : SlotIdx) (d : Byte) : Statement (.wrOp40b i d) := of_wordCall rfl
theorem wrOp40c (i : SlotIdx) (d : Byte) : Statement (.wrOp40c i d) := of_wordCall rfl
theorem wrOp40d (i : SlotIdx) (d : Byte) : Statement (.wrOp40d i d) := of_wordCall rfl
theorem wrOp60a (i : SlotIdx) (d : Byte) : Statement (.wrOp60a i d) := of_wordCall rfl
theorem wrOp60b (i : SlotIdx) (d : Byte) : Statement (.wrOp60b i d) := of_wordCall rfl
theorem wrOp60c (i : SlotIdx) (d : Byte) : Statement (.wrOp60c i d) := of_wordCall rfl
theorem wrOp60d (i : SlotIdx) (d : Byte) : Statement (.wrOp60d i d) := of_wordCall rfl
theorem wrOp80a (i : SlotIdx) (d : Byte) : Statement (.wrOp80a i d) := of_wordCall rfl
theorem wrOp80b (i : SlotIdx) (d : Byte) : Statement (.wrOp80b i d) := of_wordCall rfl
theorem wrOp80c (i : SlotIdx) (d : Byte) : Statement (.wrOp80c i d) := of_wordCall rfl
theorem wrOp80d (i : SlotIdx) (d : Byte) : Statement (.wrOp80d i d) := of_wordCall rfl
theorem wrOpE0a (i : SlotIdx) (d : Byte) : Statement (.wrOpE0a i d) := of_wordCall rfl
theorem wrOpE0b (i : SlotIdx) (d : Byte) : Statement (.wrOpE0b i d) := of_wordCall rfl
theorem wrOpE0c (i : SlotIdx) (d : Byte) : Statement (.wrOpE0c i d) := of_wordCall rfl
theorem wrOpE0d (i : SlotIdx) (d : Byte) : Statement (.wrOpE0d i d) := of_wordCall rfl
theorem wrChA0a (c : ChanIdx) (d : Byte) : Statement (.wrChA0a c d) := of_wordCall rfl
theorem wrChA0b (c : ChanIdx) (d : Byte) : Statement (.wrChA0b c d) := of_wordCall rfl
theorem wrRhy (d : Byte) : Statement (.wrRhy d) := of_wordCall rfl
theorem wrChB0a (c : ChanIdx) (d : Byte) : Statement (.wrChB0a c d) := of_wordCall rfl
theorem wrChB0b (c : ChanIdx) (d : Byte) : Statement (.wrChB0b c d) := of_wordCall rfl
theorem wrChC0a (c : ChanIdx) (d : Byte) : Statement (.wrChC0a c d) := of_wordCall rfl
theorem wrChC0b (c : ChanIdx) (d : Byte) : Statement (.wrChC0b c d) := of_wordCall rfl
theorem wrIgnored (address : RegAddr) (d : Byte) : Statement (.wrIgnored address d) := of_wordCall rfl

end Sys2Proof.Laws.EncodeStays
end

