-- ==== Sys2Proof/Laws/State.lean ====
section
/-! SUPPORT. What an update of a record leaves and what it changes: one lemma per field per update. -/

namespace Sys2Proof.Machine

/-! ### Reading back a record -/

@[simp] theorem Chip.slot_setSlot_self (c : Chip) (i : SlotIdx) (x : Slot) : (c.setSlot i x).slot i = x := by
  simp [Chip.slot, Chip.setSlot, Vector.get_eq_getElem]

theorem Chip.slot_setSlot_ne (c : Chip) {i j : SlotIdx} (x : Slot) (h : j ≠ i) : (c.setSlot i x).slot j = c.slot j := by
  have h' : i.val ≠ j.val := fun e => h (Fin.ext e.symm)
  simp [Chip.slot, Chip.setSlot, Vector.get_eq_getElem, h']

theorem Chip.slot_setSlot (c : Chip) (i j : SlotIdx) (x : Slot) :
    (c.setSlot i x).slot j = if j = i then x else c.slot j := by
  by_cases h : j = i
  · subst h; simp
  · simp [h, Chip.slot_setSlot_ne c x h]

@[simp] theorem Chip.chan_setChan_self (c : Chip) (n : ChanIdx) (x : Channel) : (c.setChan n x).chan n = x := by
  simp [Chip.chan, Chip.setChan, Vector.get_eq_getElem]

theorem Chip.chan_setChan_ne (c : Chip) {n m : ChanIdx} (x : Channel) (h : m ≠ n) :
    (c.setChan n x).chan m = c.chan m := by
  have h' : n.val ≠ m.val := fun e => h (Fin.ext e.symm)
  simp [Chip.chan, Chip.setChan, Vector.get_eq_getElem, h']

theorem Chip.chan_setChan (c : Chip) (n m : ChanIdx) (x : Channel) :
    (c.setChan n x).chan m = if m = n then x else c.chan m := by
  by_cases h : m = n
  · subst h; simp
  · simp [h, Chip.chan_setChan_ne c x h]

@[simp] theorem Chip.chan_setSlot (c : Chip) (i : SlotIdx) (x : Slot) (n : ChanIdx) :
    (c.setSlot i x).chan n = c.chan n := rfl

@[simp] theorem Chip.slot_setChan (c : Chip) (n : ChanIdx) (x : Channel) (i : SlotIdx) :
    (c.setChan n x).slot i = c.slot i := rfl

theorem Chip.slot_modSlot (c : Chip) (i j : SlotIdx) (f : Slot → Slot) :
    (c.modSlot i f).slot j = if j = i then f (c.slot i) else c.slot j := Chip.slot_setSlot c i j _

@[simp] theorem Chip.slot_modSlot_self (c : Chip) (i : SlotIdx) (f : Slot → Slot) :
    (c.modSlot i f).slot i = f (c.slot i) := Chip.slot_setSlot_self c i _

theorem Chip.slot_modSlot_ne (c : Chip) {i j : SlotIdx} (f : Slot → Slot) (h : j ≠ i) :
    (c.modSlot i f).slot j = c.slot j := Chip.slot_setSlot_ne c _ h

theorem Chip.chan_modChan (c : Chip) (n m : ChanIdx) (f : Channel → Channel) :
    (c.modChan n f).chan m = if m = n then f (c.chan n) else c.chan m := Chip.chan_setChan c n m _

@[simp] theorem Chip.chan_modChan_self (c : Chip) (n : ChanIdx) (f : Channel → Channel) :
    (c.modChan n f).chan n = f (c.chan n) := Chip.chan_setChan_self c n _

theorem Chip.chan_modChan_ne (c : Chip) {n m : ChanIdx} (f : Channel → Channel) (h : m ≠ n) :
    (c.modChan n f).chan m = c.chan m := Chip.chan_setChan_ne c _ h

@[simp] theorem Chip.chan_modSlot (c : Chip) (i : SlotIdx) (f : Slot → Slot) (n : ChanIdx) :
    (c.modSlot i f).chan n = c.chan n := rfl

@[simp] theorem Chip.slot_modChan (c : Chip) (n : ChanIdx) (f : Channel → Channel) (i : SlotIdx) :
    (c.modChan n f).slot i = c.slot i := rfl

/-- Two blocks are equal when their global fields, channels and slots are. -/
theorem Chip.ext_records {a b : Chip} (hg : { a with chans := b.chans, slots := b.slots } = b)
    (hc : ∀ n : ChanIdx, a.chan n = b.chan n) (hs : ∀ i : SlotIdx, a.slot i = b.slot i) : a = b := by
  have h1 : a.chans = b.chans := Vector.ext fun i hi => by
    simpa [Chip.chan, Vector.get_eq_getElem] using hc ⟨i, hi⟩
  have h2 : a.slots = b.slots := Vector.ext fun i hi => by
    simpa [Chip.slot, Vector.get_eq_getElem] using hs ⟨i, hi⟩
  rw [← hg, ← h1, ← h2]

/-! ### The global fields under a record update -/

@[simp] theorem Chip.setSlot_valid (c : Chip) (i : SlotIdx) (x : Slot) : (c.setSlot i x).valid = c.valid := rfl
@[simp] theorem Chip.setSlot_newm (c : Chip) (i : SlotIdx) (x : Slot) : (c.setSlot i x).newm = c.newm := rfl
@[simp] theorem Chip.setSlot_nts (c : Chip) (i : SlotIdx) (x : Slot) : (c.setSlot i x).nts = c.nts := rfl
@[simp] theorem Chip.setSlot_rhy (c : Chip) (i : SlotIdx) (x : Slot) : (c.setSlot i x).rhy = c.rhy := rfl
@[simp] theorem Chip.setSlot_tremoloshift (c : Chip) (i : SlotIdx) (x : Slot) : (c.setSlot i x).tremoloshift = c.tremoloshift := rfl
@[simp] theorem Chip.setSlot_vibshift (c : Chip) (i : SlotIdx) (x : Slot) : (c.setSlot i x).vibshift = c.vibshift := rfl
@[simp] theorem Chip.setSlot_timer (c : Chip) (i : SlotIdx) (x : Slot) : (c.setSlot i x).timer = c.timer := rfl
@[simp] theorem Chip.setSlot_egTimer (c : Chip) (i : SlotIdx) (x : Slot) : (c.setSlot i x).egTimer = c.egTimer := rfl
@[simp] theorem Chip.setSlot_egTimerrem (c : Chip) (i : SlotIdx) (x : Slot) : (c.setSlot i x).egTimerrem = c.egTimerrem := rfl
@[simp] theorem Chip.setSlot_egState (c : Chip) (i : SlotIdx) (x : Slot) : (c.setSlot i x).egState = c.egState := rfl
@[simp] theorem Chip.setSlot_egAdd (c : Chip) (i : SlotIdx) (x : Slot) : (c.setSlot i x).egAdd = c.egAdd := rfl
@[simp] theorem Chip.setSlot_egTimerLo (c : Chip) (i : SlotIdx) (x : Slot) : (c.setSlot i x).egTimerLo = c.egTimerLo := rfl
@[simp] theorem Chip.setSlot_tremolopos (c : Chip) (i : SlotIdx) (x : Slot) : (c.setSlot i x).tremolopos = c.tremolopos := rfl
@[simp] theorem Chip.setSlot_tremolo (c : Chip) (i : SlotIdx) (x : Slot) : (c.setSlot i x).tremolo = c.tremolo := rfl
@[simp] theorem Chip.setSlot_vibpos (c : Chip) (i : SlotIdx) (x : Slot) : (c.setSlot i x).vibpos = c.vibpos := rfl
@[simp] theorem Chip.setSlot_noise (c : Chip) (i : SlotIdx) (x : Slot) : (c.setSlot i x).noise = c.noise := rfl
@[simp] theorem Chip.setSlot_rmHhBit2 (c : Chip) (i : SlotIdx) (x : Slot) : (c.setSlot i x).rmHhBit2 = c.rmHhBit2 := rfl
@[simp] theorem Chip.setSlot_rmHhBit3 (c : Chip) (i : SlotIdx) (x : Slot) : (c.setSlot i x).rmHhBit3 = c.rmHhBit3 := rfl
@[simp] theorem Chip.setSlot_rmHhBit7 (c : Chip) (i : SlotIdx) (x : Slot) : (c.setSlot i x).rmHhBit7 = c.rmHhBit7 := rfl
@[simp] theorem Chip.setSlot_rmHhBit8 (c : Chip) (i : SlotIdx) (x : Slot) : (c.setSlot i x).rmHhBit8 = c.rmHhBit8 := rfl
@[simp] theorem Chip.setSlot_rmTcBit3 (c : Chip) (i : SlotIdx) (x : Slot) : (c.setSlot i x).rmTcBit3 = c.rmTcBit3 := rfl
@[simp] theorem Chip.setSlot_rmTcBit5 (c : Chip) (i : SlotIdx) (x : Slot) : (c.setSlot i x).rmTcBit5 = c.rmTcBit5 := rfl
@[simp] theorem Chip.setSlot_mixbuff (c : Chip) (i : SlotIdx) (x : Slot) : (c.setSlot i x).mixbuff = c.mixbuff := rfl
@[simp] theorem Chip.setSlot_rateratio (c : Chip) (i : SlotIdx) (x : Slot) : (c.setSlot i x).rateratio = c.rateratio := rfl
@[simp] theorem Chip.setSlot_samplecnt (c : Chip) (i : SlotIdx) (x : Slot) : (c.setSlot i x).samplecnt = c.samplecnt := rfl
@[simp] theorem Chip.setSlot_oldsamples (c : Chip) (i : SlotIdx) (x : Slot) : (c.setSlot i x).oldsamples = c.oldsamples := rfl
@[simp] theorem Chip.setSlot_samples (c : Chip) (i : SlotIdx) (x : Slot) : (c.setSlot i x).samples = c.samples := rfl
@[simp] theorem Chip.setSlot_chans (c : Chip) (i : SlotIdx) (x : Slot) : (c.setSlot i x).chans = c.chans := rfl
@[simp] theorem Chip.setSlot_rhythmOn (c : Chip) (i : SlotIdx) (x : Slot) : (c.setSlot i x).rhythmOn = c.rhythmOn := rfl
@[simp] theorem Chip.setChan_valid (c : Chip) (n : ChanIdx) (x : Channel) : (c.setChan n x).valid = c.valid := rfl
@[simp] theorem Chip.setChan_newm (c : Chip) (n : ChanIdx) (x : Channel) : (c.setChan n x).newm = c.newm := rfl
@[simp] theorem Chip.setChan_nts (c : Chip) (n : ChanIdx) (x : Channel) : (c.setChan n x).nts = c.nts := rfl
@[simp] theorem Chip.setChan_rhy (c : Chip) (n : ChanIdx) (x : Channel) : (c.setChan n x).rhy = c.rhy := rfl
@[simp] theorem Chip.setChan_tremoloshift (c : Chip) (n : ChanIdx) (x : Channel) : (c.setChan n x).tremoloshift = c.tremoloshift := rfl
@[simp] theorem Chip.setChan_vibshift (c : Chip) (n : ChanIdx) (x : Channel) : (c.setChan n x).vibshift = c.vibshift := rfl
@[simp] theorem Chip.setChan_timer (c : Chip) (n : ChanIdx) (x : Channel) : (c.setChan n x).timer = c.timer := rfl
@[simp] theorem Chip.setChan_egTimer (c : Chip) (n : ChanIdx) (x : Channel) : (c.setChan n x).egTimer = c.egTimer := rfl
@[simp] theorem Chip.setChan_egTimerrem (c : Chip) (n : ChanIdx) (x : Channel) : (c.setChan n x).egTimerrem = c.egTimerrem := rfl
@[simp] theorem Chip.setChan_egState (c : Chip) (n : ChanIdx) (x : Channel) : (c.setChan n x).egState = c.egState := rfl
@[simp] theorem Chip.setChan_egAdd (c : Chip) (n : ChanIdx) (x : Channel) : (c.setChan n x).egAdd = c.egAdd := rfl
@[simp] theorem Chip.setChan_egTimerLo (c : Chip) (n : ChanIdx) (x : Channel) : (c.setChan n x).egTimerLo = c.egTimerLo := rfl
@[simp] theorem Chip.setChan_tremolopos (c : Chip) (n : ChanIdx) (x : Channel) : (c.setChan n x).tremolopos = c.tremolopos := rfl
@[simp] theorem Chip.setChan_tremolo (c : Chip) (n : ChanIdx) (x : Channel) : (c.setChan n x).tremolo = c.tremolo := rfl
@[simp] theorem Chip.setChan_vibpos (c : Chip) (n : ChanIdx) (x : Channel) : (c.setChan n x).vibpos = c.vibpos := rfl
@[simp] theorem Chip.setChan_noise (c : Chip) (n : ChanIdx) (x : Channel) : (c.setChan n x).noise = c.noise := rfl
@[simp] theorem Chip.setChan_rmHhBit2 (c : Chip) (n : ChanIdx) (x : Channel) : (c.setChan n x).rmHhBit2 = c.rmHhBit2 := rfl
@[simp] theorem Chip.setChan_rmHhBit3 (c : Chip) (n : ChanIdx) (x : Channel) : (c.setChan n x).rmHhBit3 = c.rmHhBit3 := rfl
@[simp] theorem Chip.setChan_rmHhBit7 (c : Chip) (n : ChanIdx) (x : Channel) : (c.setChan n x).rmHhBit7 = c.rmHhBit7 := rfl
@[simp] theorem Chip.setChan_rmHhBit8 (c : Chip) (n : ChanIdx) (x : Channel) : (c.setChan n x).rmHhBit8 = c.rmHhBit8 := rfl
@[simp] theorem Chip.setChan_rmTcBit3 (c : Chip) (n : ChanIdx) (x : Channel) : (c.setChan n x).rmTcBit3 = c.rmTcBit3 := rfl
@[simp] theorem Chip.setChan_rmTcBit5 (c : Chip) (n : ChanIdx) (x : Channel) : (c.setChan n x).rmTcBit5 = c.rmTcBit5 := rfl
@[simp] theorem Chip.setChan_mixbuff (c : Chip) (n : ChanIdx) (x : Channel) : (c.setChan n x).mixbuff = c.mixbuff := rfl
@[simp] theorem Chip.setChan_rateratio (c : Chip) (n : ChanIdx) (x : Channel) : (c.setChan n x).rateratio = c.rateratio := rfl
@[simp] theorem Chip.setChan_samplecnt (c : Chip) (n : ChanIdx) (x : Channel) : (c.setChan n x).samplecnt = c.samplecnt := rfl
@[simp] theorem Chip.setChan_oldsamples (c : Chip) (n : ChanIdx) (x : Channel) : (c.setChan n x).oldsamples = c.oldsamples := rfl
@[simp] theorem Chip.setChan_samples (c : Chip) (n : ChanIdx) (x : Channel) : (c.setChan n x).samples = c.samples := rfl
@[simp] theorem Chip.setChan_slots (c : Chip) (n : ChanIdx) (x : Channel) : (c.setChan n x).slots = c.slots := rfl
@[simp] theorem Chip.setChan_rhythmOn (c : Chip) (n : ChanIdx) (x : Channel) : (c.setChan n x).rhythmOn = c.rhythmOn := rfl
@[simp] theorem Chip.modSlot_valid (c : Chip) (i : SlotIdx) (f : Slot → Slot) : (c.modSlot i f).valid = c.valid := rfl
@[simp] theorem Chip.modSlot_newm (c : Chip) (i : SlotIdx) (f : Slot → Slot) : (c.modSlot i f).newm = c.newm := rfl
@[simp] theorem Chip.modSlot_nts (c : Chip) (i : SlotIdx) (f : Slot → Slot) : (c.modSlot i f).nts = c.nts := rfl
@[simp] theorem Chip.modSlot_rhy (c : Chip) (i : SlotIdx) (f : Slot → Slot) : (c.modSlot i f).rhy = c.rhy := rfl
@[simp] theorem Chip.modSlot_tremoloshift (c : Chip) (i : SlotIdx) (f : Slot → Slot) : (c.modSlot i f).tremoloshift = c.tremoloshift := rfl
@[simp] theorem Chip.modSlot_vibshift (c : Chip) (i : SlotIdx) (f : Slot → Slot) : (c.modSlot i f).vibshift = c.vibshift := rfl
@[simp] theorem Chip.modSlot_timer (c : Chip) (i : SlotIdx) (f : Slot → Slot) : (c.modSlot i f).timer = c.timer := rfl
@[simp] theorem Chip.modSlot_egTimer (c : Chip) (i : SlotIdx) (f : Slot → Slot) : (c.modSlot i f).egTimer = c.egTimer := rfl
@[simp] theorem Chip.modSlot_egTimerrem (c : Chip) (i : SlotIdx) (f : Slot → Slot) : (c.modSlot i f).egTimerrem = c.egTimerrem := rfl
@[simp] theorem Chip.modSlot_egState (c : Chip) (i : SlotIdx) (f : Slot → Slot) : (c.modSlot i f).egState = c.egState := rfl
@[simp] theorem Chip.modSlot_egAdd (c : Chip) (i : SlotIdx) (f : Slot → Slot) : (c.modSlot i f).egAdd = c.egAdd := rfl
@[simp] theorem Chip.modSlot_egTimerLo (c : Chip) (i : SlotIdx) (f : Slot → Slot) : (c.modSlot i f).egTimerLo = c.egTimerLo := rfl
@[simp] theorem Chip.modSlot_tremolopos (c : Chip) (i : SlotIdx) (f : Slot → Slot) : (c.modSlot i f).tremolopos = c.tremolopos := rfl
@[simp] theorem Chip.modSlot_tremolo (c : Chip) (i : SlotIdx) (f : Slot → Slot) : (c.modSlot i f).tremolo = c.tremolo := rfl
@[simp] theorem Chip.modSlot_vibpos (c : Chip) (i : SlotIdx) (f : Slot → Slot) : (c.modSlot i f).vibpos = c.vibpos := rfl
@[simp] theorem Chip.modSlot_noise (c : Chip) (i : SlotIdx) (f : Slot → Slot) : (c.modSlot i f).noise = c.noise := rfl
@[simp] theorem Chip.modSlot_rmHhBit2 (c : Chip) (i : SlotIdx) (f : Slot → Slot) : (c.modSlot i f).rmHhBit2 = c.rmHhBit2 := rfl
@[simp] theorem Chip.modSlot_rmHhBit3 (c : Chip) (i : SlotIdx) (f : Slot → Slot) : (c.modSlot i f).rmHhBit3 = c.rmHhBit3 := rfl
@[simp] theorem Chip.modSlot_rmHhBit7 (c : Chip) (i : SlotIdx) (f : Slot → Slot) : (c.modSlot i f).rmHhBit7 = c.rmHhBit7 := rfl
@[simp] theorem Chip.modSlot_rmHhBit8 (c : Chip) (i : SlotIdx) (f : Slot → Slot) : (c.modSlot i f).rmHhBit8 = c.rmHhBit8 := rfl
@[simp] theorem Chip.modSlot_rmTcBit3 (c : Chip) (i : SlotIdx) (f : Slot → Slot) : (c.modSlot i f).rmTcBit3 = c.rmTcBit3 := rfl
@[simp] theorem Chip.modSlot_rmTcBit5 (c : Chip) (i : SlotIdx) (f : Slot → Slot) : (c.modSlot i f).rmTcBit5 = c.rmTcBit5 := rfl
@[simp] theorem Chip.modSlot_mixbuff (c : Chip) (i : SlotIdx) (f : Slot → Slot) : (c.modSlot i f).mixbuff = c.mixbuff := rfl
@[simp] theorem Chip.modSlot_rateratio (c : Chip) (i : SlotIdx) (f : Slot → Slot) : (c.modSlot i f).rateratio = c.rateratio := rfl
@[simp] theorem Chip.modSlot_samplecnt (c : Chip) (i : SlotIdx) (f : Slot → Slot) : (c.modSlot i f).samplecnt = c.samplecnt := rfl
@[simp] theorem Chip.modSlot_oldsamples (c : Chip) (i : SlotIdx) (f : Slot → Slot) : (c.modSlot i f).oldsamples = c.oldsamples := rfl
@[simp] theorem Chip.modSlot_samples (c : Chip) (i : SlotIdx) (f : Slot → Slot) : (c.modSlot i f).samples = c.samples := rfl
@[simp] theorem Chip.modSlot_chans (c : Chip) (i : SlotIdx) (f : Slot → Slot) : (c.modSlot i f).chans = c.chans := rfl
@[simp] theorem Chip.modSlot_rhythmOn (c : Chip) (i : SlotIdx) (f : Slot → Slot) : (c.modSlot i f).rhythmOn = c.rhythmOn := rfl
@[simp] theorem Chip.modChan_valid (c : Chip) (n : ChanIdx) (f : Channel → Channel) : (c.modChan n f).valid = c.valid := rfl
@[simp] theorem Chip.modChan_newm (c : Chip) (n : ChanIdx) (f : Channel → Channel) : (c.modChan n f).newm = c.newm := rfl
@[simp] theorem Chip.modChan_nts (c : Chip) (n : ChanIdx) (f : Channel → Channel) : (c.modChan n f).nts = c.nts := rfl
@[simp] theorem Chip.modChan_rhy (c : Chip) (n : ChanIdx) (f : Channel → Channel) : (c.modChan n f).rhy = c.rhy := rfl
@[simp] theorem Chip.modChan_tremoloshift (c : Chip) (n : ChanIdx) (f : Channel → Channel) : (c.modChan n f).tremoloshift = c.tremoloshift := rfl
@[simp] theorem Chip.modChan_vibshift (c : Chip) (n : ChanIdx) (f : Channel → Channel) : (c.modChan n f).vibshift = c.vibshift := rfl
@[simp] theorem Chip.modChan_timer (c : Chip) (n : ChanIdx) (f : Channel → Channel) : (c.modChan n f).timer = c.timer := rfl
@[simp] theorem Chip.modChan_egTimer (c : Chip) (n : ChanIdx) (f : Channel → Channel) : (c.modChan n f).egTimer = c.egTimer := rfl
@[simp] theorem Chip.modChan_egTimerrem (c : Chip) (n : ChanIdx) (f : Channel → Channel) : (c.modChan n f).egTimerrem = c.egTimerrem := rfl
@[simp] theorem Chip.modChan_egState (c : Chip) (n : ChanIdx) (f : Channel → Channel) : (c.modChan n f).egState = c.egState := rfl
@[simp] theorem Chip.modChan_egAdd (c : Chip) (n : ChanIdx) (f : Channel → Channel) : (c.modChan n f).egAdd = c.egAdd := rfl
@[simp] theorem Chip.modChan_egTimerLo (c : Chip) (n : ChanIdx) (f : Channel → Channel) : (c.modChan n f).egTimerLo = c.egTimerLo := rfl
@[simp] theorem Chip.modChan_tremolopos (c : Chip) (n : ChanIdx) (f : Channel → Channel) : (c.modChan n f).tremolopos = c.tremolopos := rfl
@[simp] theorem Chip.modChan_tremolo (c : Chip) (n : ChanIdx) (f : Channel → Channel) : (c.modChan n f).tremolo = c.tremolo := rfl
@[simp] theorem Chip.modChan_vibpos (c : Chip) (n : ChanIdx) (f : Channel → Channel) : (c.modChan n f).vibpos = c.vibpos := rfl
@[simp] theorem Chip.modChan_noise (c : Chip) (n : ChanIdx) (f : Channel → Channel) : (c.modChan n f).noise = c.noise := rfl
@[simp] theorem Chip.modChan_rmHhBit2 (c : Chip) (n : ChanIdx) (f : Channel → Channel) : (c.modChan n f).rmHhBit2 = c.rmHhBit2 := rfl
@[simp] theorem Chip.modChan_rmHhBit3 (c : Chip) (n : ChanIdx) (f : Channel → Channel) : (c.modChan n f).rmHhBit3 = c.rmHhBit3 := rfl
@[simp] theorem Chip.modChan_rmHhBit7 (c : Chip) (n : ChanIdx) (f : Channel → Channel) : (c.modChan n f).rmHhBit7 = c.rmHhBit7 := rfl
@[simp] theorem Chip.modChan_rmHhBit8 (c : Chip) (n : ChanIdx) (f : Channel → Channel) : (c.modChan n f).rmHhBit8 = c.rmHhBit8 := rfl
@[simp] theorem Chip.modChan_rmTcBit3 (c : Chip) (n : ChanIdx) (f : Channel → Channel) : (c.modChan n f).rmTcBit3 = c.rmTcBit3 := rfl
@[simp] theorem Chip.modChan_rmTcBit5 (c : Chip) (n : ChanIdx) (f : Channel → Channel) : (c.modChan n f).rmTcBit5 = c.rmTcBit5 := rfl
@[simp] theorem Chip.modChan_mixbuff (c : Chip) (n : ChanIdx) (f : Channel → Channel) : (c.modChan n f).mixbuff = c.mixbuff := rfl
@[simp] theorem Chip.modChan_rateratio (c : Chip) (n : ChanIdx) (f : Channel → Channel) : (c.modChan n f).rateratio = c.rateratio := rfl
@[simp] theorem Chip.modChan_samplecnt (c : Chip) (n : ChanIdx) (f : Channel → Channel) : (c.modChan n f).samplecnt = c.samplecnt := rfl
@[simp] theorem Chip.modChan_oldsamples (c : Chip) (n : ChanIdx) (f : Channel → Channel) : (c.modChan n f).oldsamples = c.oldsamples := rfl
@[simp] theorem Chip.modChan_samples (c : Chip) (n : ChanIdx) (f : Channel → Channel) : (c.modChan n f).samples = c.samples := rfl
@[simp] theorem Chip.modChan_slots (c : Chip) (n : ChanIdx) (f : Channel → Channel) : (c.modChan n f).slots = c.slots := rfl
@[simp] theorem Chip.modChan_rhythmOn (c : Chip) (n : ChanIdx) (f : Channel → Channel) : (c.modChan n f).rhythmOn = c.rhythmOn := rfl

/-! ### The interface fields -/

@[simp] theorem State.raise_chip (s : State) (e : ErrorCode) : (s.raise e).chip = s.chip := rfl
@[simp] theorem State.raise_pending (s : State) (e : ErrorCode) : (s.raise e).pending = s.pending := rfl
@[simp] theorem State.raise_result (s : State) (e : ErrorCode) : (s.raise e).result = .error e := rfl
@[simp] theorem State.noEffect_chip (s : State) : (s.noEffect).chip = s.chip := rfl
@[simp] theorem State.noEffect_pending (s : State) : (s.noEffect).pending = s.pending := rfl
@[simp] theorem State.noEffect_result (s : State) : (s.noEffect).result = .returned := rfl
@[simp] theorem State.taken_chip (s : State) (rest : List Call) : (s.taken rest).chip = s.chip := rfl
@[simp] theorem State.taken_pending (s : State) (rest : List Call) : (s.taken rest).pending = rest := rfl
@[simp] theorem State.taken_result (s : State) (rest : List Call) : (s.taken rest).result = s.result := rfl
@[simp] theorem State.dropped_chip (s : State) : (s.dropped).chip = s.chip := rfl
@[simp] theorem State.dropped_pending (s : State) : (s.dropped).pending = s.pending := rfl
@[simp] theorem State.dropped_result (s : State) : (s.dropped).result = .returned := rfl
@[simp] theorem State.withNextWord_chip (s : State) (w : Nat) : (s.withNextWord w).chip = s.chip := rfl
@[simp] theorem State.withNextWord_pending (s : State) (w : Nat) : (s.withNextWord w).pending = tableCall w :: s.pending := rfl
@[simp] theorem State.withNextWord_result (s : State) (w : Nat) : (s.withNextWord w).result = s.result := rfl

@[simp] theorem State.regWrite_pending (f : Chip → Chip) (s : State) : (s.regWrite f).pending = s.pending := by
  unfold State.regWrite; split <;> rfl

@[simp] theorem State.regWrite_result (f : Chip → Chip) (s : State) : (s.regWrite f).result = .returned := by
  unfold State.regWrite; split <;> rfl

theorem State.regWrite_chip (f : Chip → Chip) (s : State) :
    (s.regWrite f).chip = if s.chip.valid then f s.chip else s.chip := by
  unfold State.regWrite; split <;> rfl

/-- A register write on a reset instance applies its family's effect. -/
theorem State.regWrite_of_valid {s : State} (f : Chip → Chip) (h : s.chip.valid = true) :
    s.regWrite f = { s.noEffect with chip := f s.chip } := by simp [State.regWrite, h]

/-- A register write on an instance that was never reset has no effect. -/
theorem State.regWrite_of_not_valid {s : State} (f : Chip → Chip) (h : s.chip.valid = false) :
    s.regWrite f = s.noEffect := by simp [State.regWrite, h]

end Sys2Proof.Machine
end

