-- ==== Sys2Proof/Laws/Run.lean ====
section
/-! SUPPORT. A run of the core, one step at a time, and what a step on a pending call is. -/

namespace Sys2Proof.Machine

/-- Of any core: a run goes on from where its first step leads. -/
theorem run_of_next (M : Host.Core) {s t : M.State} (h : M.step s = .next t) (k : Nat) : M.run (k + 1) s = M.run k t := by
  simp only [Host.Core.run, h]

/-- Of any core: a run stops with its first step. -/
theorem run_of_fault (M : Host.Core) {s : M.State} {f : M.Fault} (h : M.step s = .fault f) (k : Nat) :
    M.run (k + 1) s = .fault f := by
  simp only [Host.Core.run, h]

/-- A run goes on from where its first step leads. -/
theorem core_run_of_next {s t : State} (h : step s = .next t) (k : Nat) :
    Sys2Proof.core.run (k + 1) s = Sys2Proof.core.run k t := run_of_next Sys2Proof.core h k

/-- A run stops with its first step. -/
theorem core_run_of_fault {s : State} {f : Fault} (h : step s = .fault f) (k : Nat) :
    Sys2Proof.core.run (k + 1) s = .fault f := run_of_fault Sys2Proof.core h k

/-- The step on a call that decodes. -/
theorem step_of_decode {s : State} {call : Call} {rest : List Call} {i : Instr} (hp : s.pending = call :: rest)
    (hd : decode call = .ok i) : step s = exec i (s.taken rest) := by
  unfold step
  rw [hp]
  simp only [hd]

/-- An accepted RESET replaces the block, whatever it was. -/
theorem exec_reset_of_valid {r : Int} (h : validRate r) (s : State) :
    exec (.reset r) s = .next { s with chip := chipReset r.toNat, result := .returned } := by
  show Host.Outcome.next (resetCall r s) = _
  have h' : srMin ≤ r ∧ r ≤ srMax := h
  rw [resetCall, if_pos h']
  rfl

/-- RENDER on a reset instance with a positive ratio. -/
theorem exec_render_of_valid {s : State} (hv : s.chip.valid = true) (hr : 1 ≤ s.chip.rateratio) :
    exec .render s = .next { s with chip := renderChip params s.chip, result := renderFrame params s.chip } := by
  have h : s.chip.rateratio ≠ 0 := by omega
  simp [exec, execRender, renderCall, hv, h]

end Sys2Proof.Machine
end

