-- ==== Sys2Proof/Laws/SlotStep.lean ====
section
/-! SUPPORT. What the slot step can do: the value of each field it writes, from the state before the step, and what
it leaves. A run of slot steps and a tick inherit the frame. -/

namespace Sys2Proof.Machine

/-! ### The register side of a block -/

@[simp] theorem Slot.SameRegs.rfl' (s : Slot) : s.SameRegs s := by simp [Slot.SameRegs]

theorem Slot.SameRegs.trans {a b c : Slot} (h1 : a.SameRegs b) (h2 : b.SameRegs c) : a.SameRegs c := by
  simp only [Slot.SameRegs] at *
  simp only [h2, h1, and_self]

@[simp] theorem Chip.SameRegs.rfl' (c : Chip) : c.SameRegs c := by simp [Chip.SameRegs]

theorem Chip.SameRegs.trans {a b c : Chip} (h1 : a.SameRegs b) (h2 : b.SameRegs c) : a.SameRegs c := by
  unfold Chip.SameRegs at *
  simp only [h2, h1, true_and]
  exact ⟨fun _ => trivial, fun i => (h1.2.2.2.2.2.2.2.2 i).trans (h2.2.2.2.2.2.2.2.2 i)⟩

theorem Chip.sameRegs_modSlot (c : Chip) (i : SlotIdx) (f : Slot → Slot) (h : (c.slot i).SameRegs (f (c.slot i))) :
    c.SameRegs (c.modSlot i f) := by
  simp only [Chip.SameRegs, Chip.modSlot_valid, Chip.modSlot_newm, Chip.modSlot_nts, Chip.modSlot_rhy,
    Chip.modSlot_tremoloshift, Chip.modSlot_vibshift, Chip.modSlot_rateratio, Chip.chan_modSlot, true_and]
  refine ⟨fun _ => trivial, fun j => ?_⟩
  rw [Chip.slot_modSlot]
  split
  · subst_vars; exact h
  · simp

/-! ### The parts of the step -/

/-- The parts of the phase generator that write no slot. -/
theorem rhythmCapture_slot (i j : SlotIdx) (p : BitVec 16) (c : Chip) : (rhythmCapture i p c).slot j = c.slot j := by
  unfold rhythmCapture; split
  · rfl
  · split <;> rfl

theorem rhythmCapture_chan (i : SlotIdx) (p : BitVec 16) (c : Chip) (n : ChanIdx) :
    (rhythmCapture i p c).chan n = c.chan n := by
  unfold rhythmCapture; split
  · rfl
  · split <;> rfl

theorem rhythmCapture_noise (i : SlotIdx) (p : BitVec 16) (c : Chip) : (rhythmCapture i p c).noise = c.noise := by
  unfold rhythmCapture; split
  · rfl
  · split <;> rfl

theorem rhythmCapture_sameRegs (i : SlotIdx) (p : BitVec 16) (c : Chip) : c.SameRegs (rhythmCapture i p c) := by
  unfold rhythmCapture; split
  · simp [Chip.SameRegs, Chip.slot, Chip.chan]
  · split <;> simp [Chip.SameRegs, Chip.slot, Chip.chan]

/-- Everything the capture can do: six bits of the block, each with its condition. -/
theorem rhythmCapture_eq (i : SlotIdx) (p : BitVec 16) (c : Chip) : rhythmCapture i p c = { c with
    rmHhBit2 := if i = 13 then p.getLsbD 2 else c.rmHhBit2
    rmHhBit3 := if i = 13 then p.getLsbD 3 else c.rmHhBit3
    rmHhBit7 := if i = 13 then p.getLsbD 7 else c.rmHhBit7
    rmHhBit8 := if i = 13 then p.getLsbD 8 else c.rmHhBit8
    rmTcBit3 := if i = 17 ∧ c.rhythmOn = true then p.getLsbD 3 else c.rmTcBit3
    rmTcBit5 := if i = 17 ∧ c.rhythmOn = true then p.getLsbD 5 else c.rmTcBit5 } := by
  unfold rhythmCapture
  by_cases h13 : i = 13
  · subst h13; simp
  · by_cases h17 : i = 17 ∧ c.rhythmOn = true <;> simp [h13, h17]

/-- The override writes slots alone. -/
theorem rhythmOverride_sameGlobals (i : SlotIdx) (c : Chip) : c.SameGlobals (rhythmOverride i c) := by
  unfold rhythmOverride
  dsimp only
  repeat' split
  all_goals rfl

theorem rhythmOverride_slot_ne (i j : SlotIdx) (c : Chip) (h : j ≠ i) : (rhythmOverride i c).slot j = c.slot j := by
  unfold rhythmOverride
  dsimp only
  repeat' split
  all_goals first | rfl | exact Chip.slot_modSlot_ne _ _ h

/-- The rhythm override writes the slot's phase out and nothing else. -/
theorem rhythmOverride_slot_self (i : SlotIdx) (c : Chip) :
    (rhythmOverride i c).slot i = { c.slot i with pgPhaseOut := ((rhythmOverride i c).slot i).pgPhaseOut } := by
  unfold rhythmOverride
  dsimp only
  repeat' split
  all_goals simp

theorem rhythmOverride_chan (i : SlotIdx) (c : Chip) (n : ChanIdx) : (rhythmOverride i c).chan n = c.chan n := by
  unfold rhythmOverride
  dsimp only
  repeat' split
  all_goals rfl

theorem rhythmOverride_noise (i : SlotIdx) (c : Chip) : (rhythmOverride i c).noise = c.noise := by
  unfold rhythmOverride
  dsimp only
  repeat' split
  all_goals rfl

theorem rhythmOverride_sameRegs (i : SlotIdx) (c : Chip) : c.SameRegs (rhythmOverride i c) := by
  unfold rhythmOverride
  dsimp only
  repeat' split
  all_goals first
    | exact Chip.SameRegs.rfl' c
    | exact Chip.sameRegs_modSlot _ _ _ (by simp [Slot.SameRegs])

theorem phaseStep_chan (i : SlotIdx) (c : Chip) (n : ChanIdx) : (phaseStep i c).chan n = c.chan n := by
  show (rhythmOverride i (rhythmCapture i (tickPhase (c.slot i)) (phaseAccum i c))).chan n = _
  rw [rhythmOverride_chan, rhythmCapture_chan]
  rfl

theorem phaseStep_slot_ne (i j : SlotIdx) (c : Chip) (h : j ≠ i) : (phaseStep i c).slot j = c.slot j := by
  show (rhythmOverride i (rhythmCapture i (tickPhase (c.slot i)) (phaseAccum i c))).slot j = _
  rw [rhythmOverride_slot_ne i j _ h, rhythmCapture_slot]
  exact Chip.slot_modSlot_ne _ _ h

/-- The phase generator writes the accumulator and the phase out of its slot. -/
theorem phaseStep_slot_self (i : SlotIdx) (c : Chip) :
    (phaseStep i c).slot i = { c.slot i with
      pgPhase := ((phaseAccum i c).slot i).pgPhase, pgPhaseOut := ((phaseStep i c).slot i).pgPhaseOut } := by
  have h : (phaseStep i c).slot i =
      (rhythmOverride i (rhythmCapture i (tickPhase (c.slot i)) (phaseAccum i c))).slot i := rfl
  rw [h, rhythmOverride_slot_self, rhythmCapture_slot]
  simp [phaseAccum]

theorem phaseStep_noise (i : SlotIdx) (c : Chip) : (phaseStep i c).noise = noiseNext c.noise := by
  show noiseNext (rhythmOverride i (rhythmCapture i (tickPhase (c.slot i)) (phaseAccum i c))).noise = _
  rw [rhythmOverride_noise, rhythmCapture_noise]
  rfl

theorem phaseStep_sameRegs (i : SlotIdx) (c : Chip) : c.SameRegs (phaseStep i c) := by
  have h1 : c.SameRegs (phaseAccum i c) := Chip.sameRegs_modSlot _ _ _ (by simp [Slot.SameRegs])
  have h2 := h1.trans (rhythmCapture_sameRegs i (tickPhase (c.slot i)) _)
  exact h2.trans (rhythmOverride_sameRegs i _)

/-! ### The slot step -/

theorem slotStep_eq (cfg : Config) (i : SlotIdx) (c : Chip) :
    slotStep cfg i c = outputStep cfg i (phaseStep i (envCalc i (feedbackStep i c))) := rfl

/-- The slot step changes no channel. -/
@[simp] theorem slotStep_chan (cfg : Config) (i : SlotIdx) (c : Chip) (n : ChanIdx) :
    (slotStep cfg i c).chan n = c.chan n := phaseStep_chan i (envCalc i (feedbackStep i c)) n

/-- The slot step changes no other slot. -/
theorem slotStep_slot_ne (cfg : Config) (i j : SlotIdx) (c : Chip) (h : j ≠ i) :
    (slotStep cfg i c).slot j = c.slot j := by
  rw [slotStep_eq, outputStep, Chip.slot_modSlot_ne _ _ h, phaseStep_slot_ne i j _ h, envCalc,
    Chip.slot_modSlot_ne _ _ h, feedbackStep, Chip.slot_modSlot_ne _ _ h]

@[simp] theorem slotStep_noise (cfg : Config) (i : SlotIdx) (c : Chip) :
    (slotStep cfg i c).noise = noiseNext c.noise := phaseStep_noise i (envCalc i (feedbackStep i c))

/-- The slot step changes no register field, key or route. -/
theorem slotStep_sameRegs (cfg : Config) (i : SlotIdx) (c : Chip) : c.SameRegs (slotStep cfg i c) := by
  have h1 : c.SameRegs (feedbackStep i c) := Chip.sameRegs_modSlot c i
    (fun s => { s with fbmod := s16 (feedbackVal (c.chan (channelOf i)).fb s.prout s.out), prout := s.out })
    (by simp [Slot.SameRegs])
  have h2 : (feedbackStep i c).SameRegs (envCalc i (feedbackStep i c)) :=
    Chip.sameRegs_modSlot _ _ _ (by simp [Slot.SameRegs])
  have h3 := phaseStep_sameRegs i (envCalc i (feedbackStep i c))
  have h4 : (phaseStep i (envCalc i (feedbackStep i c))).SameRegs (slotStep cfg i c) :=
    Chip.sameRegs_modSlot _ _ _ (by simp [Slot.SameRegs])
  exact ((h1.trans h2).trans h3).trans h4

/-- Every field of the stepped slot, from the state before the step; `pgPhaseOut` and `out` have lemmas of their
own. -/
theorem slotStep_slot_self (cfg : Config) (i : SlotIdx) (c : Chip) :
    (slotStep cfg i c).slot i = { c.slot i with
      fbmod := s16 (feedbackVal (c.chan (channelOf i)).fb (c.slot i).prout (c.slot i).out)
      prout := (c.slot i).out
      egOut := egTotal (c.slot i) c.tremolo
      pgReset := (c.slot i).retrigger
      egRout := BitVec.ofInt 9 (egNext (c.slot i) (egRate (c.slot i) (c.chan (channelOf i)).ksv) +
        egInc (c.slot i) (egRate (c.slot i) (c.chan (channelOf i)).ksv)
          (egShift c (c.slot i) (c.chan (channelOf i)).ksv))
      egGen := egGenNext (c.slot i)
      pgPhase := (if (c.slot i).retrigger then 0 else (c.slot i).pgPhase) + BitVec.ofNat 32
        (phaseInc (effFnum (c.chan (channelOf i)).fNum (c.slot i).regVib c.vibpos c.vibshift)
          (c.chan (channelOf i)).block (c.slot i).regMult)
      pgPhaseOut := ((slotStep cfg i c).slot i).pgPhaseOut
      out := ((slotStep cfg i c).slot i).out } := by
  have e : (slotStep cfg i c).slot i = { (phaseStep i (envCalc i (feedbackStep i c))).slot i with
      out := ((slotStep cfg i c).slot i).out } := by
    rw [slotStep_eq, outputStep, Chip.slot_modSlot_self]
  have hp : ((phaseStep i (envCalc i (feedbackStep i c))).slot i).pgPhaseOut = ((slotStep cfg i c).slot i).pgPhaseOut := by
    rw [e]
  rw [e, phaseStep_slot_self, hp]
  simp only [phaseAccum, envCalc, feedbackStep, Chip.slot_modSlot_self, Chip.chan_modSlot, Chip.modSlot_vibpos,
    Chip.modSlot_vibshift, Chip.modSlot_tremolo]
  rfl

/-- The output of the step: the waveform at the modulated phase. The modulation is this step's own feedback, another
slot's output, or 0. -/
theorem slotStep_out (cfg : Config) (i : SlotIdx) (c : Chip) :
    ((slotStep cfg i c).slot i).out = s16 (wave cfg (c.slot i).regWf
      (wavePhase ((slotStep cfg i c).slot i).pgPhaseOut
        (match (c.slot i).mod with
          | .zero => 0
          | .fb => (s16 (feedbackVal (c.chan (channelOf i)).fb (c.slot i).prout (c.slot i).out)).toInt
          | .out j => (c.slot j).out.toInt))
      (egTotal (c.slot i) c.tremolo)) := by
  have hp := phaseStep_slot_self i (envCalc i (feedbackStep i c))
  have hs : ((slotStep cfg i c).slot i).pgPhaseOut = ((phaseStep i (envCalc i (feedbackStep i c))).slot i).pgPhaseOut := by
    rw [slotStep_eq, outputStep, Chip.slot_modSlot_self]
  rw [hs, slotStep_eq, outputStep, Chip.slot_modSlot_self]
  have hwf : ((phaseStep i (envCalc i (feedbackStep i c))).slot i).regWf = (c.slot i).regWf := by
    rw [hp]; simp [envCalc, feedbackStep]
  have heg : ((phaseStep i (envCalc i (feedbackStep i c))).slot i).egOut = egTotal (c.slot i) c.tremolo := by
    rw [hp]; simp only [envCalc, feedbackStep, Chip.slot_modSlot_self, Chip.modSlot_tremolo]; rfl
  have hm : modVal (phaseStep i (envCalc i (feedbackStep i c))) i = (match (c.slot i).mod with
      | .zero => 0
      | .fb => (s16 (feedbackVal (c.chan (channelOf i)).fb (c.slot i).prout (c.slot i).out)).toInt
      | .out j => (c.slot j).out.toInt) := by
    have hmod : ((phaseStep i (envCalc i (feedbackStep i c))).slot i).mod = (c.slot i).mod := by
      rw [hp]; simp [envCalc, feedbackStep]
    unfold modVal
    rw [hmod]
    cases (c.slot i).mod with
    | zero => rfl
    | fb => simp only; rw [hp]; simp [envCalc, feedbackStep]
    | out j =>
      simp only
      by_cases h : j = i
      · subst h; rw [hp]; simp [envCalc, feedbackStep]
      · rw [phaseStep_slot_ne i j _ h, envCalc, Chip.slot_modSlot_ne _ _ h, feedbackStep, Chip.slot_modSlot_ne _ _ h]
  simp only [hwf, heg, hm]

end Sys2Proof.Machine
end

