-- ==== Sys2Proof/Laws/Tick.lean ====
section
/-! SUPPORT. What a run of slot steps, a tick and the resampler's loop can do. -/

namespace Sys2Proof.Machine

/-! ### The global fields under a slot step -/

/-- A projection that the captured bits, the noise and the slots do not reach is left by the slot step. -/
theorem slotStep_keeps {α : Type} (f : Chip → α) (hslot : ∀ c x, f { c with slots := x } = f c)
    (hnoise : ∀ c x, f { c with noise := x } = f c)
    (hhh : ∀ c w x y z, f { c with rmHhBit2 := w, rmHhBit3 := x, rmHhBit7 := y, rmHhBit8 := z } = f c)
    (htc : ∀ c x y, f { c with rmTcBit3 := x, rmTcBit5 := y } = f c) (cfg : Config) (i : SlotIdx) (c : Chip) :
    f (slotStep cfg i c) = f c := by
  have hmod : ∀ (c : Chip) (i : SlotIdx) (g : Slot → Slot), f (c.modSlot i g) = f c := fun c i g => hslot c _
  have hcap : ∀ (i : SlotIdx) (p : BitVec 16) (c : Chip), f (rhythmCapture i p c) = f c := by
    intro i p c
    unfold rhythmCapture
    split
    · exact hhh _ _ _ _ _
    · split
      · exact htc _ _ _
      · rfl
  have hovr : ∀ (i : SlotIdx) (c : Chip), f (rhythmOverride i c) = f c := by
    intro i c
    unfold rhythmOverride
    dsimp only
    repeat' split
    all_goals first | rfl | exact hmod _ _ _
  have hph : ∀ (i : SlotIdx) (c : Chip), f (phaseStep i c) = f c := by
    intro i c
    show f { rhythmOverride i (rhythmCapture i (tickPhase (c.slot i)) (phaseAccum i c)) with
      noise := noiseNext (rhythmOverride i (rhythmCapture i (tickPhase (c.slot i)) (phaseAccum i c))).noise } = f c
    rw [hnoise, hovr, hcap, phaseAccum]
    exact hmod _ _ _
  rw [slotStep_eq, outputStep, hmod, hph, envCalc, hmod, feedbackStep, hmod]

@[simp] theorem slotStep_mixbuff (cfg : Config) (i : SlotIdx) (c : Chip) : (slotStep cfg i c).mixbuff = c.mixbuff :=
  slotStep_keeps (fun c => c.mixbuff) (fun _ _ => rfl) (fun _ _ => rfl) (fun _ _ _ _ _ => rfl) (fun _ _ _ => rfl) cfg i c

@[simp] theorem slotStep_samplecnt (cfg : Config) (i : SlotIdx) (c : Chip) : (slotStep cfg i c).samplecnt = c.samplecnt :=
  slotStep_keeps (fun c => c.samplecnt) (fun _ _ => rfl) (fun _ _ => rfl) (fun _ _ _ _ _ => rfl) (fun _ _ _ => rfl) cfg i c

@[simp] theorem slotStep_oldsamples (cfg : Config) (i : SlotIdx) (c : Chip) : (slotStep cfg i c).oldsamples = c.oldsamples :=
  slotStep_keeps (fun c => c.oldsamples) (fun _ _ => rfl) (fun _ _ => rfl) (fun _ _ _ _ _ => rfl) (fun _ _ _ => rfl) cfg i c

@[simp] theorem slotStep_samples (cfg : Config) (i : SlotIdx) (c : Chip) : (slotStep cfg i c).samples = c.samples :=
  slotStep_keeps (fun c => c.samples) (fun _ _ => rfl) (fun _ _ => rfl) (fun _ _ _ _ _ => rfl) (fun _ _ _ => rfl) cfg i c

@[simp] theorem slotStep_timer (cfg : Config) (i : SlotIdx) (c : Chip) : (slotStep cfg i c).timer = c.timer :=
  slotStep_keeps (fun c => c.timer) (fun _ _ => rfl) (fun _ _ => rfl) (fun _ _ _ _ _ => rfl) (fun _ _ _ => rfl) cfg i c

@[simp] theorem slotStep_egTimer (cfg : Config) (i : SlotIdx) (c : Chip) : (slotStep cfg i c).egTimer = c.egTimer :=
  slotStep_keeps (fun c => c.egTimer) (fun _ _ => rfl) (fun _ _ => rfl) (fun _ _ _ _ _ => rfl) (fun _ _ _ => rfl) cfg i c

@[simp] theorem slotStep_egTimerrem (cfg : Config) (i : SlotIdx) (c : Chip) : (slotStep cfg i c).egTimerrem = c.egTimerrem :=
  slotStep_keeps (fun c => c.egTimerrem) (fun _ _ => rfl) (fun _ _ => rfl) (fun _ _ _ _ _ => rfl) (fun _ _ _ => rfl) cfg i c

@[simp] theorem slotStep_egState (cfg : Config) (i : SlotIdx) (c : Chip) : (slotStep cfg i c).egState = c.egState :=
  slotStep_keeps (fun c => c.egState) (fun _ _ => rfl) (fun _ _ => rfl) (fun _ _ _ _ _ => rfl) (fun _ _ _ => rfl) cfg i c

@[simp] theorem slotStep_egAdd (cfg : Config) (i : SlotIdx) (c : Chip) : (slotStep cfg i c).egAdd = c.egAdd :=
  slotStep_keeps (fun c => c.egAdd) (fun _ _ => rfl) (fun _ _ => rfl) (fun _ _ _ _ _ => rfl) (fun _ _ _ => rfl) cfg i c

@[simp] theorem slotStep_egTimerLo (cfg : Config) (i : SlotIdx) (c : Chip) : (slotStep cfg i c).egTimerLo = c.egTimerLo :=
  slotStep_keeps (fun c => c.egTimerLo) (fun _ _ => rfl) (fun _ _ => rfl) (fun _ _ _ _ _ => rfl) (fun _ _ _ => rfl) cfg i c

@[simp] theorem slotStep_tremolopos (cfg : Config) (i : SlotIdx) (c : Chip) : (slotStep cfg i c).tremolopos = c.tremolopos :=
  slotStep_keeps (fun c => c.tremolopos) (fun _ _ => rfl) (fun _ _ => rfl) (fun _ _ _ _ _ => rfl) (fun _ _ _ => rfl) cfg i c

@[simp] theorem slotStep_tremolo (cfg : Config) (i : SlotIdx) (c : Chip) : (slotStep cfg i c).tremolo = c.tremolo :=
  slotStep_keeps (fun c => c.tremolo) (fun _ _ => rfl) (fun _ _ => rfl) (fun _ _ _ _ _ => rfl) (fun _ _ _ => rfl) cfg i c

@[simp] theorem slotStep_vibpos (cfg : Config) (i : SlotIdx) (c : Chip) : (slotStep cfg i c).vibpos = c.vibpos :=
  slotStep_keeps (fun c => c.vibpos) (fun _ _ => rfl) (fun _ _ => rfl) (fun _ _ _ _ _ => rfl) (fun _ _ _ => rfl) cfg i c

@[simp] theorem slotStep_rhy (cfg : Config) (i : SlotIdx) (c : Chip) : (slotStep cfg i c).rhy = c.rhy :=
  slotStep_keeps (fun c => c.rhy) (fun _ _ => rfl) (fun _ _ => rfl) (fun _ _ _ _ _ => rfl) (fun _ _ _ => rfl) cfg i c

/-! ### A run of slot steps -/

@[simp] theorem runSlots_zero (cfg : Config) (lo : Nat) (c : Chip) : runSlots cfg lo 0 c = c := rfl

theorem runSlots_succ (cfg : Config) (lo n : Nat) (c : Chip) :
    runSlots cfg lo (n + 1) c = runSlots cfg (lo + 1) n (slotStep cfg (Fin.ofNat 36 lo) c) := by
  simp [runSlots, List.range'_succ]

theorem runSlots_add (cfg : Config) (lo n m : Nat) (c : Chip) :
    runSlots cfg lo (n + m) c = runSlots cfg (lo + n) m (runSlots cfg lo n c) := by
  induction n generalizing lo c with
  | zero => simp
  | succ n ih =>
    rw [Nat.add_right_comm, runSlots_succ, ih, runSlots_succ]
    congr 1
    omega

/-- What every slot step keeps, a run of them keeps. -/
theorem runSlots_keeps {α : Type} (f : Chip → α) (cfg : Config) (h : ∀ i c, f (slotStep cfg i c) = f c) (lo n : Nat)
    (c : Chip) : f (runSlots cfg lo n c) = f c := by
  induction n generalizing lo c with
  | zero => rfl
  | succ n ih => rw [runSlots_succ, ih, h]

/-- A relation that every slot step keeps with its start, a run of them keeps. -/
theorem runSlots_invariant (P : Chip → Prop) (cfg : Config) (h : ∀ i c, P c → P (slotStep cfg i c)) (lo n : Nat)
    (c : Chip) (h0 : P c) : P (runSlots cfg lo n c) := by
  induction n generalizing lo c with
  | zero => exact h0
  | succ n ih => rw [runSlots_succ]; exact ih _ _ (h _ _ h0)

/-- A slot outside the run is left. -/
theorem runSlots_slot_outside (cfg : Config) (lo n : Nat) (c : Chip) (j : SlotIdx) (hn : lo + n ≤ 36)
    (h : j.val < lo ∨ lo + n ≤ j.val) : (runSlots cfg lo n c).slot j = c.slot j := by
  induction n generalizing lo c with
  | zero => rfl
  | succ n ih =>
    rw [runSlots_succ, ih (lo + 1) _ (by omega) (by omega)]
    refine slotStep_slot_ne cfg _ j c fun e => ?_
    have : j.val = lo := by rw [e, Fin.val_ofNat]; omega
    omega

@[simp] theorem runSlots_chan (cfg : Config) (lo n : Nat) (c : Chip) (m : ChanIdx) :
    (runSlots cfg lo n c).chan m = c.chan m :=
  runSlots_keeps (fun c => c.chan m) cfg (fun i c => slotStep_chan cfg i c m) lo n c

theorem runSlots_sameRegs (cfg : Config) (lo n : Nat) (c : Chip) : c.SameRegs (runSlots cfg lo n c) :=
  runSlots_invariant (fun x => c.SameRegs x) cfg (fun i x h => h.trans (slotStep_sameRegs cfg i x)) lo n c (by simp)

theorem runSlots_noise (cfg : Config) (lo n : Nat) (c : Chip) :
    (runSlots cfg lo n c).noise = noiseNext^[n] c.noise := by
  induction n generalizing lo c with
  | zero => rfl
  | succ n ih => rw [runSlots_succ, ih, slotStep_noise]; rfl

@[simp] theorem runSlots_mixbuff (cfg : Config) (lo n : Nat) (c : Chip) : (runSlots cfg lo n c).mixbuff = c.mixbuff :=
  runSlots_keeps (fun c => c.mixbuff) cfg (fun i c => slotStep_mixbuff cfg i c) lo n c

@[simp] theorem runSlots_samplecnt (cfg : Config) (lo n : Nat) (c : Chip) : (runSlots cfg lo n c).samplecnt = c.samplecnt :=
  runSlots_keeps (fun c => c.samplecnt) cfg (fun i c => slotStep_samplecnt cfg i c) lo n c

@[simp] theorem runSlots_oldsamples (cfg : Config) (lo n : Nat) (c : Chip) : (runSlots cfg lo n c).oldsamples = c.oldsamples :=
  runSlots_keeps (fun c => c.oldsamples) cfg (fun i c => slotStep_oldsamples cfg i c) lo n c

@[simp] theorem runSlots_samples (cfg : Config) (lo n : Nat) (c : Chip) : (runSlots cfg lo n c).samples = c.samples :=
  runSlots_keeps (fun c => c.samples) cfg (fun i c => slotStep_samples cfg i c) lo n c

@[simp] theorem runSlots_timer (cfg : Config) (lo n : Nat) (c : Chip) : (runSlots cfg lo n c).timer = c.timer :=
  runSlots_keeps (fun c => c.timer) cfg (fun i c => slotStep_timer cfg i c) lo n c

@[simp] theorem runSlots_egTimer (cfg : Config) (lo n : Nat) (c : Chip) : (runSlots cfg lo n c).egTimer = c.egTimer :=
  runSlots_keeps (fun c => c.egTimer) cfg (fun i c => slotStep_egTimer cfg i c) lo n c

@[simp] theorem runSlots_egTimerrem (cfg : Config) (lo n : Nat) (c : Chip) : (runSlots cfg lo n c).egTimerrem = c.egTimerrem :=
  runSlots_keeps (fun c => c.egTimerrem) cfg (fun i c => slotStep_egTimerrem cfg i c) lo n c

@[simp] theorem runSlots_egState (cfg : Config) (lo n : Nat) (c : Chip) : (runSlots cfg lo n c).egState = c.egState :=
  runSlots_keeps (fun c => c.egState) cfg (fun i c => slotStep_egState cfg i c) lo n c

@[simp] theorem runSlots_egAdd (cfg : Config) (lo n : Nat) (c : Chip) : (runSlots cfg lo n c).egAdd = c.egAdd :=
  runSlots_keeps (fun c => c.egAdd) cfg (fun i c => slotStep_egAdd cfg i c) lo n c

@[simp] theorem runSlots_egTimerLo (cfg : Config) (lo n : Nat) (c : Chip) : (runSlots cfg lo n c).egTimerLo = c.egTimerLo :=
  runSlots_keeps (fun c => c.egTimerLo) cfg (fun i c => slotStep_egTimerLo cfg i c) lo n c

@[simp] theorem runSlots_tremolopos (cfg : Config) (lo n : Nat) (c : Chip) : (runSlots cfg lo n c).tremolopos = c.tremolopos :=
  runSlots_keeps (fun c => c.tremolopos) cfg (fun i c => slotStep_tremolopos cfg i c) lo n c

@[simp] theorem runSlots_tremolo (cfg : Config) (lo n : Nat) (c : Chip) : (runSlots cfg lo n c).tremolo = c.tremolo :=
  runSlots_keeps (fun c => c.tremolo) cfg (fun i c => slotStep_tremolo cfg i c) lo n c

@[simp] theorem runSlots_vibpos (cfg : Config) (lo n : Nat) (c : Chip) : (runSlots cfg lo n c).vibpos = c.vibpos :=
  runSlots_keeps (fun c => c.vibpos) cfg (fun i c => slotStep_vibpos cfg i c) lo n c

@[simp] theorem runSlots_rhy (cfg : Config) (lo n : Nat) (c : Chip) : (runSlots cfg lo n c).rhy = c.rhy :=
  runSlots_keeps (fun c => c.rhy) cfg (fun i c => slotStep_rhy cfg i c) lo n c

/-- A run is the fold of the slot step over the slots in order. -/
theorem runSlots_all (cfg : Config) (c : Chip) :
    runSlots cfg 0 36 c = (List.finRange 36).foldl (fun c i => slotStep cfg i c) c := by
  have h : List.finRange 36 = (List.range' 0 36).map (Fin.ofNat 36) := by decide +kernel
  rw [h, List.foldl_map]
  rfl

/-- The slot step neither reads nor writes the bus sums. -/
theorem slotStep_setMixbuff (cfg : Config) (i : SlotIdx) (c : Chip) (m : Quad Int) :
    slotStep cfg i { c with mixbuff := m } = { slotStep cfg i c with mixbuff := m } := by
  have hcap : ∀ (c : Chip) (p : BitVec 16),
      rhythmCapture i p { c with mixbuff := m } = { rhythmCapture i p c with mixbuff := m } := by
    intro c p
    rw [rhythmCapture_eq, rhythmCapture_eq]
    rfl
  have hovr : ∀ c : Chip, rhythmOverride i { c with mixbuff := m } = { rhythmOverride i c with mixbuff := m } := by
    intro c
    have hr : ({ c with mixbuff := m } : Chip).rhythmOn = c.rhythmOn := rfl
    unfold rhythmOverride
    dsimp only
    rw [hr]
    cases c.rhythmOn
    · rfl
    · by_cases h13 : i = 13
      · simp only [h13]; rfl
      · by_cases h16 : i = 16
        · simp only [h16]; rfl
        · by_cases h17 : i = 17
          · simp only [h17]; rfl
          · simp only [h13, h16, h17, if_false, if_true]
  have hph : ∀ c : Chip, phaseStep i { c with mixbuff := m } = { phaseStep i c with mixbuff := m } := by
    intro c
    show noiseStep (rhythmOverride i (rhythmCapture i (tickPhase (c.slot i)) { phaseAccum i c with mixbuff := m })) = _
    rw [hcap, hovr]
    rfl
  rw [slotStep_eq, slotStep_eq]
  show outputStep cfg i (phaseStep i { envCalc i (feedbackStep i c) with mixbuff := m }) = _
  rw [hph]
  rfl

theorem runSlots_setMixbuff (cfg : Config) (lo n : Nat) (c : Chip) (m : Quad Int) :
    runSlots cfg lo n { c with mixbuff := m } = { runSlots cfg lo n c with mixbuff := m } := by
  induction n generalizing lo c with
  | zero => rfl
  | succ n ih => rw [runSlots_succ, runSlots_succ, slotStep_setMixbuff, ih]

/-! ### The tick -/

/-- What every part of the tick keeps, the tick keeps. -/
theorem tick_keeps {α : Type} (f : Chip → α) (cfg : Config) (hs : ∀ i c, f (slotStep cfg i c) = f c)
    (hac : ∀ c, f (mixAC c) = f c) (hbd : ∀ c, f (mixBD c) = f c) (he : ∀ c, f (tickEnd c) = f c) (c : Chip) :
    f (tick cfg c).1 = f c := by
  have hr := runSlots_keeps f cfg hs
  unfold tick
  split
  · show f (tickEnd (runSlots cfg 33 3 (mixBD (runSlots cfg 18 15 (runSlots cfg 15 3 (mixAC (runSlots cfg 0 15 c))))))) = _
    rw [he, hr, hbd, hr, hr, hac, hr]
  · show f (tickEnd (mixBD (mixAC (runSlots cfg 0 36 c)))) = _
    rw [he, hbd, hac, hr]

/-- A predicate that every part of the tick keeps, the tick keeps. -/
theorem tick_invariant (P : Chip → Prop) (cfg : Config) (hs : ∀ i c, P c → P (slotStep cfg i c))
    (hac : ∀ c, P c → P (mixAC c)) (hbd : ∀ c, P c → P (mixBD c)) (he : ∀ c, P c → P (tickEnd c)) (c : Chip)
    (h0 : P c) : P (tick cfg c).1 := by
  have hr := runSlots_invariant P cfg hs
  unfold tick
  split
  · exact he _ (hr _ _ _ (hbd _ (hr _ _ _ (hr _ _ _ (hac _ (hr _ _ _ h0))))))
  · exact he _ (hbd _ (hac _ (hr _ _ _ h0)))

/-- The end of a tick leaves everything but the counters and the LFOs. -/
theorem tickEnd_eq (c : Chip) : { tickEnd c with
    timer := c.timer, egTimer := c.egTimer, egTimerrem := c.egTimerrem, egState := c.egState, egAdd := c.egAdd
    egTimerLo := c.egTimerLo, tremolopos := c.tremolopos, tremolo := c.tremolo, vibpos := c.vibpos } = c := by
  obtain ⟨_, _, _, _, _, _, _, _, er, es, _⟩ := c
  cases er <;> cases es <;> rfl

theorem tickEnd_slot (c : Chip) (i : SlotIdx) : (tickEnd c).slot i = c.slot i :=
  congrArg (fun c => c.slot i) (tickEnd_eq c)

theorem tickEnd_chan (c : Chip) (n : ChanIdx) : (tickEnd c).chan n = c.chan n :=
  congrArg (fun c => c.chan n) (tickEnd_eq c)

theorem tickEnd_sameRegs (c : Chip) : c.SameRegs (tickEnd c) := by
  have h := tickEnd_eq c
  simp only [Chip.SameRegs, tickEnd_slot, tickEnd_chan, Slot.SameRegs.rfl', implies_true, and_true]
  exact ⟨congrArg (·.valid) h, congrArg (·.newm) h, congrArg (·.nts) h, congrArg (·.rhy) h,
    congrArg (·.tremoloshift) h, congrArg (·.vibshift) h, congrArg (·.rateratio) h⟩

/-- A tick changes no register field. -/
theorem tick_sameRegs (cfg : Config) (c : Chip) : c.SameRegs (tick cfg c).1 :=
  tick_invariant (fun x => c.SameRegs x) cfg (fun i x h => h.trans (slotStep_sameRegs cfg i x))
    (fun x h => h.trans (by simp [mixAC, Chip.SameRegs, Chip.slot, Chip.chan]))
    (fun x h => h.trans (by simp [mixBD, Chip.SameRegs, Chip.slot, Chip.chan]))
    (fun x h => h.trans (tickEnd_sameRegs x)) c (by simp)

@[simp] theorem tick_chan (cfg : Config) (c : Chip) (n : ChanIdx) : (tick cfg c).1.chan n = c.chan n :=
  (tick_sameRegs cfg c).2.2.2.2.2.2.2.1 n

@[simp] theorem tick_rateratio (cfg : Config) (c : Chip) : (tick cfg c).1.rateratio = c.rateratio :=
  (tick_sameRegs cfg c).2.2.2.2.2.2.1

@[simp] theorem tick_samplecnt (cfg : Config) (c : Chip) : (tick cfg c).1.samplecnt = c.samplecnt :=
  tick_keeps (fun c => c.samplecnt) cfg (fun i c => slotStep_samplecnt cfg i c) (fun _ => rfl) (fun _ => rfl)
    (fun c => congrArg (·.samplecnt) (tickEnd_eq c)) c

@[simp] theorem tick_samples (cfg : Config) (c : Chip) : (tick cfg c).1.samples = c.samples :=
  tick_keeps (fun c => c.samples) cfg (fun i c => slotStep_samples cfg i c) (fun _ => rfl) (fun _ => rfl)
    (fun c => congrArg (·.samples) (tickEnd_eq c)) c

/-- The end of the tick counts the tick. -/
theorem tickEnd_timer (c : Chip) : (tickEnd c).timer = c.timer + 1 := by
  obtain ⟨_, _, _, _, _, _, _, _, er, es, _⟩ := c
  cases er <;> cases es <;> rfl

/-- A tick counts itself. -/
@[simp] theorem tick_timer (cfg : Config) (c : Chip) : (tick cfg c).1.timer = c.timer + 1 := by
  unfold tick
  split
  · simp [tickDelayed, tickEnd_timer, mixAC, mixBD]
  · simp [tickPlain, tickEnd_timer, mixAC, mixBD]

/-! ### The resampler -/

@[simp] theorem resampleTick_samplecnt (cfg : Config) (c : Chip) :
    (resampleTick cfg c).samplecnt = c.samplecnt - c.rateratio := rfl

@[simp] theorem resampleTick_rateratio (cfg : Config) (c : Chip) : (resampleTick cfg c).rateratio = c.rateratio :=
  tick_rateratio cfg c

@[simp] theorem resampleTick_samples (cfg : Config) (c : Chip) : (resampleTick cfg c).samples = (tick cfg c).2 := rfl

@[simp] theorem resampleTick_oldsamples (cfg : Config) (c : Chip) : (resampleTick cfg c).oldsamples = c.samples := rfl

theorem resampleTick_sameRegs (cfg : Config) (c : Chip) : c.SameRegs (resampleTick cfg c) :=
  (tick_sameRegs cfg c).trans (by simp [resampleTick, Chip.SameRegs, Chip.slot, Chip.chan])

/-- A predicate that every turn of the loop keeps, the loop keeps. -/
theorem resampleLoop_invariant (P : Chip → Prop) (cfg : Config) (h : ∀ c, P c → P (resampleTick cfg c)) (n : Nat)
    (c : Chip) (h0 : P c) : P (resampleLoop cfg n c) := by
  induction n generalizing c with
  | zero => exact h0
  | succ n ih =>
    unfold resampleLoop
    split
    · exact ih _ (h _ h0)
    · exact h0

theorem catchUp_sameRegs (cfg : Config) (c : Chip) : c.SameRegs (catchUp cfg c) :=
  resampleLoop_invariant (fun x => c.SameRegs x) cfg (fun x h => h.trans (resampleTick_sameRegs cfg x)) _ c (by simp)

/-- With a positive ratio the loop's bound is the exact number of its turns. -/
theorem catchUp_eq_iterate (cfg : Config) (c : Chip) (h : 0 < c.rateratio) :
    catchUp cfg c = (resampleTick cfg)^[c.samplecnt / c.rateratio] c := by
  have key : ∀ (n : Nat) (c : Chip), 0 < c.rateratio → n = c.samplecnt / c.rateratio →
      resampleLoop cfg n c = (resampleTick cfg)^[n] c := by
    intro n
    induction n with
    | zero => intros; rfl
    | succ n ih =>
      intro c hc hn
      have hle : c.rateratio ≤ c.samplecnt := by
        by_contra hlt
        rw [Nat.div_eq_of_lt (by omega)] at hn
        omega
      rw [resampleLoop, if_pos hle, Function.iterate_succ_apply]
      refine ih _ (by simpa using hc) ?_
      rw [resampleTick_samplecnt, resampleTick_rateratio]
      rw [Nat.div_eq_sub_div hc hle] at hn
      omega
  exact key _ c h rfl

theorem iterate_resampleTick_rateratio (cfg : Config) (n : Nat) (c : Chip) :
    ((resampleTick cfg)^[n] c).rateratio = c.rateratio := by
  induction n generalizing c with
  | zero => rfl
  | succ n ih => rw [Function.iterate_succ_apply, ih, resampleTick_rateratio]

theorem iterate_resampleTick_samplecnt (cfg : Config) (n : Nat) (c : Chip) :
    ((resampleTick cfg)^[n] c).samplecnt = c.samplecnt - n * c.rateratio := by
  induction n generalizing c with
  | zero => simp
  | succ n ih =>
    rw [Function.iterate_succ_apply, ih, resampleTick_rateratio, resampleTick_samplecnt, Nat.sub_sub, Nat.succ_mul,
      Nat.add_comm]

/-- Turns of the loop are counted by the tick counter. -/
theorem iterate_resampleTick_timer (cfg : Config) (n : Nat) (c : Chip) :
    ((resampleTick cfg)^[n] c).timer = c.timer + BitVec.ofNat 16 n := by
  induction n generalizing c with
  | zero => simp
  | succ n ih =>
    have h : (resampleTick cfg c).timer = c.timer + 1 := tick_timer cfg c
    rw [Function.iterate_succ_apply, ih, h, BitVec.ofNat_add, BitVec.add_assoc, BitVec.add_comm 1]
    rfl

/-- After the loop what is left over is the remainder. -/
theorem catchUp_samplecnt (cfg : Config) (c : Chip) (h : 0 < c.rateratio) :
    (catchUp cfg c).samplecnt = c.samplecnt % c.rateratio := by
  rw [catchUp_eq_iterate cfg c h, iterate_resampleTick_samplecnt]
  have := Nat.div_add_mod c.samplecnt c.rateratio
  rw [Nat.mul_comm] at this
  omega

@[simp] theorem catchUp_rateratio (cfg : Config) (c : Chip) : (catchUp cfg c).rateratio = c.rateratio :=
  (catchUp_sameRegs cfg c).2.2.2.2.2.2.1

end Sys2Proof.Machine
end

