-- ==== Sys2Proof/Laws/Writes.lean ====
section
/-! SUPPORT. What the shared operations of the register writes can do: the router, the key bits, key scaling and the
copy to a pair. One lemma says what an operation reads back as, one what it leaves. -/

namespace Sys2Proof.Machine

/-! ### Frames -/

@[simp] theorem Chip.SameGlobals.rfl' (a : Chip) : a.SameGlobals a := rfl

theorem Chip.SameGlobals.trans {a b c : Chip} (h1 : a.SameGlobals b) (h2 : b.SameGlobals c) : a.SameGlobals c := by
  unfold Chip.SameGlobals at *
  rw [← h2, ← h1]

@[simp] theorem Chip.sameGlobals_modSlot (c : Chip) (i : SlotIdx) (f : Slot → Slot) : c.SameGlobals (c.modSlot i f) := rfl

@[simp] theorem Chip.sameGlobals_modChan (c : Chip) (n : ChanIdx) (f : Channel → Channel) :
    c.SameGlobals (c.modChan n f) := rfl

@[simp] theorem Slot.SameTick.rfl' (s : Slot) : s.SameTick s := by simp [Slot.SameTick]

theorem Slot.SameTick.trans {a b c : Slot} (h1 : a.SameTick b) (h2 : b.SameTick c) : a.SameTick c := by
  simp only [Slot.SameTick] at *
  simp only [h2, h1, and_self]

@[simp] theorem Chip.SameTick.rfl' (c : Chip) : c.SameTick c := by simp [Chip.SameTick]

theorem Chip.SameTick.trans {a b c : Chip} (h1 : a.SameTick b) (h2 : b.SameTick c) : a.SameTick c := by
  unfold Chip.SameTick at *
  simp only [h2, h1, true_and]
  exact fun i => Slot.SameTick.trans (h1.2.2.2.2.2.2.2.2.2.2.2.2.2.2.2.2.2.2.2.2 i)
    (h2.2.2.2.2.2.2.2.2.2.2.2.2.2.2.2.2.2.2.2.2 i)

/-- An update of one slot keeps the tick state when the function on the slot does. -/
theorem Chip.sameTick_modSlot (c : Chip) (i : SlotIdx) (f : Slot → Slot) (h : (c.slot i).SameTick (f (c.slot i))) :
    c.SameTick (c.modSlot i f) := by
  simp only [Chip.SameTick, Chip.modSlot_timer, Chip.modSlot_egTimer, Chip.modSlot_egTimerrem, Chip.modSlot_egState,
    Chip.modSlot_egAdd, Chip.modSlot_egTimerLo, Chip.modSlot_tremolopos, Chip.modSlot_tremolo, Chip.modSlot_vibpos,
    Chip.modSlot_noise, Chip.modSlot_rmHhBit2, Chip.modSlot_rmHhBit3, Chip.modSlot_rmHhBit7, Chip.modSlot_rmHhBit8,
    Chip.modSlot_rmTcBit3, Chip.modSlot_rmTcBit5, Chip.modSlot_mixbuff, Chip.modSlot_samplecnt,
    Chip.modSlot_oldsamples, Chip.modSlot_samples, true_and]
  intro j
  rw [Chip.slot_modSlot]
  split
  · subst_vars; exact h
  · simp

/-- An update of a channel keeps the tick state. -/
@[simp] theorem Chip.sameTick_modChan (c : Chip) (n : ChanIdx) (f : Channel → Channel) : c.SameTick (c.modChan n f) := by
  simp [Chip.SameTick]

/-! ### The router -/

theorem slot_setMod (i j : SlotIdx) (m : ModSrc) (c : Chip) :
    (setMod i m c).slot j = if j = i then { c.slot i with mod := m } else c.slot j := Chip.slot_modSlot c i j _

@[simp] theorem chan_setMod (i : SlotIdx) (m : ModSrc) (c : Chip) (n : ChanIdx) : (setMod i m c).chan n = c.chan n := rfl

theorem chan_setOut (n m : ChanIdx) (o : Quad OutSrc) (c : Chip) :
    (setOut n o c).chan m = if m = n then { c.chan n with out := o } else c.chan m := Chip.chan_modChan c n m _

@[simp] theorem slot_setOut (n : ChanIdx) (o : Quad OutSrc) (c : Chip) (i : SlotIdx) : (setOut n o c).slot i = c.slot i := rfl

theorem chan_setAlg (n m : ChanIdx) (a : BitVec 4) (c : Chip) :
    (setAlg n a c).chan m = if m = n then { c.chan n with alg := a } else c.chan m := Chip.chan_modChan c n m _

@[simp] theorem slot_setAlg (n : ChanIdx) (a : BitVec 4) (c : Chip) (i : SlotIdx) : (setAlg n a c).slot i = c.slot i := rfl

theorem chan_setChtype (n m : ChanIdx) (t : ChType) (c : Chip) :
    (setChtype n t c).chan m = if m = n then { c.chan n with chtype := t } else c.chan m := Chip.chan_modChan c n m _

@[simp] theorem slot_setChtype (n : ChanIdx) (t : ChType) (c : Chip) (i : SlotIdx) :
    (setChtype n t c).slot i = c.slot i := rfl

/-- From `a` to `b` nothing has changed but channel types, algorithms, `out` lists and modulation sources. -/
structure RoutingOnly (a b : Chip) : Prop where
  globals : a.SameGlobals b
  chans : ∀ n : ChanIdx,
    { a.chan n with chtype := (b.chan n).chtype, alg := (b.chan n).alg, out := (b.chan n).out } = b.chan n
  slots : ∀ i : SlotIdx, { a.slot i with mod := (b.slot i).mod } = b.slot i

@[simp] theorem RoutingOnly.rfl' (a : Chip) : RoutingOnly a a := ⟨rfl, fun _ => rfl, fun _ => rfl⟩

theorem RoutingOnly.trans {a b c : Chip} (h1 : RoutingOnly a b) (h2 : RoutingOnly b c) : RoutingOnly a c where
  globals := h1.globals.trans h2.globals
  chans n := by rw [← h2.chans n, ← h1.chans n]
  slots i := by rw [← h2.slots i, ← h1.slots i]

theorem routingOnly_setMod (i : SlotIdx) (m : ModSrc) (c : Chip) : RoutingOnly c (setMod i m c) where
  globals := rfl
  chans _ := rfl
  slots j := by rw [slot_setMod]; split <;> simp_all

theorem routingOnly_setOut (n : ChanIdx) (o : Quad OutSrc) (c : Chip) : RoutingOnly c (setOut n o c) where
  globals := rfl
  chans m := by rw [chan_setOut]; split <;> simp_all
  slots _ := rfl

theorem routingOnly_setAlg (n : ChanIdx) (a : BitVec 4) (c : Chip) : RoutingOnly c (setAlg n a c) where
  globals := rfl
  chans m := by rw [chan_setAlg]; split <;> simp_all
  slots _ := rfl

theorem routingOnly_setChtype (n : ChanIdx) (t : ChType) (c : Chip) : RoutingOnly c (setChtype n t c) where
  globals := rfl
  chans m := by rw [chan_setChtype]; split <;> simp_all
  slots _ := rfl

theorem routingOnly_setupDrum (n : ChanIdx) (c : Chip) : RoutingOnly c (setupDrum n c) := by
  unfold setupDrum
  split
  · exact (routingOnly_setMod _ _ _).trans (routingOnly_setMod _ _ _)
  · split
    · split
      · exact (routingOnly_setMod _ _ _).trans (routingOnly_setMod _ _ _)
      · exact (routingOnly_setMod _ _ _).trans (routingOnly_setMod _ _ _)
    · simp

theorem routingOnly_setupTwoOp (n : ChanIdx) (c : Chip) : RoutingOnly c (setupTwoOp n c) := by
  unfold setupTwoOp
  split
  all_goals exact ((routingOnly_setMod _ _ _).trans (routingOnly_setMod _ _ _)).trans (routingOnly_setOut _ _ _)

theorem routingOnly_routeFour (p s : ChanIdx) (m2 m3 m4 : ModSrc) (outs : List SlotIdx) (c : Chip) :
    RoutingOnly c (routeFour p s m2 m3 m4 outs c) :=
  ((((routingOnly_setMod _ _ _).trans (routingOnly_setMod _ _ _)).trans (routingOnly_setMod _ _ _)).trans
    (routingOnly_setMod _ _ _)).trans (routingOnly_setOut _ _ _)

theorem routingOnly_setupFourOp (p s : ChanIdx) (k : BitVec 2) (c : Chip) : RoutingOnly c (setupFourOp p s k c) := by
  unfold setupFourOp
  refine (routingOnly_setOut p (outList []) c).trans ?_
  dsimp only
  split <;> exact routingOnly_routeFour _ _ _ _ _ _ _

/-- The router changes nothing but the routing. -/
theorem routingOnly_setupAlg (n : ChanIdx) (c : Chip) : RoutingOnly c (setupAlg n c) := by
  unfold setupAlg
  dsimp only
  split
  · exact routingOnly_setupDrum n c
  · split
    · simp
    · split
      · split
        · exact routingOnly_setupFourOp _ _ _ _
        · simp
      · exact routingOnly_setupTwoOp n c

theorem routingOnly_updatePair (p s : ChanIdx) (c : Chip) : RoutingOnly c (updatePair p s c) :=
  ((routingOnly_setAlg _ _ _).trans (routingOnly_setAlg _ _ _)).trans (routingOnly_setupAlg _ _)

theorem routingOnly_updateAlg (n : ChanIdx) (c : Chip) : RoutingOnly c (updateAlg n c) := by
  unfold updateAlg
  refine (routingOnly_setAlg n (BitVec.ofNat 4 (c.chan n).con.toNat) c).trans ?_
  dsimp only
  split
  · exact routingOnly_updatePair _ _ _
  · exact routingOnly_updatePair _ _ _
  · exact routingOnly_setupAlg _ _

theorem routingOnly_connectPair (n : ChanIdx) (on : Bool) (c : Chip) : RoutingOnly c (connectPair n on c) := by
  unfold connectPair
  split
  · exact ((routingOnly_setChtype _ _ _).trans (routingOnly_setChtype _ _ _)).trans (routingOnly_updateAlg _ _)
  · exact (((routingOnly_setChtype _ _ _).trans (routingOnly_setChtype _ _ _)).trans
      (routingOnly_updateAlg _ _)).trans (routingOnly_updateAlg _ _)

theorem routingOnly_write4op (d : Byte) (c : Chip) : RoutingOnly c (write4op d c) :=
  (((((routingOnly_connectPair _ _ _).trans (routingOnly_connectPair _ _ _)).trans
    (routingOnly_connectPair _ _ _)).trans (routingOnly_connectPair _ _ _)).trans
      (routingOnly_connectPair _ _ _)).trans (routingOnly_connectPair _ _ _)

/-- A change of the routing alone keeps the tick state. -/
theorem RoutingOnly.sameTick {a b : Chip} (h : RoutingOnly a b) : a.SameTick b := by
  have hg := h.globals
  unfold Chip.SameGlobals at hg
  have hs : ∀ i, (a.slot i).SameTick (b.slot i) := fun i => by
    rw [← h.slots i]; simp [Slot.SameTick]
  rw [← hg]
  simp only [Chip.SameTick, true_and]
  rw [hg]
  exact hs

/-! ### Keys -/

theorem slot_keyOn (i j : SlotIdx) (t : BitVec 2) (c : Chip) :
    (keyOn i t c).slot j = if j = i then { c.slot i with key := (c.slot i).key ||| t } else c.slot j :=
  Chip.slot_modSlot c i j _

theorem slot_keyOff (i j : SlotIdx) (t : BitVec 2) (c : Chip) :
    (keyOff i t c).slot j = if j = i then { c.slot i with key := (c.slot i).key &&& (3 - t) } else c.slot j :=
  Chip.slot_modSlot c i j _

theorem slot_keySet (on : Bool) (i j : SlotIdx) (t : BitVec 2) (c : Chip) :
    (keySet on i t c).slot j = if j = i then
      { c.slot i with key := if on then (c.slot i).key ||| t else (c.slot i).key &&& (3 - t) } else c.slot j := by
  unfold keySet
  cases on
  · exact slot_keyOff i j t c
  · exact slot_keyOn i j t c

@[simp] theorem chan_keyOn (i : SlotIdx) (t : BitVec 2) (c : Chip) (n : ChanIdx) : (keyOn i t c).chan n = c.chan n := rfl
@[simp] theorem chan_keyOff (i : SlotIdx) (t : BitVec 2) (c : Chip) (n : ChanIdx) : (keyOff i t c).chan n = c.chan n := rfl
@[simp] theorem chan_keySet (on : Bool) (i : SlotIdx) (t : BitVec 2) (c : Chip) (n : ChanIdx) :
    (keySet on i t c).chan n = c.chan n := by cases on <;> rfl

theorem sameGlobals_keySet (on : Bool) (i : SlotIdx) (t : BitVec 2) (c : Chip) : c.SameGlobals (keySet on i t c) := by
  cases on <;> rfl

theorem sameTick_keySet (on : Bool) (i : SlotIdx) (t : BitVec 2) (c : Chip) : c.SameTick (keySet on i t c) := by
  cases on
  · exact Chip.sameTick_modSlot c i (fun s => { s with key := s.key &&& (3 - t) }) (by simp [Slot.SameTick])
  · exact Chip.sameTick_modSlot c i (fun s => { s with key := s.key ||| t }) (by simp [Slot.SameTick])

/-! ### Key scaling -/

theorem slot_updateKsl (i j : SlotIdx) (c : Chip) :
    (updateKsl i c).slot j = if j = i then
      { c.slot i with egKsl := kslOf (c.chan (channelOf i)).fNum (c.chan (channelOf i)).block } else c.slot j :=
  Chip.slot_modSlot c i j _

@[simp] theorem chan_updateKsl (i : SlotIdx) (c : Chip) (n : ChanIdx) : (updateKsl i c).chan n = c.chan n := rfl

theorem chan_updateKsv (n m : ChanIdx) (c : Chip) :
    (updateKsv n c).chan m = if m = n then
      { c.chan n with ksv := ksvOf c.nts (c.chan n).fNum (c.chan n).block } else c.chan m :=
  Chip.chan_modChan c n m _

@[simp] theorem slot_updateKsv (n : ChanIdx) (c : Chip) (i : SlotIdx) : (updateKsv n c).slot i = c.slot i := rfl

theorem sameGlobals_updateKslBoth (n : ChanIdx) (c : Chip) : c.SameGlobals (updateKslBoth n c) := rfl

theorem sameTick_updateKsl (i : SlotIdx) (c : Chip) : c.SameTick (updateKsl i c) :=
  Chip.sameTick_modSlot c i
    (fun s => { s with egKsl := kslOf (c.chan (channelOf i)).fNum (c.chan (channelOf i)).block })
    (by simp [Slot.SameTick])

theorem sameTick_updateKslBoth (n : ChanIdx) (c : Chip) : c.SameTick (updateKslBoth n c) :=
  (sameTick_updateKsl _ _).trans (sameTick_updateKsl _ _)

/-- A slot is an operator of its channel. -/
theorem channelOf_eq_iff (i : SlotIdx) (n : ChanIdx) : channelOf i = n ↔ i = op1 n ∨ i = op2 n := by
  revert i n; decide +kernel

/-- The key-scale level of a channel's two slots follows its frequency; every other slot stays. -/
theorem slot_updateKslBoth (n : ChanIdx) (j : SlotIdx) (c : Chip) :
    (updateKslBoth n c).slot j = if channelOf j = n then
      { c.slot j with egKsl := kslOf (c.chan n).fNum (c.chan n).block } else c.slot j := by
  have h1 : channelOf (op1 n) = n := (channelOf_eq_iff _ _).mpr (.inl rfl)
  have h2 : channelOf (op2 n) = n := (channelOf_eq_iff _ _).mpr (.inr rfl)
  have hne : op2 n ≠ op1 n := by revert n; decide +kernel
  simp only [updateKslBoth, slot_updateKsl, chan_updateKsl, h1, h2, channelOf_eq_iff]
  by_cases e2 : j = op2 n
  · subst e2; simp [hne]
  · by_cases e1 : j = op1 n
    · subst e1; simp [Ne.symm hne]
    · simp [e1, e2]

@[simp] theorem chan_updateKslBoth (n m : ChanIdx) (c : Chip) : (updateKslBoth n c).chan m = c.chan m := rfl

/-- The copy to the pair writes the pair's frequency, block (if asked), key-scale value and key-scale levels. -/
theorem chan_copyFreqToPair (n m : ChanIdx) (b : Bool) (c : Chip) :
    (copyFreqToPair n b c).chan m = if pair n = some m then
      { c.chan m with
        fNum := (c.chan n).fNum, block := if b then (c.chan n).block else (c.chan m).block, ksv := (c.chan n).ksv }
      else c.chan m := by
  unfold copyFreqToPair
  split
  · rename_i p hp
    rw [hp, chan_updateKslBoth, Chip.chan_modChan]
    by_cases e : m = p
    · subst e; simp
    · simp [e, Ne.symm e]
  · rename_i hp
    simp [hp]

theorem sameTick_copyFreqToPair (n : ChanIdx) (b : Bool) (c : Chip) : c.SameTick (copyFreqToPair n b c) := by
  unfold copyFreqToPair
  split
  · exact (Chip.sameTick_modChan c _ _).trans (sameTick_updateKslBoth _ _)
  · simp

theorem sameGlobals_copyFreqToPair (n : ChanIdx) (b : Bool) (c : Chip) : c.SameGlobals (copyFreqToPair n b c) := by
  unfold copyFreqToPair
  split <;> rfl

theorem sameGlobals_freqChanged (n : ChanIdx) (b : Bool) (c : Chip) : c.SameGlobals (freqChanged n b c) := by
  unfold freqChanged
  have h0 : c.SameGlobals (updateKslBoth n (updateKsv n c)) := rfl
  dsimp only
  split
  · exact h0.trans (sameGlobals_copyFreqToPair n b _)
  · exact h0

theorem sameTick_freqChanged (n : ChanIdx) (b : Bool) (c : Chip) : c.SameTick (freqChanged n b c) := by
  unfold freqChanged
  have h0 : c.SameTick (updateKslBoth n (updateKsv n c)) :=
    (Chip.sameTick_modChan c n _).trans (sameTick_updateKslBoth n (updateKsv n c))
  dsimp only
  split
  · exact h0.trans (sameTick_copyFreqToPair n b _)
  · exact h0

/-- A run of key changes keeps globals, channels and tick state. -/
theorem sameGlobals_foldKeys (f : SlotIdx → Chip → Chip) (hf : ∀ i c, Chip.SameGlobals c (f i c)) (l : List SlotIdx)
    (c : Chip) : c.SameGlobals (l.foldl (fun c i => f i c) c) := by
  induction l generalizing c with
  | nil => rfl
  | cons i l ih => exact (hf i c).trans (ih _)

theorem sameTick_foldKeys (f : SlotIdx → Chip → Chip) (hf : ∀ i c, Chip.SameTick c (f i c)) (l : List SlotIdx)
    (c : Chip) : c.SameTick (l.foldl (fun c i => f i c) c) := by
  induction l generalizing c with
  | nil => simp
  | cons i l ih => exact (hf i c).trans (ih _)

/-- A run of key-ons reaches exactly the slots of the list. -/
theorem slot_foldKeyOn (t : BitVec 2) (l : List SlotIdx) (c : Chip) (j : SlotIdx) :
    (l.foldl (fun c i => keyOn i t c) c).slot j =
      if j ∈ l then { c.slot j with key := (c.slot j).key ||| t } else c.slot j := by
  induction l generalizing c with
  | nil => simp
  | cons i l ih =>
    simp only [List.foldl_cons, ih, slot_keyOn, List.mem_cons]
    by_cases e : j = i
    · subst e
      by_cases m : j ∈ l <;> simp [m, BitVec.or_assoc]
    · simp [e]

/-- A run of key-offs reaches exactly the slots of the list. -/
theorem slot_foldKeyOff (t : BitVec 2) (l : List SlotIdx) (c : Chip) (j : SlotIdx) :
    (l.foldl (fun c i => keyOff i t c) c).slot j =
      if j ∈ l then { c.slot j with key := (c.slot j).key &&& (3 - t) } else c.slot j := by
  induction l generalizing c with
  | nil => simp
  | cons i l ih =>
    simp only [List.foldl_cons, ih, slot_keyOff, List.mem_cons]
    by_cases e : j = i
    · subst e
      by_cases m : j ∈ l <;> simp [m, BitVec.and_assoc]
    · simp [e]

theorem chan_foldKeyOn (t : BitVec 2) (l : List SlotIdx) (c : Chip) (n : ChanIdx) :
    (l.foldl (fun c i => keyOn i t c) c).chan n = c.chan n := by
  induction l generalizing c with
  | nil => rfl
  | cons i l ih => rw [List.foldl_cons, ih, chan_keyOn]

theorem chan_foldKeyOff (t : BitVec 2) (l : List SlotIdx) (c : Chip) (n : ChanIdx) :
    (l.foldl (fun c i => keyOff i t c) c).chan n = c.chan n := by
  induction l generalizing c with
  | nil => rfl
  | cons i l ih => rw [List.foldl_cons, ih, chan_keyOff]

end Sys2Proof.Machine
end

