-- ==== Sys2Proof/Tests/Slice0.lean ====
section
/-! SUPPORT. The model's own tests. A test's expected values come from the spec: the encodings of 30_encoding.md, the
examples in the rules, and the vectors of 95_test_vectors.md. The `test_witness_` theorems show states and operands
that meet the hypotheses of the statement they name. -/

namespace Sys2Proof.Tests

set_option Elab.async false

open Sys2Proof Sys2Proof.Machine Sys2Proof.Spec

/-! ### Well-formedness -/

/-- Row a refuses in-bank slots 4, 5, 10 and 12, in every family. -/
theorem test_wf_rows_a_refuse : (Instr.wrOp20a 4 0).wf = false ∧ (Instr.wrOp40a 5 0).wf = false ∧
    (Instr.wrOp60a 10 0).wf = false ∧ (Instr.wrOp80a 12 0).wf = false ∧ (Instr.wrOpE0a 22 0).wf = false := by decide

/-- Row b refuses in-bank slots 3, 6, 9, 12 and 0. -/
theorem test_wf_rows_b_refuse : (Instr.wrOp20b 3 0).wf = false ∧ (Instr.wrOp40b 6 0).wf = false ∧
    (Instr.wrOp60b 9 0).wf = false ∧ (Instr.wrOp80b 12 0).wf = false ∧ (Instr.wrOpE0b 18 0).wf = false := by decide

/-- Row c refuses in-bank slots 11 and 16. -/
theorem test_wf_rows_c_refuse : (Instr.wrOp20c 11 0).wf = false ∧ (Instr.wrOp40c 16 0).wf = false ∧
    (Instr.wrOp60c 29 0).wf = false ∧ (Instr.wrOp80c 34 0).wf = false ∧ (Instr.wrOpE0c 0 0).wf = false := by decide

/-- Row d refuses in-bank slot 15 and below. -/
theorem test_wf_rows_d_refuse : (Instr.wrOp20d 15 0).wf = false ∧ (Instr.wrOp40d 33 0).wf = false ∧
    (Instr.wrOp60d 0 0).wf = false ∧ (Instr.wrOp80d 18 0).wf = false ∧ (Instr.wrOpE0d 12 0).wf = false := by decide

/-- Channel row a refuses N = 8, and row b anything else. -/
theorem test_wf_channel_rows_refuse : (Instr.wrChA0a 8 0).wf = false ∧ (Instr.wrChB0a 17 0).wf = false ∧
    (Instr.wrChC0a 8 0).wf = false ∧ (Instr.wrChA0b 7 0).wf = false ∧ (Instr.wrChB0b 9 0).wf = false ∧
    (Instr.wrChC0b 0 0).wf = false := by decide

/-- An address that a family decodes is no ignored one: one for each family. -/
theorem test_wf_ignored_refuses : (Instr.wrIgnored 0x008 0).wf = false ∧ (Instr.wrIgnored 0x104 0).wf = false ∧
    (Instr.wrIgnored 0x105 0).wf = false ∧ (Instr.wrIgnored 0x0BD 0).wf = false ∧
    (Instr.wrIgnored 0x035 0).wf = false ∧ (Instr.wrIgnored 0x1B8 0).wf = false := by decide

/-! ### Decoding: bank bit, register byte and data byte written out from 30_encoding.md -/

theorem test_decode_reset : decode (.reset 49716) = .ok (.reset 49716) := rfl

theorem test_decode_render : decode .render = .ok .render := rfl

/-- 95_test_vectors.md 2.1, its last row. -/
theorem test_decode_rejects_0x200 : decode (.write 0x200 0x55) = .error .addressOutsideSpace := rfl

/-- The first integer outside the address space on the other side. -/
theorem test_decode_rejects_negative : decode (.write (-1) 0x55) = .error .addressOutsideSpace := rfl

/-- The opcode table's bits are the word's bits; a bit above them makes an address outside the space. -/
theorem test_decodeTableWord : decodeTableWord 24 0x02021 = some (.wrOp20a 0 0x21) ∧
    decodeTableWord 24 0x20000 = none := by decide

theorem test_decode_wrNts : decodeWord 0b0_00001000_01000000 = .wrNts 0x40 := by decide

theorem test_decode_wr4op : decodeWord 0b1_00000100_00111111 = .wr4op 0x3F := by decide

theorem test_decode_wrNew : decodeWord 0b1_00000101_00000001 = .wrNew 0x01 := by decide

theorem test_decode_wrOp20a : decodeWord 0b0_00100011_10100001 = .wrOp20a 3 0xA1 := by decide

theorem test_decode_wrOp20b : decodeWord 0b0_00101101_00100001 = .wrOp20b 11 0x21 := by decide

theorem test_decode_wrOp20c : decodeWord 0b1_00110000_01011010 = .wrOp20c 30 0x5A := by decide

theorem test_decode_wrOp20d : decodeWord 0b1_00110101_11111111 = .wrOp20d 35 0xFF := by decide

theorem test_decode_wrOp40a : decodeWord 0b0_01000000_00111111 = .wrOp40a 0 0x3F := by decide

theorem test_decode_wrOp40b : decodeWord 0b1_01000100_10000000 = .wrOp40b 22 0x80 := by decide

theorem test_decode_wrOp40c : decodeWord 0b0_01010011_00000101 = .wrOp40c 15 0x05 := by decide

theorem test_decode_wrOp40d : decodeWord 0b1_01010100_11000001 = .wrOp40d 34 0xC1 := by decide

theorem test_decode_wrOp60a : decodeWord 0b0_01100011_11110000 = .wrOp60a 3 0xF0 := by decide

theorem test_decode_wrOp60b : decodeWord 0b0_01101101_11001100 = .wrOp60b 11 0xCC := by decide

theorem test_decode_wrOp60c : decodeWord 0b1_01110001_10001000 = .wrOp60c 31 0x88 := by decide

theorem test_decode_wrOp60d : decodeWord 0b0_01110101_00001111 = .wrOp60d 17 0x0F := by decide

theorem test_decode_wrOp80a : decodeWord 0b0_10001011_11110111 = .wrOp80a 9 0xF7 := by decide

theorem test_decode_wrOp80b : decodeWord 0b1_10000101_01001100 = .wrOp80b 23 0x4C := by decide

theorem test_decode_wrOp80c : decodeWord 0b0_10010000_00101000 = .wrOp80c 12 0x28 := by decide

theorem test_decode_wrOp80d : decodeWord 0b0_10010101_11100111 = .wrOp80d 17 0xE7 := by decide

theorem test_decode_wrOpE0a : decodeWord 0b0_11101000_00000111 = .wrOpE0a 6 0x07 := by decide

theorem test_decode_wrOpE0b : decodeWord 0b1_11101100_00000011 = .wrOpE0b 28 0x03 := by decide

theorem test_decode_wrOpE0c : decodeWord 0b0_11110010_00000001 = .wrOpE0c 14 0x01 := by decide

theorem test_decode_wrOpE0d : decodeWord 0b0_11110101_00000010 = .wrOpE0d 17 0x02 := by decide

theorem test_decode_wrChA0a : decodeWord 0b0_10100000_01000100 = .wrChA0a 0 0x44 := by decide

theorem test_decode_wrChA0b : decodeWord 0b1_10101000_01010101 = .wrChA0b 17 0x55 := by decide

theorem test_decode_wrRhy : decodeWord 0b0_10111101_00110000 = .wrRhy 0x30 := by decide

theorem test_decode_wrChB0a : decodeWord 0b1_10110011_00101010 = .wrChB0a 12 0x2A := by decide

theorem test_decode_wrChB0b : decodeWord 0b0_10111000_00110010 = .wrChB0b 8 0x32 := by decide

theorem test_decode_wrChC0a : decodeWord 0b0_11000000_00110001 = .wrChC0a 0 0x31 := by decide

theorem test_decode_wrChC0b : decodeWord 0b1_11001000_00001110 = .wrChC0b 17 0x0E := by decide

theorem test_decode_wrIgnored : decodeWord 0b1_10111101_00111111 = .wrIgnored 0x1BD 0x3F := by decide

/-! ### One step of each command -/

/-- The block after one command. -/
def after (i : Instr) (s : State) : Chip :=
  match exec i s with
  | .next t => t.chip
  | .fault _ => s.chip
  | .refused _ => s.chip

/-- What one command returns. -/
def returns (i : Instr) (s : State) : CallResult :=
  match exec i s with
  | .next t => t.result
  | .fault _ => s.result
  | .refused _ => s.result

/-- The reset state, with its block changed. -/
def start (f : Chip → Chip) : State := { State.reset with chip := f State.reset.chip }

/-- NEW = 1, and channels 0 and 3 are a pair. -/
def paired (c : Chip) : Chip := { c with newm := true } |> setChtype 0 .fourOp |> setChtype 3 .fourOp2

/-- An instance that was never reset. -/
def neverReset : State := start fun c => { c with valid := false }

/-- Slot 3 changed. -/
def slot3 (f : Slot → Slot) (c : Chip) : Chip := c.modSlot 3 f

/-- 45_sample_clock.md R402: 44100 gives 908. -/
theorem test_reset_ratio : (after (.reset 44100) neverReset).rateratio = 908 ∧
    (after (.reset 44100) neverReset).valid = true := by decide +kernel

/-- 46_host_interface.md R420: 48 is one below the lowest rate. -/
theorem test_reset_invalid : returns (.reset 48) State.reset = .error .invalidRate ∧
    (after (.reset 48) neverReset).valid = false := by decide +kernel

/-- 95_test_vectors.md S1: the first frame after a reset is silent and runs no tick. -/
theorem test_render_first_frame : returns .render State.reset = .frame 0 0 ∧
    (after .render State.reset).samplecnt = 1024 ∧ (after .render State.reset).timer = 0 := by decide +kernel

/-- 60_exceptions.md R500. -/
theorem test_render_before_reset : returns .render neverReset = .error .notReset := by decide +kernel

/-- R201: D[6] alone counts. -/
theorem test_wrNts : (after (.wrNts 0x40) State.reset).nts = true ∧
    (after (.wrNts 0xBF) (start fun c => { c with nts := true })).nts = false := by decide +kernel

/-- 95_test_vectors.md 2.2, WR_4OP with `newm = 1`. -/
theorem test_wr4op : ((after (.wr4op 0x3F) (start fun c => { c with newm := true })).chan 11).alg = 8 ∧
    ((after (.wr4op 0x3F) (start fun c => { c with newm := true })).chan 14).alg = 4 ∧
    ((after (.wr4op 0x3F) (start fun c => { c with newm := true })).chan 14).chtype = .fourOp2 := by decide +kernel

/-- 95_test_vectors.md 2.2, WR_4OP with `newm = 0`: the type changes and the algorithm does not. -/
theorem test_wr4op_newm0 : ((after (.wr4op 0x01) State.reset).chan 3).chtype = .fourOp2 ∧
    ((after (.wr4op 0x01) State.reset).chan 3).alg = 0 ∧ ((after (.wr4op 0x01) State.reset).chan 0).alg = 0 := by
  decide +kernel

/-- R203: D[0] alone counts. -/
theorem test_wrNew : (after (.wrNew 0x01) State.reset).newm = true ∧
    (after (.wrNew 0xFE) (start fun c => { c with newm := true })).newm = false := by decide +kernel

/-- R204's example, and the rows b to d on their own slots. -/
theorem test_wrOp20 :
    let s := (after (.wrOp20a 3 0xA1) State.reset).slot 3
    s.tremEn = true ∧ s.regVib = false ∧ s.regType = true ∧ s.regKsr = false ∧ s.regMult = 1 := by decide +kernel

theorem test_wrOp20_rows : ((after (.wrOp20b 11 0x4F) State.reset).slot 11).regMult = 15 ∧
    ((after (.wrOp20c 30 0x40) State.reset).slot 30).regVib = true ∧
    ((after (.wrOp20d 35 0x10) State.reset).slot 35).regKsr = true := by decide +kernel

/-- R205's example; 95_test_vectors.md 2.7 gives 104 for F-number 0x244 in block 4. -/
theorem test_wrOp40 : ((after (.wrOp40a 0 0x3F) State.reset).slot 0).regTl = 63 ∧
    ((after (.wrOp40a 0 0x3F) (start fun c => c.modChan 0 fun ch => { ch with fNum := 0x244, block := 4 })).slot 0).egKsl
      = 104 := by decide +kernel

theorem test_wrOp40_rows : ((after (.wrOp40b 22 0x80) State.reset).slot 22).regKsl = 2 ∧
    ((after (.wrOp40c 15 0x05) State.reset).slot 15).regTl = 5 ∧
    ((after (.wrOp40d 34 0xC1) State.reset).slot 34).regKsl = 3 := by decide +kernel

/-- R206's example. -/
theorem test_wrOp60 : ((after (.wrOp60a 3 0xF0) State.reset).slot 3).regAr = 15 ∧
    ((after (.wrOp60a 3 0xF0) State.reset).slot 3).regDr = 0 := by decide +kernel

theorem test_wrOp60_rows : ((after (.wrOp60b 11 0xC1) State.reset).slot 11).regDr = 1 ∧
    ((after (.wrOp60c 31 0x82) State.reset).slot 31).regAr = 8 ∧
    ((after (.wrOp60d 17 0x0F) State.reset).slot 17).regDr = 15 := by decide +kernel

/-- 95_test_vectors.md 2.2: SL 15 is stored as 31, SL 14 as 14. -/
theorem test_wrOp80 : ((after (.wrOp80a 3 0xF7) State.reset).slot 3).regSl = 31 ∧
    ((after (.wrOp80a 3 0xE7) State.reset).slot 3).regSl = 14 ∧
    ((after (.wrOp80a 3 0xF7) State.reset).slot 3).regRr = 7 := by decide +kernel

theorem test_wrOp80_rows : ((after (.wrOp80b 23 0x4C) State.reset).slot 23).regSl = 4 ∧
    ((after (.wrOp80c 12 0x28) State.reset).slot 12).regRr = 8 ∧
    ((after (.wrOp80d 17 0xF0) State.reset).slot 17).regSl = 31 := by decide +kernel

/-- R208's example. -/
theorem test_wrOpE0 : ((after (.wrOpE0a 0 0x07) State.reset).slot 0).regWf = 3 ∧
    ((after (.wrOpE0a 0 0x07) (start fun c => { c with newm := true })).slot 0).regWf = 7 := by decide +kernel

theorem test_wrOpE0_rows : ((after (.wrOpE0b 28 0x03) State.reset).slot 28).regWf = 3 ∧
    ((after (.wrOpE0c 14 0x05) State.reset).slot 14).regWf = 1 ∧
    ((after (.wrOpE0d 17 0x02) State.reset).slot 17).regWf = 2 := by decide +kernel

/-- 95_test_vectors.md 2.2: the low byte, its copy to the pair, and the dropped write to the second channel. -/
theorem test_wrChA0 : ((after (.wrChA0a 0 0x44) State.reset).chan 0).fNum = 0x044 ∧
    ((after (.wrChA0a 0 0x44) (start paired)).chan 3).fNum = 0x044 ∧
    ((after (.wrChA0a 3 0x55) (start paired)).chan 3).fNum = 0 := by decide +kernel

theorem test_wrChA0b : ((after (.wrChA0b 17 0x55) State.reset).chan 17).fNum = 0x055 := by decide +kernel

/-- 95_test_vectors.md 2.2: F-number 0x244, block 4, `ksv` 9 (8 with NTS = 1). -/
theorem test_wrChB0 :
    let low (c : Chip) : Chip := c.modChan 0 fun ch => { ch with fNum := 0x044 }
    ((after (.wrChB0a 0 0x12) (start low)).chan 0).fNum = 0x244 ∧ ((after (.wrChB0a 0 0x12) (start low)).chan 0).ksv = 9 ∧
    ((after (.wrChB0a 0 0x12) (start fun c => { low c with nts := true })).chan 0).ksv = 8 := by decide +kernel

/-- 95_test_vectors.md 2.2: a key-on of a pair reaches slots 0, 3, 6 and 9; row b keys its own channel's slots. -/
theorem test_wrChB0_keys : ((after (.wrChB0a 0 0x32) (start paired)).slot 9).key = 1 ∧
    ((after (.wrChB0a 3 0x32) (start paired)).slot 6).key = 0 ∧
    ((after (.wrChB0b 8 0x32) State.reset).slot 17).key = 1 := by decide +kernel

/-- 95_test_vectors.md 2.2: WR 0x0C0, 0x31 with `newm = 1`, and 0x00 with `newm = 0`. -/
theorem test_wrChC0 :
    let ch := (after (.wrChC0a 0 0x31) (start fun c => { c with newm := true })).chan 0
    ch.con = true ∧ ch.cha = true ∧ ch.chb = true ∧ ch.chc = false ∧ ch.chd = false ∧ ch.out = outs [0, 3] ∧
    ((after (.wrChC0a 0 0x00) State.reset).chan 0).cha = true := by decide +kernel

/-- 95_test_vectors.md 2.2: WR 0x0C0, 0x0E with `newm = 1`, on row b's channel. -/
theorem test_wrChC0b :
    let ch := (after (.wrChC0b 17 0x0E) (start fun c => { c with newm := true })).chan 17
    ch.fb = 7 ∧ ch.con = false ∧ ch.cha = false ∧ ch.chb = false := by decide +kernel

/-- 95_test_vectors.md 2.2: WR 0x0BD, 0x30. -/
theorem test_wrRhy_on : ((after (.wrRhy 0x30) State.reset).chan 6).out = outs [15, 15] ∧
    ((after (.wrRhy 0x30) State.reset).chan 8).chtype = .drum ∧ ((after (.wrRhy 0x30) State.reset).slot 12).key = 2 ∧
    ((after (.wrRhy 0x30) State.reset).slot 13).key = 0 := by decide +kernel

/-- 95_test_vectors.md 2.2: WR 0x0BD, 0xC0; and rhythm off clears the drum key alone. -/
theorem test_wrRhy_off : (after (.wrRhy 0xC0) State.reset).tremoloshift = 2 ∧
    (after (.wrRhy 0xC0) State.reset).vibshift = 0 ∧
    ((after (.wrRhy 0x00) (start fun c => c.modSlot 12 fun s => { s with key := 3 })).slot 12).key = 1 := by
  decide +kernel

/-- R219: nothing changes. -/
theorem test_wrIgnored : after (.wrIgnored 0x1BD 0x3F) State.reset = State.reset.chip := by decide +kernel

/-- Log entry 2: the placed word runs at the very next step. -/
theorem test_withFetchWord : (match step (State.reset.withFetchWord 24 0x10501) with
    | .next t => t.chip.newm && t.pending.isEmpty
    | .fault _ => false
    | .refused _ => false) = true := by decide +kernel

/-! ### The generators, from the tables of 95_test_vectors.md -/

/-- 2.3: increments 4640, 46400 (MULT 11), 0 (F-number 1) and 982080. -/
theorem test_phaseInc : phaseInc 0x244 4 1 = 4640 ∧ phaseInc 0x244 4 11 = 46400 ∧ phaseInc 1 0 1 = 0 ∧
    phaseInc 0x3FF 7 15 = 982080 := by decide

/-- 2.4. -/
theorem test_effFnum : effFnum 0x3FF true 2 0 = 1030 ∧ effFnum 0x3FF true 2 1 = 1026 ∧ effFnum 0x3FF true 1 0 = 1026 ∧
    effFnum 0x3FF true 6 0 = 1016 ∧ effFnum 0x3FF true 5 1 = 1022 ∧ effFnum 0x07F true 2 0 = 127 := by decide

/-- 2.5: the LFSR's steps 1, 2, 15 and 36. -/
theorem test_noise : noiseNext 1 = 0x400000 ∧ noiseNext (noiseNext 1) = 0x200000 ∧ noiseNext^[15] 1 = 0x020100 ∧
    noiseNext^[36] 1 = 0x004420 := by decide +kernel

/-- 2.5, rows 4 and 6 of the rhythm phases. -/
theorem test_rhythm_phases :
    let c := { State.reset.chip with rmHhBit2 := true }
    let e := { State.reset.chip with rmHhBit8 := true }
    hiHatPhase c true = 0x234 ∧ snarePhase c true = 0x100 ∧ cymbalPhase c = 0x280 ∧ hiHatPhase e true = 0x0D0 ∧
    snarePhase e true = 0x200 ∧ cymbalPhase e = 0x080 := by decide +kernel

/-- 2.6: `exp_lin`. -/
theorem test_expLin : expLin params 0 = 4084 ∧ expLin params 0xFF = 2048 ∧ expLin params 0x100 = 2042 ∧
    expLin params 0x859 = 12 ∧ expLin params 0x2500 = 0 := by decide +kernel

/-- 2.6: waveforms 0 to 3. -/
theorem test_wave_sines : wave params 0 0x280 0 = -2897 ∧ wave params 0 0x200 0x1FF = -1 ∧ wave params 1 0x300 0 = 0 ∧
    wave params 2 0x280 0 = 2896 ∧ wave params 3 0x0FF 0 = 4084 ∧ wave params 3 0x100 0 = 0 := by decide +kernel

/-- 2.6: waveforms 4 to 7. -/
theorem test_wave_others : wave params 4 0x100 0 = -13 ∧ wave params 4 0x180 0 = -4085 ∧ wave params 5 0x180 0 = 4084 ∧
    wave params 6 0x200 0 = -4085 ∧ wave params 7 0x0FF 0 = 16 ∧ wave params 7 0x100 0 = 15 ∧
    wave params 7 0x300 0 = -17 := by decide +kernel

/-- 2.7 and 2.8: key scaling and rate selection. -/
theorem test_key_scaling : kslOf 0x244 4 = 104 ∧ kslOf 0x244 0 = 0 ∧ kslOf 0x3FF 7 = 224 ∧ ksvOf false 0x244 4 = 9 ∧
    ksvOf true 0x244 4 = 8 ∧ rateHi 75 = 15 ∧ rateLo 75 = 3 ∧ rateHi 59 = 14 := by decide

/-- 2.10, attack with AR = 12 and 14: from 511 to 447 and to 383. -/
theorem test_attack_increment :
    let s : Slot := { slotReset with key := 1, egGen := .attack, regAr := 12 }
    egInc s 48 1 = -64 ∧ egInc s 56 2 = -128 := by decide

/-! ### Witnesses -/

/-- A legal chip with a pair, and one in rhythm mode. -/
theorem test_legal_states : (start paired).chip.Legal ∧ (after (.wrRhy 0x3F) State.reset).Legal :=
  ⟨by decide +kernel, by decide +kernel⟩

theorem test_witness_DecodeOfEncodeIsTheCommand :
    ([.reset 0, .render, .wrNts 0, .wr4op 0, .wrNew 0, .wrOp20a 0 0, .wrOp20b 23 0, .wrOp20c 12 0, .wrOp20d 35 0,
      .wrOp40a 27 0, .wrOp40b 4 0, .wrOp40c 33 0, .wrOp40d 16 0, .wrOp60a 0 0, .wrOp60b 10 0, .wrOp60c 30 0,
      .wrOp60d 17 0, .wrOp80a 9 0, .wrOp80b 29 0, .wrOp80c 15 0, .wrOp80d 34 0, .wrOpE0a 21 0, .wrOpE0b 5 0,
      .wrOpE0c 13 0, .wrOpE0d 35 0, .wrChA0a 0 0, .wrChA0b 8 0, .wrRhy 0, .wrChB0a 16 0, .wrChB0b 17 0, .wrChC0a 7 0,
      .wrChC0b 17 0, .wrIgnored 0x1FF 0] : List Instr).all Instr.wf = true := by decide

theorem test_witness_StepRunsTheDecodedCommand :
    (State.reset.withFetchWord 24 0x02021).pending = .write 0x20 0x21 :: [] ∧
    decode (.write 0x20 0x21) = .ok (.wrOp20a 0 0x21) ∧ State.reset.pending = [] := ⟨rfl, rfl, rfl⟩

theorem test_witness_WriteCallWritesOrDoesNothing : neverReset.chip.valid = false ∧ (-1 : Int) < 0 ∧
    (0x1FF : Int) < 0x200 ∧ (0 : Int) ≤ 0 ∧ (0x1FF : Int) ≤ 0x1FF := by decide +kernel

theorem test_witness_ErrorsAreExactlyTwoAndPrecise :
    returns .render neverReset = .error .notReset ∧ returns (.reset 3181824) State.reset = .error .invalidRate ∧
    returns (.reset 48) State.reset = .error .invalidRate ∧ neverReset.chip.valid = false := by decide +kernel

theorem test_witness_WriteBeforeResetHasNoEffect : neverReset.chip.valid = false ∧
    isRegisterWrite (.wrNew 1) = true := by decide +kernel

theorem test_witness_UnresetFieldsAreNeverRead :
    Agree neverReset { neverReset with chip := { neverReset.chip with nts := true } } ∧
    neverReset ≠ { neverReset with chip := { neverReset.chip with nts := true } } :=
  ⟨⟨rfl, rfl, .inr ⟨rfl, rfl⟩⟩, by decide +kernel⟩

theorem test_witness_RunFromResetForgetsThePast : validRate 49 ∧
    ({ neverReset with pending := [.reset 49, .render] } : State).pending =
      .reset 49 :: ({ State.reset with pending := [.render] } : State).pending := by decide +kernel

/-- The lowest and the highest accepted rate: for ResetGivesEveryFieldItsResetValue, ResetStatesAreLegal,
TicksRunAreTheClosedForm and SilenceAfterReset. -/
theorem test_witness_validRate : validRate 49 ∧ validRate 3181823 ∧ ¬ validRate 48 ∧ ¬ validRate 3181824 := by decide

theorem test_witness_ResetStatesAreLegal : (after (.reset 49) neverReset).valid = true ∧
    (after (.reset 3181823) neverReset).rateratio = 65535 := by decide +kernel

theorem test_witness_StepKeepsLegalStates : State.reset.Inv ∧ (start paired).Inv ∧
    step State.reset = .next State.reset := ⟨by decide +kernel, by decide +kernel, rfl⟩

/-- A reset instance: for the statements about register writes and RENDER. -/
theorem test_witness_valid : State.reset.chip.valid = true ∧ 1 ≤ State.reset.chip.rateratio ∧ State.reset.chip.Legal := by
  decide +kernel

/-- Every case of the WR_4OP statement: a bit set under NEW = 1 and NEW = 0, and a bit clear. -/
theorem test_witness_FourOpWritePairsAndReroutes : (5, 11, 14) ∈ pairs ∧ (0x20 : Byte).getLsbD 5 = true ∧
    (0x1F : Byte).getLsbD 5 = false ∧ (start paired).chip.newm = true ∧ State.reset.chip.newm = false ∧
    pair 8 = none ∧ pair 17 = none := by decide +kernel

/-- The cases of the WR_CHA0 and WR_CHB0 statements: second channel, first channel with its pair, and neither. -/
theorem test_witness_ChA0AndChB0 : (start paired).chip.newm = true ∧ ((start paired).chip.chan 3).chtype = .fourOp2 ∧
    ((start paired).chip.chan 0).chtype = .fourOp ∧ pair 0 = some 3 ∧ channelOf 9 = 3 ∧
    ((start paired).chip.chan 17).chtype = .twoOp ∧ channelOf 35 = 17 := by decide +kernel

/-- A two-operator channel in a pairable position with NEW = 1: its neighbour, channel 3, is no partner. -/
theorem test_witness_ChC0_unpaired :
    let s := start fun c => { c with newm := true }
    s.chip.Legal ∧ (s.chip.newm = true ∧ (s.chip.chan 0).chtype = .twoOp ∧ pair 0 = some 3 ∧ channelOf 6 = 3) :=
  ⟨by decide +kernel, by decide +kernel⟩

/-- The cases of the WR_CHC0 statement: both channels of a pair, two operators, and drums 6, 7 and 8. -/
theorem test_witness_ChC0 : ((start paired).chip.Legal ∧ (after (.wrRhy 0x20) State.reset).Legal) ∧
    pair 0 = some 3 ∧ pair 3 = some 0 ∧ ((start paired).chip.chan 17).chtype = .twoOp ∧
    (after (.wrRhy 0x20) State.reset).valid = true ∧ ((after (.wrRhy 0x20) State.reset).chan 6).chtype = .drum ∧
    ((after (.wrRhy 0x20) State.reset).chan 7).chtype = .drum ∧
    ((after (.wrRhy 0x20) State.reset).chan 8).chtype = .drum :=
  ⟨⟨by decide +kernel, by decide +kernel⟩, by decide +kernel⟩

theorem test_witness_RhyWrites : (State.reset.chip.Legal ∧ (after (.wrRhy 0x20) State.reset).Legal) ∧
    (0x20 : Byte).getLsbD 5 = true ∧ (0xDF : Byte).getLsbD 5 = false :=
  ⟨⟨by decide +kernel, by decide +kernel⟩, by decide⟩

theorem test_witness_RegisterWritesNeverTouchTickState : isRegisterWrite (.wrChC0b 17 0xFF) = true := by decide

/-- A run of two equal commands that changes the state the first time; and RESET. -/
theorem test_witness_RepeatedWriteOrResetIsIdempotent : Instr.wrNew 1 ≠ .render ∧ Instr.reset 49 ≠ .render ∧
    (after (.wrNew 1) State.reset).newm = true ∧ (after (.reset 49) State.reset).rateratio = 1 := by decide +kernel

theorem test_witness_KeyOffOnWithoutTickChangesNothing : (0x32 : Byte).getLsbD 5 = true ∧
    (0x12 : Byte) = 0x32 ^^^ 0x20 ∧ ((after (.wrChB0a 0 0x32) State.reset).slot 0).key = 1 := by decide +kernel

/-- Slot 3 in each stage, keyed and not, at the levels where the stage and off conditions meet: for the statements
about the stage machine, monotony, the instant attack and the off jump. -/
theorem test_witness_stages :
    let at' (k : BitVec 2) (g : EgGen) (l : BitVec 9) : Slot :=
      (slot3 (fun s => { s with key := k, egGen := g, egRout := l, regSl := 2, regAr := 15, regRr := 15 })
        State.reset.chip).slot 3
    (at' 1 .release 0x1FF).key ≠ 0 ∧ (at' 1 .release 0x1FF).egGen = .release ∧ (at' 0 .release 0x1F8).key = 0 ∧
    (at' 1 .attack 0).egRout = 0 ∧ (at' 1 .decay 0x20).egRout.toNat / 16 = (at' 1 .decay 0x20).regSl.toNat ∧
    (at' 1 .sustain 0x1F7).egRout.toNat < 0x1F8 ∧ 0x1F8 ≤ (at' 0 .release 0x1F8).egRout.toNat ∧
    60 ≤ 0 + 4 * (at' 1 .release 0).regAr.toNat := by decide +kernel

/-- R380, R383: a tick steps each of the 36 slots once, so each accumulator holds one increment (2.3: F-number 0x244,
block 4 and MULT 1 give 4640). -/
theorem test_tick_steps_every_slot_once :
    let c : Chip := { State.reset.chip with
      chans := State.reset.chip.chans.map fun ch => { ch with fNum := 0x244, block := 4 }
      slots := State.reset.chip.slots.map fun s => { s with regMult := 1 } }
    ((List.finRange 36).all fun i => ((tick params c).1.slot i).pgPhase == 4640) = true := by decide +kernel

/-- R253: slot 13 captures with rhythm off, slot 17 does not, and does with rhythm on; slot 16 captures nothing. -/
theorem test_rhythm_capture :
    let moved (i : SlotIdx) (c : Chip) : Chip := c.modSlot i fun s => { s with pgPhase := 0xFFFFFFFF }
    (slotStep params 13 (moved 13 State.reset.chip)).rmHhBit8 = true ∧
    (slotStep params 17 (moved 17 State.reset.chip)).rmTcBit5 = false ∧
    (slotStep params 17 (moved 17 { State.reset.chip with rhy := 0x20 })).rmTcBit5 = true ∧
    (slotStep params 16 (moved 16 { State.reset.chip with rhy := 0x20 })).rmHhBit8 = false := by decide +kernel

/-- The reset state's slots are off. -/
theorem test_witness_OffSlotsStaySilent : (State.reset.chip.slot 35).key = 0 ∧
    (State.reset.chip.slot 35).egGen = .release ∧ (State.reset.chip.slot 35).egRout = 0x1FF := by decide +kernel

/-- The three stuck cases: AR = 0, the slowest rate that counts as 60, EGT = 1, and RR = 0 at the last level below the
off condition. -/
theorem test_witness_StuckEnvelopesHold :
    let stuck (k : BitVec 2) (g : EgGen) (ar : BitVec 4) : Slot :=
      (slot3 (fun s => { s with key := k, egGen := g, egRout := 0x1F7, regAr := ar, regType := true }) State.reset.chip).slot 3
    ((stuck 1 .attack 0).regAr = 0 ∧ (stuck 1 .attack 0).egRout ≠ 0 ∧ (stuck 1 .attack 0).key ≠ 0) ∧
    (60 ≤ 0 + 4 * (stuck 1 .attack 15).regAr.toNat) ∧
    ((stuck 1 .sustain 0).regType = true ∧ (stuck 1 .sustain 0).egRout.toNat < 0x1F8) ∧
    ((stuck 0 .release 0).regRr = 0 ∧ (stuck 0 .release 0).key = 0 ∧ (stuck 0 .release 0).egGen = .release) := by
  decide +kernel

/-- Each clause of the level statement, with the shift of a slow and of a fast rate. -/
theorem test_witness_EnvelopeLevelMovesByItsRate :
    rateShift { State.reset.chip with egState := true, egAdd := 1 } 0 11 = 1 ∧ rateShift State.reset.chip 0 15 = 3 ∧
    rateShift State.reset.chip 15 0 = 0 ∧ 0 + 4 * (14 : BitVec 4).toNat < 60 ∧ (0x1F7 : BitVec 9).toNat < 0x1F8 := by
  decide +kernel

theorem test_witness_RhythmPhasesReplaceSlotPhases : (after (.wrRhy 0x20) State.reset).rhythmOn = true ∧
    State.reset.chip.rhythmOn = false := by decide +kernel

theorem test_witness_NoiseIsANonzeroLfsr : State.reset.chip.noise ≠ 0 ∧ (1 : BitVec 23) ≠ 0 := by decide +kernel

theorem test_witness_LegalChannelSumsNeverWrap : State.reset.chip.Legal := by decide +kernel

/-- Each clause of the envelope timer statement: sampling or not, the last position k = 12, none, and the carry. -/
theorem test_witness_TickAdvancesEnvelopeTimer : State.reset.chip.egState = false ∧ State.reset.chip.egTimerrem = false ∧
    ({ State.reset.chip with egState := true } : Chip).egState = true ∧ 2 ^ 12 ∣ 4096 ∧ ¬ 2 ^ 13 ∣ 4096 ∧ 2 ^ 13 ∣ 8192 ∧
    (BitVec.allOnes 36).toNat = 2 ^ 36 - 1 := by decide +kernel

theorem test_witness_FramesLieBetweenSamples : State.reset.chip.samplecnt < State.reset.chip.rateratio := by
  decide +kernel

/-- RENDER answers a next state, and on an instance that was never reset too. -/
theorem test_witness_RenderNeverTouchesRegisters : returns .render State.reset = .frame 0 0 ∧
    returns .render neverReset = .error .notReset := by decide +kernel

/-- At ratio 1 the count of ticks meets its bound of 1024, and the first frame after a reset runs none. -/
theorem test_witness_RenderTickCountIsBounded :
    let c : Chip := { State.reset.chip with rateratio := 1, samplecnt := 1024 }
    (c.Legal ∧ c.valid = true ∧ 1024 ≤ c.samplecnt) ∧ State.reset.chip.Legal ∧ State.reset.chip.samplecnt = 0 :=
  ⟨⟨by decide +kernel, by decide +kernel, by decide +kernel⟩, by decide +kernel, by decide +kernel⟩

theorem test_witness_TicksRunAreTheClosedForm : validRate 49716 ∧
    (∀ x, Call.reset x ∉ [Call.render, .write 0xB0 0x32, .render]) ∧
    renders [Call.render, .write 0xB0 0x32, .render] = 1 + 1 :=
  ⟨by decide, by simp, rfl⟩

theorem test_witness_SilenceAfterReset :
    ({ neverReset with pending := [.reset 49, .render, .render] } : State).pending =
      .reset 49 :: List.replicate (1 + 1) .render ++ [] := rfl

theorem test_witness_RenderStopsOnlyOnZeroRatio :
    exec .render (start fun c => { c with rateratio := 0 }) = .fault .renderNeverEnds := rfl

end Sys2Proof.Tests
end

/-! R125. The 30 rows of the opcode table are four single addresses, five operator families and three channel
families. Each family is a condition on the address alone, and the list of R125 is what no condition holds of. -/

namespace Sys2Proof

open Spec

/-! ### The rows of one family -/

/-- A mask that skips the top bits and keeps the middle ones looks at the middle and the low bits apart. -/
theorem and_append_eq_append_iff {u v w : Nat} (x : BitVec (u + v + w)) (f : BitVec v) (m p : BitVec w) :
    x &&& (0#u ++ BitVec.allOnes v ++ m) = 0#u ++ f ++ p ↔ x.extractLsb' w v = f ∧ x.extractLsb' 0 w &&& m = p := by
  have mid (g : BitVec v) (k : BitVec w) : (0#u ++ g ++ k).extractLsb' w v = g := by
    rw [BitVec.extractLsb'_append_eq_of_le le_rfl, Nat.sub_self, BitVec.extractLsb'_append_eq_right]
  constructor
  · intro h
    have hmid := congrArg (BitVec.extractLsb' w v) h
    have hlow := congrArg (BitVec.extractLsb' 0 w) h
    rw [BitVec.extractLsb'_and, mid, mid, BitVec.and_allOnes] at hmid
    rw [BitVec.extractLsb'_and, BitVec.extractLsb'_append_eq_right, BitVec.extractLsb'_append_eq_right] at hlow
    exact ⟨hmid, hlow⟩
  · rintro ⟨rfl, rfl⟩
    ext i hi
    simp only [BitVec.getElem_and, BitVec.getElem_append]
    grind

theorem wordMatches_cmdWord_iff {a m p : RegAddr} {d : Byte} :
    wordMatches (cmdWord a d) (cmdWord m 0) (cmdWord p 0) = true ↔ a &&& m = p := by
  rw [wordMatches_cmdWord, beq_iff_eq]

/-- The word matches one of the four rows, parts a to d of R124, of the operator family with R[7:5] = `f`. -/
def matchesOperator (f : BitVec 3) (w : CmdWord) : Prop :=
  wordMatches w 0x0F400 (cmdWord (0#1 ++ f ++ 0x00#5) 0) ∨ wordMatches w 0x0F600 (cmdWord (0#1 ++ f ++ 0x04#5) 0) ∨
  wordMatches w 0x0FC00 (cmdWord (0#1 ++ f ++ 0x10#5) 0) ∨ wordMatches w 0x0FE00 (cmdWord (0#1 ++ f ++ 0x14#5) 0)

/-- The word matches one of the two rows, N = 0 to 7 and N = 8, of the channel family with G = `g` (R122). -/
def matchesChannel (g : BitVec 4) (w : CmdWord) : Prop :=
  wordMatches w 0x0F800 (cmdWord (0#1 ++ g ++ 0x0#4) 0) ∨ wordMatches w 0x0FF00 (cmdWord (0#1 ++ g ++ 0x8#4) 0)

/-- The four parts of R124 are together the valid offsets. -/
theorem matchesOperator_cmdWord (f : BitVec 3) (a : RegAddr) (d : Byte) :
    matchesOperator f (cmdWord a d) ↔ a.extractLsb' 5 3 = f ∧ offsetValid (a.extractLsb' 0 5) = true := by
  have row (m p : BitVec 5) : wordMatches (cmdWord a d) (cmdWord (0#1 ++ BitVec.allOnes 3 ++ m) 0)
      (cmdWord (0#1 ++ f ++ p) 0) = true ↔ a.extractLsb' 5 3 = f ∧ a.extractLsb' 0 5 &&& m = p :=
    wordMatches_cmdWord_iff.trans (and_append_eq_append_iff a f m p)
  have parts : ∀ o : BitVec 5, (o &&& 0x14 = 0x00 ∨ o &&& 0x16 = 0x04 ∨ o &&& 0x1C = 0x10 ∨ o &&& 0x1E = 0x14) ↔
      offsetValid o = true := by decide
  rw [← parts, and_or_left, and_or_left, and_or_left]
  exact or_congr (row 0x14 0x00) (or_congr (row 0x16 0x04) (or_congr (row 0x1C 0x10) (row 0x1E 0x14)))

/-- The two rows of a channel family are together N ≤ 8. -/
theorem matchesChannel_cmdWord (g : BitVec 4) (a : RegAddr) (d : Byte) :
    matchesChannel g (cmdWord a d) ↔ a.extractLsb' 4 4 = g ∧ (a.extractLsb' 0 4).toNat ≤ 8 := by
  have row (m p : BitVec 4) : wordMatches (cmdWord a d) (cmdWord (0#1 ++ BitVec.allOnes 4 ++ m) 0)
      (cmdWord (0#1 ++ g ++ p) 0) = true ↔ a.extractLsb' 4 4 = g ∧ a.extractLsb' 0 4 &&& m = p :=
    wordMatches_cmdWord_iff.trans (and_append_eq_append_iff a g m p)
  have rows : ∀ n : BitVec 4, (n &&& 0x8 = 0x0 ∨ n &&& 0xF = 0x8) ↔ n.toNat ≤ 8 := by decide
  rw [← rows, and_or_left]
  exact or_congr (row 0x8 0x0) (row 0xF 0x8)

/-- A row with the full mask matches its one address. -/
theorem wordMatches_address (a b : RegAddr) (d : Byte) :
    wordMatches (cmdWord a d) 0x1FF00 (cmdWord b 0) = true ↔ a = b := by
  have h := wordMatches_cmdWord_iff (a := a) (d := d) (m := BitVec.allOnes 9) (p := b)
  rwa [BitVec.and_allOnes] at h

/-! ### The catch-all -/

/-- R121: a word decodes to WR_IGNORED when no family matches. -/
theorem decodeWord_eq_wrIgnored_iff (w : CmdWord) :
    decodeWord w = .wrIgnored (wordAddr w) (wordData w) ↔
      ¬ wordMatches w 0x1FF00 (cmdWord 0x008 0) ∧ ¬ wordMatches w 0x1FF00 (cmdWord 0x104 0) ∧
      ¬ wordMatches w 0x1FF00 (cmdWord 0x105 0) ∧ ¬ matchesOperator 1 w ∧ ¬ matchesOperator 2 w ∧
      ¬ matchesOperator 3 w ∧ ¬ matchesOperator 4 w ∧ ¬ matchesOperator 7 w ∧ ¬ matchesChannel 0xA w ∧
      ¬ wordMatches w 0x1FF00 (cmdWord 0x0BD 0) ∧ ¬ matchesChannel 0xB w ∧ ¬ matchesChannel 0xC w := by
  simp only [decodeWord, ite_eq_iff, reduceCtorEq, and_false, false_or, and_true, matchesOperator, matchesChannel,
    not_or, and_assoc]
  exact Iff.rfl

/-! ### The list of R125 -/

theorem offsetValid_eq (o : BitVec 5) : offsetValid o = (decide (o.toNat % 8 ≤ 5) && decide (o.toNat ≤ 21)) := by
  simp [offsetValid, Nat.and_two_pow_sub_one_eq_mod o.toNat 3]

/-- The three ranges of one base in R125's list are the base's 32 addresses with an invalid offset. -/
theorem invalidOffset_eq (b n : Nat) (hb : b % 32 = 0) :
    (decide (b + 0x06 ≤ n) && decide (n ≤ b + 0x07) || decide (b + 0x0E ≤ n) && decide (n ≤ b + 0x0F) ||
      decide (b + 0x16 ≤ n) && decide (n ≤ b + 0x1F)) =
    (decide (n / 32 = b / 32) && !(decide (n % 32 % 8 ≤ 5) && decide (n % 32 ≤ 21))) := by
  rw [Bool.eq_iff_iff]
  simp only [Bool.or_eq_true, Bool.and_eq_true, Bool.not_eq_true', Bool.and_eq_false_iff, decide_eq_true_eq,
    decide_eq_false_iff_not]
  omega

/-- R125 lists the addresses that no family condition holds of: shown for each page of 32 addresses, on which the bank
and R[7:5] are fixed. -/
theorem decodeWord_cmdWord_eq_wrIgnored_iff (a : RegAddr) (d : Byte) :
    decodeWord (cmdWord a d) = .wrIgnored a d ↔ listedIgnored a.toNat = true := by
  have families := decodeWord_eq_wrIgnored_iff (cmdWord a d)
  simp only [wordAddr_cmdWord, wordData_cmdWord, wordMatches_address, matchesOperator_cmdWord, matchesChannel_cmdWord,
    offsetValid_eq, ← BitVec.toNat_inj, BitVec.extractLsb'_toNat, Nat.shiftRight_eq_div_pow] at families
  rw [families]
  have ha : a.toNat < 512 := a.isLt
  clear families
  generalize a.toNat = n at *
  simp only [listedIgnored, List.any_cons, List.any_nil, Bool.or_false, -Nat.reduceAdd]
  simp (disch := decide) only [invalidOffset_eq, -Nat.reduceAdd]
  simp only [BitVec.ofNat_eq_ofNat, BitVec.toNat_ofNat, Nat.reducePow, Nat.reduceMod, Nat.reduceDiv, Nat.div_one,
    Bool.or_eq_true, Bool.and_eq_true, Bool.not_eq_true', Bool.and_eq_false_iff, decide_eq_true_eq,
    decide_eq_false_iff_not]
  have hpage : n / 32 < 16 := by omega
  generalize hn : n / 32 = page at *
  interval_cases page <;>
    simp only [Nat.reduceEqDiff, Nat.reduceMod, false_and, true_and, false_or, or_false, not_false_eq_true] <;> omega

/-- R219: WR_IGNORED has no effect, before the first reset and after it. -/
theorem exec_wrIgnored (a : RegAddr) (d : Byte) (s : Machine.State) :
    Machine.exec (.wrIgnored a d) s = .next s.noEffect := by
  show Host.Outcome.next (s.regWrite id) = _
  cases h : s.chip.valid with
  | false => rw [Machine.State.regWrite_of_not_valid id h]
  | true => rw [Machine.State.regWrite_of_valid id h]; rfl

/-- Settles O4: the families' conditions on the address leave R125's list, and a write to it applies the identity. -/
theorem ignoredAddressesAreTheListedOnes : Obligations.IgnoredAddressesAreTheListedOnes :=
  ⟨decodeWord_cmdWord_eq_wrIgnored_iff, exec_wrIgnored⟩

end Sys2Proof

/-! R201, R203, R219 and R204 to R208. After a reset a register write is its effect on the block; that of an operator
register is one slot record replaced. The fields of D are written in the statements' own arithmetic first. -/

namespace Sys2Proof.Machine

open Spec

/-! ### The fields of the data byte -/

theorem field_eq_ofNat_div (d : Byte) (lo len : Nat) : field d lo len = BitVec.ofNat len (d.toNat / 2 ^ lo) := by
  rw [← Nat.shiftRight_eq_div_pow]
  rfl

/-- A field at bit 0 is a remainder. -/
theorem field_zero_eq_ofNat_mod (d : Byte) (len : Nat) : field d 0 len = BitVec.ofNat len (d.toNat % 2 ^ len) := by
  apply BitVec.eq_of_toNat_eq
  simp [field_eq_ofNat_div]

/-- R207's stored sustain level. -/
theorem storedSl_field (d : Byte) :
    storedSl (field d 4 4) = if d.toNat / 16 = 15 then 31 else BitVec.ofNat 5 (d.toNat / 16) := by
  revert d; decide +kernel

/-- R208's stored waveform. -/
theorem storedWf_field (newm : Bool) (d : Byte) :
    storedWf newm (field d 0 3) = BitVec.ofNat 3 (if newm then d.toNat % 8 else d.toNat % 4) := by
  revert newm d; decide +kernel

/-- R301 in natural numbers. -/
theorem kslOf_eq_ksl (f : BitVec 10) (block : BitVec 3) : kslOf f block = ksl f block := by
  simp only [kslOf, ksl, kslRom, BitVec.toNat_ushiftRight, Nat.shiftRight_eq_div_pow, Nat.shiftLeft_eq]
  generalize List.getD _ _ _ = rom
  omega

/-! ### The write of one slot -/

@[simp] theorem Chip.setSlot_setSlot (c : Chip) (i : SlotIdx) (x y : Slot) :
    (c.setSlot i x).setSlot i y = c.setSlot i y := by
  simp [Chip.setSlot]

theorem regWrite_chip_of_valid {s : State} (f : Chip → Chip) (h : s.chip.valid = true) :
    (s.regWrite f).chip = f s.chip := by
  rw [State.regWrite_of_valid f h]

/-- What a register write is that replaces the record of slot `i` by `x`. -/
theorem regWrite_setSlot {s : State} {f : Chip → Chip} {i : SlotIdx} {x : Slot} (hv : s.chip.valid = true)
    (hf : f s.chip = s.chip.setSlot i x) :
    (s.regWrite f).result = .returned ∧ (s.regWrite f).pending = s.pending ∧
      s.chip.SameGlobals (s.regWrite f).chip ∧ (∀ n, (s.regWrite f).chip.chan n = s.chip.chan n) ∧
      ∀ j, (s.regWrite f).chip.slot j = if j = i then x else s.chip.slot j := by
  rw [State.regWrite_of_valid f hv, hf]
  exact ⟨rfl, rfl, rfl, fun _ => rfl, fun j => Chip.slot_setSlot s.chip i j x⟩

theorem writeOp20_eq_setSlot (i : SlotIdx) (d : Byte) (c : Chip) :
    writeOp20 i d c = c.setSlot i { c.slot i with
      tremEn := d.getLsbD 7, regVib := d.getLsbD 6, regType := d.getLsbD 5, regKsr := d.getLsbD 4
      regMult := BitVec.ofNat 4 (d.toNat % 16) } := by
  simp only [writeOp20, Chip.modSlot, bit, field_zero_eq_ofNat_mod, Nat.reducePow]

theorem writeOp40_eq_setSlot (i : SlotIdx) (d : Byte) (c : Chip) :
    writeOp40 i d c = c.setSlot i { c.slot i with
      regKsl := BitVec.ofNat 2 (d.toNat / 64), regTl := BitVec.ofNat 6 (d.toNat % 64)
      egKsl := ksl (c.chan (channelOf i)).fNum (c.chan (channelOf i)).block } := by
  simp only [writeOp40, updateKsl, Chip.modSlot, Chip.setSlot_setSlot, Chip.slot_setSlot_self, Chip.chan_setSlot,
    kslOf_eq_ksl, field_zero_eq_ofNat_mod, field_eq_ofNat_div d 6, Nat.reducePow]

theorem writeOp60_eq_setSlot (i : SlotIdx) (d : Byte) (c : Chip) :
    writeOp60 i d c = c.setSlot i { c.slot i with
      regAr := BitVec.ofNat 4 (d.toNat / 16), regDr := BitVec.ofNat 4 (d.toNat % 16) } := by
  simp only [writeOp60, Chip.modSlot, field_zero_eq_ofNat_mod, field_eq_ofNat_div d 4, Nat.reducePow]

theorem writeOp80_eq_setSlot (i : SlotIdx) (d : Byte) (c : Chip) :
    writeOp80 i d c = c.setSlot i { c.slot i with
      regSl := if d.toNat / 16 = 15 then 31 else BitVec.ofNat 5 (d.toNat / 16)
      regRr := BitVec.ofNat 4 (d.toNat % 16) } := by
  simp only [writeOp80, Chip.modSlot, storedSl_field, field_zero_eq_ofNat_mod, Nat.reducePow]

theorem writeOpE0_eq_setSlot (i : SlotIdx) (d : Byte) (c : Chip) :
    writeOpE0 i d c = c.setSlot i { c.slot i with
      regWf := BitVec.ofNat 3 (if c.newm then d.toNat % 8 else d.toNat % 4) } := by
  simp only [writeOpE0, Chip.modSlot, storedWf_field]

/-! ### The settled statements -/

/-- Settles O16: the three effects are one global field replaced, and nothing. -/
theorem globalControlWrites : Obligations.GlobalControlWrites := by
  intro s d a hv
  refine ⟨?_, ?_, exec_wrIgnored a d s⟩
  · exact congrArg Host.Outcome.next (State.regWrite_of_valid (writeNts d) hv)
  · exact congrArg Host.Outcome.next (State.regWrite_of_valid (writeNew d) hv)

/-- Settles O18. -/
theorem op20WriteStoresAmVibEgtKsrMult : Obligations.Op20WriteStoresAmVibEgtKsrMult := fun s i d hv =>
  ⟨s.regWrite (writeOp20 i d), rfl, rfl, rfl, rfl, regWrite_setSlot hv (writeOp20_eq_setSlot i d s.chip)⟩

/-- Settles O19: the level is recomputed after the store, from a channel the store left alone. -/
theorem op40WriteStoresKslTlAndKeyScaleLevel : Obligations.Op40WriteStoresKslTlAndKeyScaleLevel := fun s i d hv =>
  ⟨s.regWrite (writeOp40 i d), rfl, rfl, rfl, rfl, regWrite_setSlot hv (writeOp40_eq_setSlot i d s.chip)⟩

/-- Settles O20. -/
theorem op60WriteStoresAttackAndDecayRate : Obligations.Op60WriteStoresAttackAndDecayRate := fun s i d hv =>
  ⟨s.regWrite (writeOp60 i d), rfl, rfl, rfl, rfl, regWrite_setSlot hv (writeOp60_eq_setSlot i d s.chip)⟩

/-- Settles O21. -/
theorem op80WriteStoresSustainLevelAndReleaseRate : Obligations.Op80WriteStoresSustainLevelAndReleaseRate :=
  fun s i d hv =>
    ⟨s.regWrite (writeOp80 i d), rfl, rfl, rfl, rfl, regWrite_setSlot hv (writeOp80_eq_setSlot i d s.chip)⟩

/-- Settles O22. -/
theorem opE0WriteStoresWaveformUnderNew : Obligations.OpE0WriteStoresWaveformUnderNew := fun s i d hv =>
  ⟨s.regWrite (writeOpE0 i d), rfl, rfl, rfl, rfl, regWrite_setSlot hv (writeOpE0_eq_setSlot i d s.chip)⟩

end Sys2Proof.Machine

/-! R209 and R210 with R212 to R216. Both registers store a frequency and then run the same two parts: the key scaling
of the channel with its copy to the pair (`freqChanged`), and for R210 the key. Each part is read back once. -/

namespace Sys2Proof.Machine

open Spec

/-! ### Pairs -/

theorem pair_ne_self (n : ChanIdx) : pair n ≠ some n := by
  revert n; decide

/-- A write to channel `n` reaches its pair `m`: `n` is the first channel of an enabled pair under NEW = 1. -/
abbrev ReachesPair (c : Chip) (n m : ChanIdx) : Prop :=
  c.newm = true ∧ (c.chan n).chtype = .fourOp ∧ pair n = some m

theorem reachesPair_iff (c : Chip) (n m : ChanIdx) : ReachesPair c n m ↔ isFirst n c = true ∧ pair n = some m := by
  simp [ReachesPair, isFirst, and_assoc]

theorem isSecond_iff (n : ChanIdx) (c : Chip) :
    isSecond n c = true ↔ c.newm = true ∧ (c.chan n).chtype = .fourOp2 := by
  simp [isSecond]

theorem isSecond_eq_false_iff (n : ChanIdx) (c : Chip) :
    isSecond n c = false ↔ ¬ (c.newm = true ∧ (c.chan n).chtype = .fourOp2) := by
  rw [← isSecond_iff, Bool.not_eq_true]

theorem isFirst_eq_false_of_isSecond {n : ChanIdx} {c : Chip} (h : isSecond n c = true) : isFirst n c = false := by
  simp_all [isFirst, isSecond]

theorem ReachesPair.ne {c : Chip} {n m : ChanIdx} (h : ReachesPair c n m) : m ≠ n := by
  rintro rfl
  exact pair_ne_self m h.2.2

/-! ### Key scaling and the copy to the pair -/

/-- R212 in natural numbers. -/
theorem ksvOf_eq_ksv (nts : Bool) (f : BitVec 10) (block : BitVec 3) : ksvOf nts f block = ksv nts f block := by
  have hbit (k : Nat) : (f.getLsbD k).toNat = f.toNat / 2 ^ k % 2 := by
    rw [BitVec.getLsbD, Nat.testBit, Nat.shiftRight_eq_div_pow, Nat.one_and_eq_mod_two]
    rcases Nat.mod_two_eq_zero_or_one (f.toNat / 2 ^ k) with h | h <;> simp [h]
  apply BitVec.eq_of_toNat_eq
  have hb := block.isLt
  rw [ksvOf, ksv, BitVec.toNat_append, BitVec.toNat_ofBool, hbit, BitVec.toNat_ofNat, Nat.shiftLeft_eq,
    Nat.mul_comm, ← Nat.two_pow_add_eq_or_of_lt (by omega)]
  cases nts <;> simp only [Bool.false_eq_true, if_true, if_false, Nat.reducePow] <;> omega

/-- The copy to the pair recomputes the key-scale levels of the pair's slots from the pair's new frequency. -/
theorem slot_copyFreqToPair (n : ChanIdx) (b : Bool) (c : Chip) (j : SlotIdx) :
    (copyFreqToPair n b c).slot j = if pair n = some (channelOf j) then
      { c.slot j with
        egKsl := kslOf (c.chan n).fNum (if b then (c.chan n).block else (c.chan (channelOf j)).block) }
      else c.slot j := by
  unfold copyFreqToPair
  split
  case h_1 p hp =>
    rw [hp, slot_updateKslBoth]
    by_cases e : channelOf j = p
    · simp [e]
    · simp [e, Ne.symm e]
  case h_2 hp => simp [hp]

theorem isFirst_keyScaled (n : ChanIdx) (c : Chip) : isFirst n (updateKslBoth n (updateKsv n c)) = isFirst n c := by
  simp only [isFirst, chan_updateKslBoth, chan_updateKsv, if_true]
  rfl

/-- The copy is decided before the key scaling as well as after it. -/
theorem freqChanged_eq (n : ChanIdx) (b : Bool) (c : Chip) :
    freqChanged n b c = if isFirst n c then copyFreqToPair n b (updateKslBoth n (updateKsv n c))
      else updateKslBoth n (updateKsv n c) := by
  rw [← isFirst_keyScaled]
  rfl

/-- A changed frequency of channel `n` changes the key-scale value of `n`, and the frequency of a pair it reaches. -/
theorem chan_freqChanged (n m : ChanIdx) (b : Bool) (c : Chip) :
    (freqChanged n b c).chan m =
      if m = n then { c.chan n with ksv := ksv c.nts (c.chan n).fNum (c.chan n).block }
      else if ReachesPair c n m then { c.chan m with
        fNum := (c.chan n).fNum, block := if b then (c.chan n).block else (c.chan m).block
        ksv := ksv c.nts (c.chan n).fNum (c.chan n).block }
      else c.chan m := by
  rw [freqChanged_eq]
  by_cases hm : m = n
  · subst hm
    split <;> simp [chan_copyFreqToPair, pair_ne_self, chan_updateKsv, ksvOf_eq_ksv]
  · split
    next h => simp [chan_copyFreqToPair, chan_updateKsv, ksvOf_eq_ksv, hm, reachesPair_iff, h]
    next h => simp [chan_updateKsv, hm, reachesPair_iff, h]

/-- A changed frequency of channel `n` changes the key-scale levels of its slots and of those of a pair it reaches. -/
theorem slot_freqChanged (n : ChanIdx) (b : Bool) (c : Chip) (j : SlotIdx) :
    (freqChanged n b c).slot j =
      if channelOf j = n then { c.slot j with egKsl := ksl (c.chan n).fNum (c.chan n).block }
      else if ReachesPair c n (channelOf j) then { c.slot j with
        egKsl := ksl (c.chan n).fNum (if b then (c.chan n).block else (c.chan (channelOf j)).block) }
      else c.slot j := by
  rw [freqChanged_eq]
  by_cases hj : channelOf j = n
  · split <;> simp [slot_copyFreqToPair, pair_ne_self, slot_updateKslBoth, chan_updateKsv, kslOf_eq_ksl, hj]
  · split
    next h =>
      simp [slot_copyFreqToPair, slot_updateKslBoth, chan_updateKsv, kslOf_eq_ksl, hj, reachesPair_iff, h]
    next h => simp [slot_updateKslBoth, hj, reachesPair_iff, h]

/-! ### The frequency a register stores -/

/-- `ch[n].f_num <- f` and `ch[n].block <- b`. -/
def storeFreq (n : ChanIdx) (f : BitVec 10) (b : BitVec 3) (c : Chip) : Chip :=
  c.setChan n { c.chan n with fNum := f, block := b }

theorem fNumLow_eq (f : BitVec 10) (d : Byte) :
    (f &&& 0x300) ||| d.setWidth 10 = BitVec.ofNat 10 (f.toNat / 256 * 256 + d.toNat) := by
  have hhigh : (f &&& 0x300).toNat = 2 ^ 8 * (f.toNat / 256) := by revert f; decide +kernel
  apply BitVec.eq_of_toNat_eq
  rw [BitVec.toNat_or, hhigh, BitVec.toNat_setWidth_of_le (by omega), ← Nat.two_pow_add_eq_or_of_lt d.isLt,
    BitVec.toNat_ofNat]
  omega

theorem fNumHigh_eq (f : BitVec 10) (d : Byte) :
    (f &&& (0xFF : BitVec 10)) ||| ((field d 0 2).setWidth 10 <<< 8) =
      BitVec.ofNat 10 (d.toNat % 4 * 256 + f.toNat % 256) := by
  have hlow : (f &&& 0xFF).toNat = f.toNat % 256 := by revert f; decide +kernel
  have hhigh : ((field d 0 2).setWidth 10 <<< 8).toNat = 2 ^ 8 * (d.toNat % 4) := by revert d; decide +kernel
  apply BitVec.eq_of_toNat_eq
  rw [BitVec.toNat_or, hlow, hhigh, Nat.or_comm, ← Nat.two_pow_add_eq_or_of_lt (by omega), BitVec.toNat_ofNat]
  omega

/-- R209 on a channel that is no second one. -/
theorem writeChA0_eq {n : ChanIdx} {c : Chip} (h : isSecond n c = false) (d : Byte) :
    writeChA0 n d c = freqChanged n false (storeFreq n
      (BitVec.ofNat 10 ((c.chan n).fNum.toNat / 256 * 256 + d.toNat)) (c.chan n).block c) := by
  rw [writeChA0, h, ← fNumLow_eq]
  rfl

/-- R210's frequency part on a channel that is no second one. -/
theorem writeFreqHigh_eq {n : ChanIdx} {c : Chip} (h : isSecond n c = false) (d : Byte) :
    writeFreqHigh n d c = freqChanged n true (storeFreq n
      (BitVec.ofNat 10 (d.toNat % 4 * 256 + (c.chan n).fNum.toNat % 256)) (BitVec.ofNat 3 (d.toNat / 4)) c) := by
  rw [writeFreqHigh, h, ← fNumHigh_eq, show d.toNat / 4 = d.toNat / 2 ^ 2 from rfl, ← field_eq_ofNat_div]
  rfl

/-- What both frequency registers do to the channels. -/
theorem chan_freqChanged_storeFreq (n m : ChanIdx) (withBlock : Bool) (f : BitVec 10) (b : BitVec 3) (c : Chip) :
    (freqChanged n withBlock (storeFreq n f b c)).chan m =
      if m = n then { c.chan n with fNum := f, block := b, ksv := ksv c.nts f b }
      else if ReachesPair c n m then { c.chan m with
        fNum := f, block := if withBlock then b else (c.chan m).block, ksv := ksv c.nts f b }
      else c.chan m := by
  rw [chan_freqChanged]
  by_cases hm : m = n
  · subst hm; simp [storeFreq]
  · simp [storeFreq, ReachesPair, Chip.chan_setChan_ne, hm]

/-- What both frequency registers do to the slots. -/
theorem slot_freqChanged_storeFreq (n : ChanIdx) (withBlock : Bool) (f : BitVec 10) (b : BitVec 3) (c : Chip)
    (j : SlotIdx) : (freqChanged n withBlock (storeFreq n f b c)).slot j =
      if channelOf j = n then { c.slot j with egKsl := ksl f b }
      else if ReachesPair c n (channelOf j) then { c.slot j with
        egKsl := ksl f (if withBlock then b else (c.chan (channelOf j)).block) }
      else c.slot j := by
  rw [slot_freqChanged]
  by_cases hj : channelOf j = n
  · simp [storeFreq, hj]
  · simp [storeFreq, ReachesPair, Chip.chan_setChan_ne, hj]

theorem sameGlobals_writeChA0 (n : ChanIdx) (d : Byte) (c : Chip) : c.SameGlobals (writeChA0 n d c) := by
  unfold writeChA0
  split
  · rfl
  · exact (Chip.sameGlobals_modChan c n _).trans (sameGlobals_freqChanged n false _)

/-- The three branches of a nested choice, each under its own condition. -/
theorem ite_ite_branches {α : Type} {p q : Prop} [Decidable p] [Decidable q] (hqp : q → ¬ p) {x y z : α} :
    (p → (if p then x else if q then y else z) = x) ∧ (q → (if p then x else if q then y else z) = y) ∧
      (¬ p → ¬ q → (if p then x else if q then y else z) = z) :=
  ⟨fun hp => if_pos hp, fun hq => (if_neg (hqp hq)).trans (if_pos hq), fun hp hq => (if_neg hp).trans (if_neg hq)⟩

/-- Settles O23: R209 is a stored frequency without its block, followed by the key scaling and the copy. -/
theorem chA0WriteSetsFnumLowAndCopiesToPair : Obligations.ChA0WriteSetsFnumLowAndCopiesToPair := by
  intro s n d hv
  refine ⟨s.regWrite (writeChA0 n d), rfl, rfl, State.regWrite_result .., State.regWrite_pending .., ?_⟩
  rw [regWrite_chip_of_valid _ hv]
  refine ⟨sameGlobals_writeChA0 n d s.chip, fun hnew htype => ?_, fun hsecond => ?_⟩
  · rw [writeChA0, if_pos ((isSecond_iff n s.chip).mpr ⟨hnew, htype⟩)]
  · replace hsecond := (isSecond_eq_false_iff n s.chip).mpr hsecond
    rw [writeChA0_eq hsecond]
    refine ⟨fun m => ?_, fun j => ?_⟩
    · rw [chan_freqChanged_storeFreq]
      exact ite_ite_branches ReachesPair.ne
    · rw [slot_freqChanged_storeFreq]
      exact ite_ite_branches ReachesPair.ne

/-! ### The key -/

/-- The slots a key reaches are those of the channel and of a pair it reaches; a second channel's key reaches none. -/
theorem mem_keySlots_iff {n : ChanIdx} {c : Chip} (h : isSecond n c = false) (j : SlotIdx) :
    j ∈ keySlots n c ↔ channelOf j = n ∨ ReachesPair c n (channelOf j) := by
  rw [reachesPair_iff, keySlots, h]
  cases hf : isFirst n c with
  | false => simp [channelOf_eq_iff]
  | true =>
    cases hp : pair n with
    | none => simp [channelOf_eq_iff]
    | some p => simp [channelOf_eq_iff, eq_comm (a := p), or_assoc]

/-- R210's key part. -/
def writeKey (n : ChanIdx) (on : Bool) (c : Chip) : Chip := if on then channelKeyOn n c else channelKeyOff n c

theorem writeKey_of_isSecond {n : ChanIdx} {c : Chip} (h : isSecond n c = true) (on : Bool) : writeKey n on c = c := by
  have hnone : keySlots n c = [] := by simp [keySlots, h, isFirst_eq_false_of_isSecond h]
  cases on <;> simp [writeKey, channelKeyOn, channelKeyOff, hnone]

theorem chan_writeKey (n m : ChanIdx) (on : Bool) (c : Chip) : (writeKey n on c).chan m = c.chan m := by
  cases on
  · exact chan_foldKeyOff keyNorm _ c m
  · exact chan_foldKeyOn keyNorm _ c m

theorem slot_writeKey {n : ChanIdx} {c : Chip} (h : isSecond n c = false) (on : Bool) (j : SlotIdx) :
    (writeKey n on c).slot j = if channelOf j = n ∨ ReachesPair c n (channelOf j) then
      { c.slot j with key := if on then (c.slot j).key ||| 1 else (c.slot j).key &&& 2 } else c.slot j := by
  simp only [← mem_keySlots_iff h]
  cases on
  · exact slot_foldKeyOff keyNorm _ c j
  · exact slot_foldKeyOn keyNorm _ c j

theorem sameGlobals_writeKey (n : ChanIdx) (on : Bool) (c : Chip) : c.SameGlobals (writeKey n on c) := by
  cases on
  · exact sameGlobals_foldKeys (keyOff · keyNorm) (fun i c => sameGlobals_keySet false i keyNorm c) _ c
  · exact sameGlobals_foldKeys (keyOn · keyNorm) (fun i c => sameGlobals_keySet true i keyNorm c) _ c

theorem writeChB0_eq (n : ChanIdx) (d : Byte) (c : Chip) :
    writeChB0 n d c = writeKey n (d.getLsbD 5) (writeFreqHigh n d c) := rfl

theorem writeChB0_of_isSecond {n : ChanIdx} {c : Chip} (h : isSecond n c = true) (d : Byte) : writeChB0 n d c = c := by
  rw [writeChB0_eq, writeFreqHigh, if_pos h, writeKey_of_isSecond h]

theorem sameGlobals_writeFreqHigh (n : ChanIdx) (d : Byte) (c : Chip) : c.SameGlobals (writeFreqHigh n d c) := by
  unfold writeFreqHigh
  split
  · rfl
  · exact (Chip.sameGlobals_modChan c n _).trans (sameGlobals_freqChanged n true _)

theorem sameGlobals_writeChB0 (n : ChanIdx) (d : Byte) (c : Chip) : c.SameGlobals (writeChB0 n d c) :=
  (sameGlobals_writeFreqHigh n d c).trans (sameGlobals_writeKey ..)

theorem Chip.SameGlobals.newm {a b : Chip} (h : a.SameGlobals b) : b.newm = a.newm := by
  rw [← h]

theorem chtype_writeFreqHigh (n : ChanIdx) (d : Byte) (c : Chip) :
    ((writeFreqHigh n d c).chan n).chtype = (c.chan n).chtype := by
  cases h : isSecond n c with
  | true => rw [writeFreqHigh, if_pos h]
  | false => rw [writeFreqHigh_eq h, chan_freqChanged_storeFreq, if_pos rfl]

/-- With its block copied, the pair gets just what the channel gets. -/
theorem chan_writeFreqHigh {n : ChanIdx} {c : Chip} (h : isSecond n c = false) (d : Byte) (m : ChanIdx) :
    (writeFreqHigh n d c).chan m = if m = n ∨ ReachesPair c n m then
      let f := BitVec.ofNat 10 (d.toNat % 4 * 256 + (c.chan n).fNum.toNat % 256)
      let b := BitVec.ofNat 3 (d.toNat / 4)
      { c.chan m with fNum := f, block := b, ksv := ksv c.nts f b } else c.chan m := by
  rw [writeFreqHigh_eq h, chan_freqChanged_storeFreq]
  by_cases hm : m = n
  · subst hm; simp
  · simp [hm]

theorem slot_writeFreqHigh {n : ChanIdx} {c : Chip} (h : isSecond n c = false) (d : Byte) (j : SlotIdx) :
    (writeFreqHigh n d c).slot j = if channelOf j = n ∨ ReachesPair c n (channelOf j) then { c.slot j with
      egKsl := ksl (BitVec.ofNat 10 (d.toNat % 4 * 256 + (c.chan n).fNum.toNat % 256)) (BitVec.ofNat 3 (d.toNat / 4)) }
      else c.slot j := by
  rw [writeFreqHigh_eq h, slot_freqChanged_storeFreq]
  by_cases hj : channelOf j = n <;> simp [hj]

/-- The key part reaches the slots the frequency part reaches. -/
theorem slot_writeChB0 {n : ChanIdx} {c : Chip} (h : isSecond n c = false) (d : Byte) (j : SlotIdx) :
    (writeChB0 n d c).slot j = if channelOf j = n ∨ ReachesPair c n (channelOf j) then { c.slot j with
      egKsl := ksl (BitVec.ofNat 10 (d.toNat % 4 * 256 + (c.chan n).fNum.toNat % 256)) (BitVec.ofNat 3 (d.toNat / 4))
      key := if d.getLsbD 5 then (c.slot j).key ||| 1 else (c.slot j).key &&& 2 } else c.slot j := by
  have hsecond : isSecond n (writeFreqHigh n d c) = false := by
    rw [isSecond, (sameGlobals_writeFreqHigh n d c).newm, chtype_writeFreqHigh]
    exact h
  have hreach : ReachesPair (writeFreqHigh n d c) n (channelOf j) ↔ ReachesPair c n (channelOf j) := by
    rw [ReachesPair, (sameGlobals_writeFreqHigh n d c).newm, chtype_writeFreqHigh]
  rw [writeChB0_eq, slot_writeKey hsecond, slot_writeFreqHigh h]
  simp only [hreach]
  by_cases hj : channelOf j = n ∨ ReachesPair c n (channelOf j)
  · simp only [if_pos hj]
  · simp only [if_neg hj]

/-- Settles O24: R210 is a stored frequency with its block, the key scaling and the copy, and then the key. -/
theorem chB0WriteSetsFrequencyAndKey : Obligations.ChB0WriteSetsFrequencyAndKey := by
  intro s n d hv
  refine ⟨s.regWrite (writeChB0 n d), rfl, rfl, State.regWrite_result .., State.regWrite_pending .., ?_⟩
  rw [regWrite_chip_of_valid _ hv]
  refine ⟨sameGlobals_writeChB0 n d s.chip, fun hnew htype => ?_, fun hsecond => ?_⟩
  · exact writeChB0_of_isSecond ((isSecond_iff n s.chip).mpr ⟨hnew, htype⟩) d
  · replace hsecond := (isSecond_eq_false_iff n s.chip).mpr hsecond
    refine ⟨fun m => ?_, fun j => ?_⟩
    · rw [writeChB0_eq, chan_writeKey, chan_writeFreqHigh hsecond]
      exact ⟨fun h => if_pos h, fun h => if_neg h⟩
    · rw [slot_writeChB0 hsecond]
      exact ⟨fun h => if_pos h, fun h => if_neg h⟩

end Sys2Proof.Machine

/-! R202, R211 and the router behind them (R340 to R345). Each router operation is read back once, and its reach is one
frame lemma: a channel with its two slots that the operation does not name stays as it was. -/

namespace Sys2Proof.Machine

open Spec

/-! ### Slots and pairs -/

@[simp] theorem channelOf_op1 (n : ChanIdx) : channelOf (op1 n) = n := (channelOf_eq_iff _ _).mpr (.inl rfl)

@[simp] theorem channelOf_op2 (n : ChanIdx) : channelOf (op2 n) = n := (channelOf_eq_iff _ _).mpr (.inr rfl)

@[simp] theorem op1_inj {n m : ChanIdx} : op1 n = op1 m ↔ n = m :=
  ⟨fun h => by simpa using congrArg channelOf h, congrArg op1⟩

@[simp] theorem op2_inj {n m : ChanIdx} : op2 n = op2 m ↔ n = m :=
  ⟨fun h => by simpa using congrArg channelOf h, congrArg op2⟩

@[simp] theorem op1_ne_op2 (n m : ChanIdx) : op1 n ≠ op2 m := by
  revert n m; decide +kernel

@[simp] theorem op2_ne_op1 (n m : ChanIdx) : op2 n ≠ op1 m := (op1_ne_op2 m n).symm

theorem pair_symm {n m : ChanIdx} (h : pair n = some m) : pair m = some n := by
  revert n m; decide

theorem ne_of_pair {n m : ChanIdx} (h : pair n = some m) : m ≠ n := by
  rintro rfl
  exact pair_ne_self m h

/-! ### What stays -/

/-- From `a` to `b`, channel `n` and its two slots are as they were. -/
structure SameChannel (n : ChanIdx) (a b : Chip) : Prop where
  chan : b.chan n = a.chan n
  slot : ∀ i, channelOf i = n → b.slot i = a.slot i

theorem SameChannel.refl (n : ChanIdx) (a : Chip) : SameChannel n a a := ⟨rfl, fun _ _ => rfl⟩

theorem SameChannel.trans {n : ChanIdx} {a b c : Chip} (h1 : SameChannel n a b) (h2 : SameChannel n b c) :
    SameChannel n a c :=
  ⟨h2.chan.trans h1.chan, fun i hi => (h2.slot i hi).trans (h1.slot i hi)⟩

/-- From `a` to `b`, the routing of channel `n` is as it was. -/
structure SameRouting (n : ChanIdx) (a b : Chip) : Prop where
  alg : (b.chan n).alg = (a.chan n).alg
  out : (b.chan n).out = (a.chan n).out
  mod1 : (b.slot (op1 n)).mod = (a.slot (op1 n)).mod
  mod2 : (b.slot (op2 n)).mod = (a.slot (op2 n)).mod

theorem SameChannel.sameRouting {n : ChanIdx} {a b : Chip} (h : SameChannel n a b) : SameRouting n a b :=
  ⟨by rw [h.chan], by rw [h.chan], by rw [h.slot _ (channelOf_op1 n)], by rw [h.slot _ (channelOf_op2 n)]⟩

theorem twoRouted_of_sameRouting {n : ChanIdx} {con : Bool} {a b : Chip} (h : SameRouting n a b)
    (ha : TwoRouted a n con) : TwoRouted b n con := by
  simpa only [TwoRouted, h.out, h.mod1, h.mod2] using ha

theorem fourRouted_of_sameRouting {p s : ChanIdx} {conP conS : Bool} {a b : Chip} (hp : SameRouting p a b)
    (hs : SameRouting s a b) (ha : FourRouted a p s conP conS) : FourRouted b p s conP conS := by
  simpa only [FourRouted, hp.alg, hp.out, hp.mod1, hp.mod2, hs.alg, hs.out, hs.mod1, hs.mod2] using ha

theorem sameChannel_setMod {n : ChanIdx} {i : SlotIdx} (h : n ≠ channelOf i) (m : ModSrc) (c : Chip) :
    SameChannel n c (setMod i m c) where
  chan := rfl
  slot j hj := by
    have hji : j ≠ i := by rintro rfl; exact h hj.symm
    rw [slot_setMod, if_neg hji]

theorem sameChannel_setOut {n m : ChanIdx} (h : n ≠ m) (o : Quad OutSrc) (c : Chip) :
    SameChannel n c (setOut m o c) :=
  ⟨by rw [chan_setOut, if_neg h], fun _ _ => rfl⟩

theorem sameChannel_setAlg {n m : ChanIdx} (h : n ≠ m) (a : BitVec 4) (c : Chip) : SameChannel n c (setAlg m a c) :=
  ⟨by rw [chan_setAlg, if_neg h], fun _ _ => rfl⟩

theorem sameChannel_setChtype {n m : ChanIdx} (h : n ≠ m) (t : ChType) (c : Chip) :
    SameChannel n c (setChtype m t c) :=
  ⟨by rw [chan_setChtype, if_neg h], fun _ _ => rfl⟩

/-! ### The two-operator and drum routing -/

theorem outList_eq_outs (l : List SlotIdx) : outList l = outs l := by
  rcases l with _ | ⟨a, _ | ⟨b, _ | ⟨c, _ | ⟨d, l⟩⟩⟩⟩ <;> rfl

/-- The two sources of a channel's operators, set together. -/
theorem sameChannel_setMods {n m : ChanIdx} (h : n ≠ m) (m1 m2 : ModSrc) (c : Chip) :
    SameChannel n c (c |> setMod (op1 m) m1 |> setMod (op2 m) m2) :=
  (sameChannel_setMod (by simpa) _ _).trans (sameChannel_setMod (by simpa) _ _)

/-- R345 as one row. -/
theorem setupTwoOp_eq (n : ChanIdx) (c : Chip) : setupTwoOp n c =
    (c |> setMod (op1 n) .fb |> setMod (op2 n) (if (c.chan n).alg.getLsbD 0 then .zero else .out (op1 n))
      |> setOut n (if (c.chan n).alg.getLsbD 0 then outs [op1 n, op2 n] else outs [op2 n])) := by
  unfold setupTwoOp
  split
  all_goals simp only [outList_eq_outs, *]

theorem twoRouted_setupTwoOp (n : ChanIdx) (c : Chip) : TwoRouted (setupTwoOp n c) n ((c.chan n).alg.getLsbD 0) := by
  rw [setupTwoOp_eq]
  simp [TwoRouted, slot_setMod, chan_setOut]

theorem sameChannel_setupTwoOp {n m : ChanIdx} (h : n ≠ m) (c : Chip) : SameChannel n c (setupTwoOp m c) := by
  rw [setupTwoOp_eq]
  exact (sameChannel_setMods h _ _ c).trans (sameChannel_setOut h _ _)

@[simp] theorem chan_setupDrum (n m : ChanIdx) (c : Chip) : (setupDrum n c).chan m = c.chan m := by
  unfold setupDrum
  split_ifs <;> simp

theorem sameChannel_setupDrum {n m : ChanIdx} (h : n ≠ m) (c : Chip) : SameChannel n c (setupDrum m c) := by
  unfold setupDrum
  split_ifs
  · exact sameChannel_setMods h _ _ c
  · exact sameChannel_setMods h _ _ c
  · exact sameChannel_setMods h _ _ c
  · exact .refl n c

/-! ### The four-operator routing -/

/-- The slots a pair sums, by its two connection bits (R344). -/
def fourOuts (p s : ChanIdx) : Bool → Bool → List SlotIdx
  | false, false => [op2 s]
  | false, true => [op2 p, op2 s]
  | true, false => [op1 p, op2 s]
  | true, true => [op1 p, op1 s, op2 s]

/-- R344 as one row. -/
theorem setupFourOp_eq (p s : ChanIdx) (conP conS : Bool) (c : Chip) :
    setupFourOp p s ((fourOpAlg conP conS).extractLsb' 0 2) c =
      routeFour p s (if conP then .zero else .out (op1 p)) (if !conP && conS then .zero else .out (op2 p))
        (if conP && conS then .zero else .out (op1 s)) (fourOuts p s conP conS) (setOut p (outList []) c) := by
  cases conP <;> cases conS <;> rfl

theorem fourRouted_setupFourOp {p s : ChanIdx} (hne : s ≠ p) {conP conS : Bool} {c : Chip}
    (halgP : (c.chan p).alg = 8) (halgS : (c.chan s).alg = fourOpAlg conP conS) :
    FourRouted (setupFourOp p s ((fourOpAlg conP conS).extractLsb' 0 2) c) p s conP conS := by
  have halg : (fourOpAlg conP conS).toNat = 4 + 2 * conP.toNat + conS.toNat := by cases conP <;> cases conS <;> rfl
  rw [setupFourOp_eq]
  refine ⟨?_, ?_, ?_, ?_, ?_, ?_, ?_, ?_⟩
  case refine_8 =>
    rw [routeFour, chan_setOut, if_pos rfl, outList_eq_outs]
    cases conP <;> cases conS <;> rfl
  all_goals simp [routeFour, slot_setMod, chan_setOut, outList_eq_outs, hne, hne.symm, halgP, halgS, halg]

theorem sameChannel_routeFour {n p s : ChanIdx} (hp : n ≠ p) (hs : n ≠ s) (m2 m3 m4 : ModSrc) (l : List SlotIdx)
    (c : Chip) : SameChannel n c (routeFour p s m2 m3 m4 l c) :=
  ((sameChannel_setMods hp _ _ c).trans (sameChannel_setMods hs _ _ _)).trans (sameChannel_setOut hs _ _)

theorem sameChannel_setupFourOp {n p s : ChanIdx} (hp : n ≠ p) (hs : n ≠ s) (k : BitVec 2) (c : Chip) :
    SameChannel n c (setupFourOp p s k c) := by
  unfold setupFourOp
  refine (sameChannel_setOut hp (outList []) c).trans ?_
  dsimp only
  split <;> exact sameChannel_routeFour hp hs ..

/-! ### The choice of the routing -/

theorem sameChannel_setupAlg {n m : ChanIdx} (hm : n ≠ m) (hp : pair m ≠ some n) (c : Chip) :
    SameChannel n c (setupAlg m c) := by
  unfold setupAlg
  dsimp only
  split_ifs
  · exact sameChannel_setupDrum hm c
  · exact .refl n c
  · split
    next p hpair => exact sameChannel_setupFourOp (by rintro rfl; exact hp hpair) hm _ c
    next => exact .refl n c
  · exact sameChannel_setupTwoOp hm c

theorem fourRouted_updatePair {p s : ChanIdx} (hpair : pair s = some p) {c : Chip}
    (htype : (c.chan s).chtype ≠ .drum) :
    FourRouted (updatePair p s c) p s (c.chan p).con (c.chan s).con := by
  have hne : s ≠ p := (ne_of_pair hpair).symm
  have hroute : updatePair p s c = setupFourOp p s ((fourOpAlg (c.chan p).con (c.chan s).con).extractLsb' 0 2)
      (setAlg p 8 (setAlg s (fourOpAlg (c.chan p).con (c.chan s).con) c)) := by
    cases hP : (c.chan p).con <;> cases hS : (c.chan s).con <;>
      simp [updatePair, setupAlg, chan_setAlg, hne, hpair, htype, hP, hS, fourOpAlg]
  rw [hroute]
  exact fourRouted_setupFourOp hne (by simp [chan_setAlg]) (by simp [chan_setAlg, hne])

theorem sameChannel_updatePair {n p s : ChanIdx} (hpair : pair s = some p) (hp : n ≠ p) (hs : n ≠ s) (c : Chip) :
    SameChannel n c (updatePair p s c) :=
  ((sameChannel_setAlg hs _ c).trans (sameChannel_setAlg hp _ _)).trans
    (sameChannel_setupAlg hs (by rw [hpair]; simpa using hp.symm) _)

/-- `ch[n].alg <- CNT`, the first part of R340. -/
def setConAlg (n : ChanIdx) (c : Chip) : Chip := setAlg n (BitVec.ofNat 4 (c.chan n).con.toNat) c

theorem chan_setConAlg (n m : ChanIdx) (c : Chip) : (setConAlg n c).chan m =
    if m = n then { c.chan n with alg := BitVec.ofNat 4 (c.chan n).con.toNat } else c.chan m := chan_setAlg n m _ c

theorem con_setConAlg (n m : ChanIdx) (c : Chip) : ((setConAlg n c).chan m).con = (c.chan m).con := by
  rw [chan_setConAlg]
  split <;> simp [*]

theorem chtype_setConAlg (n m : ChanIdx) (c : Chip) : ((setConAlg n c).chan m).chtype = (c.chan m).chtype := by
  rw [chan_setConAlg]
  split <;> simp [*]

/-- A channel that holds one of the two-operator algorithms is routed alone. -/
theorem setupAlg_setConAlg (n : ChanIdx) (c : Chip) : setupAlg n (setConAlg n c) =
    if (c.chan n).chtype = .drum then setupDrum n (setConAlg n c) else setupTwoOp n (setConAlg n c) := by
  cases h : (c.chan n).con <;> simp [setupAlg, chan_setConAlg, h]

/-- The case distinction of R340, made before its first part. -/
theorem updateAlg_eq (n : ChanIdx) (c : Chip) : updateAlg n c = match c.newm, (c.chan n).chtype, pair n with
    | true, .fourOp, some m => updatePair n m (setConAlg n c)
    | true, .fourOp2, some m => updatePair m n (setConAlg n c)
    | _, _, _ => setupAlg n (setConAlg n c) := by
  rw [← chtype_setConAlg n n c]
  rfl

theorem updateAlg_of_first {n m : ChanIdx} {c : Chip} (hnew : c.newm = true) (htype : (c.chan n).chtype = .fourOp)
    (hpair : pair n = some m) : updateAlg n c = updatePair n m (setConAlg n c) := by
  rw [updateAlg_eq, hnew, htype, hpair]

theorem updateAlg_of_second {n m : ChanIdx} {c : Chip} (hnew : c.newm = true) (htype : (c.chan n).chtype = .fourOp2)
    (hpair : pair n = some m) : updateAlg n c = updatePair m n (setConAlg n c) := by
  rw [updateAlg_eq, hnew, htype, hpair]

/-- Outside an enabled pair under NEW = 1, a channel is routed alone. -/
theorem updateAlg_of_no_partner {n : ChanIdx} {c : Chip} (h : ∀ m, ¬ Partner c n m) :
    updateAlg n c = if (c.chan n).chtype = .drum then setupDrum n (setConAlg n c)
      else setupTwoOp n (setConAlg n c) := by
  rw [← setupAlg_setConAlg, updateAlg_eq]
  split
  next m hnew htype hpair => exact absurd ⟨hnew, .inl htype, hpair⟩ (h m)
  next m hnew htype hpair => exact absurd ⟨hnew, .inr htype, hpair⟩ (h m)
  next => rfl

/-- A channel other than the re-routed one and its partner stays. -/
theorem sameChannel_updateAlg {n m : ChanIdx} {c : Chip} (hm : m ≠ n) (hp : ¬ Partner c n m) :
    SameChannel m c (updateAlg n c) := by
  have hcon : SameChannel m c (setConAlg n c) := sameChannel_setAlg hm _ c
  refine hcon.trans ?_
  by_cases h : ∃ k, Partner c n k
  · obtain ⟨k, hpart⟩ := h
    have hmk : m ≠ k := by rintro rfl; exact hp hpart
    obtain ⟨hnew, htype | htype, hpair⟩ := hpart
    · rw [updateAlg_of_first hnew htype hpair]
      exact sameChannel_updatePair (pair_symm hpair) hm hmk _
    · rw [updateAlg_of_second hnew htype hpair]
      exact sameChannel_updatePair hpair hmk hm _
  · rw [updateAlg_of_no_partner (not_exists.mp h)]
    split
    · exact sameChannel_setupDrum hm _
    · exact sameChannel_setupTwoOp hm _

/-! ### Re-routing a channel -/

section Types

variable (n m : ChanIdx) (c : Chip)

@[simp] theorem chtype_setOut (o : Quad OutSrc) : ((setOut n o c).chan m).chtype = (c.chan m).chtype := by
  rw [chan_setOut]; split <;> simp [*]

@[simp] theorem chtype_setAlg (a : BitVec 4) : ((setAlg n a c).chan m).chtype = (c.chan m).chtype := by
  rw [chan_setAlg]; split <;> simp [*]

theorem chtype_setupFourOp (p : ChanIdx) (k : BitVec 2) :
    ((setupFourOp p n k c).chan m).chtype = (c.chan m).chtype := by
  unfold setupFourOp
  dsimp only
  split <;> simp [routeFour]

theorem chtype_setupAlg : ((setupAlg n c).chan m).chtype = (c.chan m).chtype := by
  unfold setupAlg
  dsimp only
  split_ifs
  · rw [chan_setupDrum]
  · rfl
  · split
    · exact chtype_setupFourOp ..
    · rfl
  · simp [setupTwoOp_eq]

theorem chtype_updatePair (p s : ChanIdx) : ((updatePair p s c).chan m).chtype = (c.chan m).chtype := by
  simp [updatePair, chtype_setupAlg]

/-- The router leaves the types. -/
theorem chtype_updateAlg : ((updateAlg n c).chan m).chtype = (c.chan m).chtype := by
  rw [updateAlg_eq, ← chtype_setConAlg n m c]
  split
  · exact chtype_updatePair ..
  · exact chtype_updatePair ..
  · exact chtype_setupAlg ..

end Types

theorem not_partner_of_newm {c : Chip} (h : c.newm = false) (n m : ChanIdx) : ¬ Partner c n m := by
  simp [Partner, h]

theorem not_partner_of_twoOp {c : Chip} {n : ChanIdx} (h : (c.chan n).chtype = .twoOp) (m : ChanIdx) :
    ¬ Partner c n m := by
  simp [Partner, h]

theorem not_partner_of_drum {c : Chip} {n : ChanIdx} (h : (c.chan n).chtype = .drum) (m : ChanIdx) :
    ¬ Partner c n m := by
  simp [Partner, h]

theorem alg_setConAlg (n : ChanIdx) (c : Chip) : ((setConAlg n c).chan n).alg.toNat = (c.chan n).con.toNat := by
  cases h : (c.chan n).con <;> simp [chan_setConAlg, h]

theorem bit_zero_alg_setConAlg (n : ChanIdx) (c : Chip) :
    ((setConAlg n c).chan n).alg.getLsbD 0 = (c.chan n).con := by
  cases h : (c.chan n).con <;> simp [chan_setConAlg, h]

/-- A channel re-routed alone gets the algorithm of its connection bit. -/
theorem alg_updateAlg {n : ChanIdx} {c : Chip} (h : ∀ m, ¬ Partner c n m) :
    ((updateAlg n c).chan n).alg.toNat = (c.chan n).con.toNat := by
  rw [updateAlg_of_no_partner h, ← alg_setConAlg]
  split
  · rw [chan_setupDrum]
  · simp [setupTwoOp_eq, chan_setOut]

theorem twoRouted_updateAlg {n : ChanIdx} {c : Chip} (h : ∀ m, ¬ Partner c n m) (htype : (c.chan n).chtype ≠ .drum) :
    TwoRouted (updateAlg n c) n (c.chan n).con := by
  rw [updateAlg_of_no_partner h, if_neg htype, ← bit_zero_alg_setConAlg]
  exact twoRouted_setupTwoOp ..

theorem fourRouted_updateAlg_first {n m : ChanIdx} {c : Chip} (hnew : c.newm = true)
    (htype : (c.chan n).chtype = .fourOp) (hpair : pair n = some m) (hm : (c.chan m).chtype ≠ .drum) :
    FourRouted (updateAlg n c) n m (c.chan n).con (c.chan m).con := by
  rw [updateAlg_of_first hnew htype hpair, ← con_setConAlg n n, ← con_setConAlg n m]
  exact fourRouted_updatePair (pair_symm hpair) (by rwa [chtype_setConAlg])

theorem fourRouted_updateAlg_second {n m : ChanIdx} {c : Chip} (hnew : c.newm = true)
    (htype : (c.chan n).chtype = .fourOp2) (hpair : pair n = some m) :
    FourRouted (updateAlg n c) m n (c.chan m).con (c.chan n).con := by
  rw [updateAlg_of_second hnew htype hpair, ← con_setConAlg n n, ← con_setConAlg n m]
  exact fourRouted_updatePair hpair (by rw [chtype_setConAlg, htype]; decide)

end Sys2Proof.Machine

/-! R202. WR_4OP is a run over the six pairs of one turn each. What a turn does is read and seen on its own pair alone,
so the turns do not disturb each other. -/

namespace Sys2Proof.Machine

open Spec

/-! ### One turn -/

/-- From `a` to `b`, the pair `p`, `q` is enabled or disabled and re-routed (R202, R340). -/
def PairWritten (newm on : Bool) (p q : ChanIdx) (a b : Chip) : Prop :=
  ((b.chan p).chtype = if on then .fourOp else .twoOp) ∧
  ((b.chan q).chtype = if on then .fourOp2 else .twoOp) ∧
  (on = true → newm = true → FourRouted b p q (a.chan p).con (a.chan q).con) ∧
  ((on = false ∨ newm = false) →
    (b.chan p).alg.toNat = (a.chan p).con.toNat ∧ TwoRouted b p (a.chan p).con) ∧
  (on = false → (b.chan q).alg.toNat = (a.chan q).con.toNat ∧ TwoRouted b q (a.chan q).con) ∧
  (on = true → newm = false →
    (b.chan q).alg = (a.chan q).alg ∧ (b.chan q).out = (a.chan q).out ∧
    ∀ i, channelOf i = q → b.slot i = a.slot i)

/-- Only the pair's own channels and slots count, before and after. -/
theorem PairWritten.of_sameChannel {newm on : Bool} {p q : ChanIdx} {a a' b b' : Chip}
    (h : PairWritten newm on p q a b) (hap : SameChannel p a' a) (haq : SameChannel q a' a)
    (hbp : SameChannel p b b') (hbq : SameChannel q b b') :
    PairWritten newm on p q a' b' := by
  obtain ⟨htp, htq, hfour, hp, hq, hstay⟩ := h
  rw [hap.chan] at hfour hp
  rw [haq.chan] at hfour hq hstay
  refine ⟨by rw [hbp.chan, htp], by rw [hbq.chan, htq], fun hon hnew => ?_, fun h => ?_, fun hon => ?_,
    fun hon hnew => ?_⟩
  · exact fourRouted_of_sameRouting hbp.sameRouting hbq.sameRouting (hfour hon hnew)
  · rw [hbp.chan]
    exact ⟨(hp h).1, twoRouted_of_sameRouting hbp.sameRouting (hp h).2⟩
  · rw [hbq.chan]
    exact ⟨(hq hon).1, twoRouted_of_sameRouting hbq.sameRouting (hq hon).2⟩
  · obtain ⟨halg, hout, hslots⟩ := hstay hon hnew
    rw [hbq.chan]
    exact ⟨halg, hout, fun i hi => (hbq.slot i hi).trans ((hslots i hi).trans (haq.slot i hi))⟩

/-- The types of a pair, set together. -/
def setTypes (p q : ChanIdx) (tp tq : ChType) (c : Chip) : Chip := c |> setChtype p tp |> setChtype q tq

section Types

variable {p q : ChanIdx} (tp tq : ChType) (c : Chip)

theorem chan_setTypes_first (h : q ≠ p) : (setTypes p q tp tq c).chan p = { c.chan p with chtype := tp } := by
  simp [setTypes, chan_setChtype, h.symm]

theorem chan_setTypes_second (h : q ≠ p) : (setTypes p q tp tq c).chan q = { c.chan q with chtype := tq } := by
  simp [setTypes, chan_setChtype, h]

theorem sameChannel_setTypes {n : ChanIdx} (hp : n ≠ p) (hq : n ≠ q) : SameChannel n c (setTypes p q tp tq c) :=
  (sameChannel_setChtype hp tp c).trans (sameChannel_setChtype hq tq _)

end Types

/-- A turn with its bit set. -/
theorem pairWritten_enable {p q : ChanIdx} (hpair : pair p = some q) (c : Chip) :
    PairWritten c.newm true p q c (updateAlg p (setTypes p q .fourOp .fourOp2 c)) := by
  have hne := ne_of_pair hpair
  generalize ht : setTypes p q .fourOp .fourOp2 c = t
  have hp : t.chan p = { c.chan p with chtype := .fourOp } := ht ▸ chan_setTypes_first _ _ c hne
  have hq : t.chan q = { c.chan q with chtype := .fourOp2 } := ht ▸ chan_setTypes_second _ _ c hne
  have hnewm : t.newm = c.newm := by rw [← ht]; rfl
  have hslot (i : SlotIdx) : t.slot i = c.slot i := by rw [← ht]; rfl
  refine ⟨by rw [chtype_updateAlg, hp]; rfl, by rw [chtype_updateAlg, hq]; rfl, fun _ hnew => ?_, fun h => ?_, nofun,
    fun _ hnew => ?_⟩
  · have := fourRouted_updateAlg_first (hnewm.trans hnew) (by rw [hp]) hpair (by simp [hq])
    rwa [hp, hq] at this
  · have halone := not_partner_of_newm (hnewm.trans (h.resolve_left nofun)) p
    have halg := alg_updateAlg halone
    have htwo := twoRouted_updateAlg halone (by simp [hp])
    rw [hp] at halg htwo
    exact ⟨halg, htwo⟩
  · have hstay := sameChannel_updateAlg hne (not_partner_of_newm (hnewm.trans hnew) p q)
    rw [hstay.chan, hq]
    exact ⟨rfl, rfl, fun i hi => (hstay.slot i hi).trans (hslot i)⟩

/-- A turn with its bit clear. -/
theorem pairWritten_disable {p q : ChanIdx} (hpair : pair p = some q) (c : Chip) :
    PairWritten c.newm false p q c (updateAlg q (updateAlg p (setTypes p q .twoOp .twoOp c))) := by
  have hne := ne_of_pair hpair
  generalize ht : setTypes p q .twoOp .twoOp c = t
  have hp : t.chan p = { c.chan p with chtype := .twoOp } := ht ▸ chan_setTypes_first _ _ c hne
  have hq : t.chan q = { c.chan q with chtype := .twoOp } := ht ▸ chan_setTypes_second _ _ c hne
  have halone : ∀ m, ¬ Partner t p m := not_partner_of_twoOp (by rw [hp])
  have hq' : (updateAlg p t).chan q = { c.chan q with chtype := .twoOp } :=
    (sameChannel_updateAlg hne (halone q)).chan.trans hq
  have halone' : ∀ m, ¬ Partner (updateAlg p t) q m := not_partner_of_twoOp (by rw [hq'])
  have hstay := sameChannel_updateAlg hne.symm (halone' p)
  refine ⟨?_, ?_, nofun, fun _ => ?_, fun _ => ?_, nofun⟩
  · rw [chtype_updateAlg, chtype_updateAlg, hp]; rfl
  · rw [chtype_updateAlg, hq']; rfl
  · have halg := alg_updateAlg halone
    have htwo := twoRouted_updateAlg halone (by simp [hp])
    rw [hp] at halg htwo
    rw [hstay.chan]
    exact ⟨halg, twoRouted_of_sameRouting hstay.sameRouting htwo⟩
  · have halg := alg_updateAlg halone'
    have htwo := twoRouted_updateAlg halone' (by simp [hq'])
    rw [hq'] at halg htwo
    exact ⟨halg, htwo⟩

/-- One turn of R202's loop writes its pair. -/
theorem pairWritten_connectPair {p : ChanIdx} (hpair : pair p = some (p + 3)) (on : Bool) (c : Chip) :
    PairWritten c.newm on p (p + 3) c (connectPair p on c) := by
  cases on
  · exact pairWritten_disable hpair c
  · exact pairWritten_enable hpair c

/-- One turn of R202's loop leaves every other channel. -/
theorem sameChannel_connectPair {n p : ChanIdx} (hpair : pair p = some (p + 3)) (hp : n ≠ p) (hq : n ≠ p + 3)
    (on : Bool) (c : Chip) : SameChannel n c (connectPair p on c) := by
  have hpn (c : Chip) : ¬ Partner c p n := fun h => hq (by simpa [hpair] using h.2.2.symm)
  have hqn (c : Chip) : ¬ Partner c (p + 3) n := fun h => hp (by simpa [pair_symm hpair] using h.2.2.symm)
  cases on
  · exact ((sameChannel_setTypes _ _ c hp hq).trans (sameChannel_updateAlg hp (hpn _))).trans
      (sameChannel_updateAlg hq (hqn _))
  · exact (sameChannel_setTypes _ _ c hp hq).trans (sameChannel_updateAlg hp (hpn _))

/-! ### The run over the pairs -/

/-- The turns of a list of pairs, each with its bit in 0x104. -/
def connectPairs (d : Byte) (l : List (Nat × ChanIdx × ChanIdx)) (c : Chip) : Chip :=
  l.foldl (fun c x => connectPair x.2.1 (bit d x.1) c) c

theorem write4op_eq (d : Byte) (c : Chip) : write4op d c = connectPairs d pairs c := rfl

/-- Channel `n` is in no pair of the list. -/
def Outside (n : ChanIdx) (l : List (Nat × ChanIdx × ChanIdx)) : Prop := ∀ x ∈ l, n ≠ x.2.1 ∧ n ≠ x.2.2

/-- The list holds pairs of the block, no channel twice. -/
def DisjointPairs : List (Nat × ChanIdx × ChanIdx) → Prop
  | [] => True
  | x :: l =>
    (pair x.2.1 = some (x.2.1 + 3) ∧ x.2.2 = x.2.1 + 3) ∧ (Outside x.2.1 l ∧ Outside x.2.2 l) ∧ DisjointPairs l

theorem disjointPairs_pairs : DisjointPairs pairs := by
  simp only [pairs, DisjointPairs, Outside]
  decide

theorem sameChannel_connectPairs {n : ChanIdx} (d : Byte) {l : List (Nat × ChanIdx × ChanIdx)} (hl : DisjointPairs l)
    (hn : Outside n l) (c : Chip) : SameChannel n c (connectPairs d l c) := by
  induction l generalizing c with
  | nil => exact .refl n c
  | cons x l ih =>
    obtain ⟨⟨hpair, hq⟩, _, htail⟩ := hl
    obtain ⟨hx, hn⟩ := List.forall_mem_cons.mp hn
    exact (sameChannel_connectPair hpair hx.1 (hq ▸ hx.2) _ c).trans (ih htail hn _)

/-- Each turn's result stands at the end, and was made from what stood at the start. -/
theorem pairWritten_connectPairs (d : Byte) {l : List (Nat × ChanIdx × ChanIdx)} (hl : DisjointPairs l) (c : Chip) :
    ∀ x ∈ l, PairWritten c.newm (bit d x.1) x.2.1 x.2.2 c (connectPairs d l c) := by
  induction l generalizing c with
  | nil => nofun
  | cons y l ih =>
    obtain ⟨⟨hpair, hq⟩, ⟨hout1, hout2⟩, htail⟩ := hl
    intro x hx
    rcases List.mem_cons.mp hx with rfl | hx
    · have hturn := pairWritten_connectPair hpair (bit d x.1) c
      rw [← hq] at hturn
      exact hturn.of_sameChannel (.refl _ c) (.refl _ c) (sameChannel_connectPairs d htail hout1 _)
        (sameChannel_connectPairs d htail hout2 _)
    · have hrest := ih htail (connectPair y.2.1 (bit d y.1) c) x hx
      rw [(routingOnly_connectPair y.2.1 (bit d y.1) c).globals.newm] at hrest
      have hx1 := hout1 x hx
      have hx2 := hq ▸ hout2 x hx
      exact hrest.of_sameChannel (sameChannel_connectPair hpair hx1.1.symm hx2.1.symm _ c)
        (sameChannel_connectPair hpair hx1.2.symm hx2.2.symm _ c) (.refl _ _) (.refl _ _)

theorem outside_pairs {n : ChanIdx} (h : pair n = none) : Outside n pairs := by
  unfold Outside
  revert n
  decide

/-- Settles O17: the run of the turns writes each pair, and a channel of no pair is outside the run. -/
theorem fourOpWritePairsAndReroutes : Obligations.FourOpWritePairsAndReroutes := by
  intro s d hv
  have hrouting := routingOnly_write4op d s.chip
  have houtside {n : ChanIdx} (hn : pair n = none) : SameChannel n s.chip (write4op d s.chip) :=
    sameChannel_connectPairs d disjointPairs_pairs (outside_pairs hn) s.chip
  refine ⟨s.regWrite (write4op d), rfl, State.regWrite_result .., State.regWrite_pending .., ?_⟩
  rw [regWrite_chip_of_valid _ hv]
  refine ⟨hrouting.globals, fun b p q hmem => ?_, fun n => ⟨hrouting.chans n, fun hn => (houtside hn).chan⟩,
    fun i => ⟨hrouting.slots i, fun hi => (houtside hi).slot i rfl⟩⟩
  exact pairWritten_connectPairs d disjointPairs_pairs s.chip (b, p, q) hmem

end Sys2Proof.Machine

/-! R211. WR_CHC0 stores feedback and connection, re-routes by R340, and sets the bus enables, which no routing
reads. -/

namespace Sys2Proof.Machine

open Spec

/-! ### The parts of the write -/

/-- R211's first part: feedback and connection. -/
def storeFbCon (n : ChanIdx) (d : Byte) (c : Chip) : Chip :=
  c.modChan n fun ch => { ch with fb := field d 1 3, con := bit d 0 }

theorem writeChC0_eq (n : ChanIdx) (d : Byte) (c : Chip) :
    writeChC0 n d c = setEnables n d (updateAlg n (storeFbCon n d c)) := rfl

theorem chan_storeFbCon_self (n : ChanIdx) (d : Byte) (c : Chip) :
    (storeFbCon n d c).chan n = { c.chan n with fb := BitVec.ofNat 3 (d.toNat / 2), con := d.getLsbD 0 } := by
  rw [storeFbCon, Chip.chan_modChan_self, field_eq_ofNat_div]
  rfl

theorem chan_storeFbCon_ne {n m : ChanIdx} (h : m ≠ n) (d : Byte) (c : Chip) : (storeFbCon n d c).chan m = c.chan m :=
  Chip.chan_modChan_ne c _ h

theorem chtype_storeFbCon (n m : ChanIdx) (d : Byte) (c : Chip) :
    ((storeFbCon n d c).chan m).chtype = (c.chan m).chtype := by
  by_cases h : m = n
  · subst h; rw [chan_storeFbCon_self]
  · rw [chan_storeFbCon_ne h]

theorem partner_storeFbCon_iff (n m : ChanIdx) (d : Byte) (c : Chip) :
    Partner (storeFbCon n d c) n m ↔ Partner c n m := by
  simp only [Partner, chtype_storeFbCon]
  rfl

theorem chan_setEnables (n m : ChanIdx) (d : Byte) (c : Chip) :
    (setEnables n d c).chan m = if m = n then { c.chan n with
      cha := if c.newm then d.getLsbD 4 else true, chb := if c.newm then d.getLsbD 5 else true
      chc := c.newm && d.getLsbD 6, chd := c.newm && d.getLsbD 7 } else c.chan m := by
  cases h : c.newm <;> simp [setEnables, h, Chip.chan_modChan, bit]

@[simp] theorem slot_setEnables (n : ChanIdx) (d : Byte) (c : Chip) (i : SlotIdx) :
    (setEnables n d c).slot i = c.slot i := by
  unfold setEnables
  split <;> rfl

theorem sameGlobals_setEnables (n : ChanIdx) (d : Byte) (c : Chip) : c.SameGlobals (setEnables n d c) := by
  unfold setEnables
  split <;> rfl

/-- The bus enables are no part of the routing. -/
theorem sameRouting_setEnables (n m : ChanIdx) (d : Byte) (c : Chip) : SameRouting m c (setEnables n d c) := by
  refine ⟨?_, ?_, by rw [slot_setEnables], by rw [slot_setEnables]⟩ <;>
  · rw [chan_setEnables]
    split <;> simp [*]

/-! ### The drum channels -/

/-- R342 on channel 6. -/
theorem setupDrum_six (c : Chip) : setupDrum 6 c =
    (c |> setMod 12 .fb |> setMod 15 (if (c.chan 6).alg.getLsbD 0 then .zero else .out 12)) := by
  cases h : (c.chan 6).alg.getLsbD 0 <;> simp only [setupDrum, h] <;> rfl

/-- R342 on channels 7 and 8. -/
theorem setupDrum_seven_or_eight {n : ChanIdx} (h : n = 7 ∨ n = 8) (c : Chip) :
    setupDrum n c = (c |> setMod (op1 n) .zero |> setMod (op2 n) .zero) := if_pos h

/-- Where the re-routed drum channel stands decides its operators' sources. -/
theorem slot_updateAlg_six {c : Chip} (h : (c.chan 6).chtype = .drum) :
    ((updateAlg 6 c).slot 12).mod = .fb ∧
      ((updateAlg 6 c).slot 15).mod = if (c.chan 6).con then .zero else .out 12 := by
  rw [updateAlg_of_no_partner (not_partner_of_drum h), if_pos h, setupDrum_six, bit_zero_alg_setConAlg]
  simp [slot_setMod]

theorem slot_updateAlg_seven_or_eight {n : ChanIdx} (hn : n = 7 ∨ n = 8) {c : Chip} (h : (c.chan n).chtype = .drum) :
    ((updateAlg n c).slot (op1 n)).mod = .zero ∧ ((updateAlg n c).slot (op2 n)).mod = .zero := by
  rw [updateAlg_of_no_partner (not_partner_of_drum h), if_pos h, setupDrum_seven_or_eight hn]
  simp [slot_setMod]

theorem out_updateAlg_of_drum {n : ChanIdx} {c : Chip} (h : (c.chan n).chtype = .drum) :
    ((updateAlg n c).chan n).out = (c.chan n).out := by
  rw [updateAlg_of_no_partner (not_partner_of_drum h), if_pos h, chan_setupDrum, chan_setConAlg, if_pos rfl]

/-! ### The write as a whole -/

section Write

variable (n : ChanIdx) (d : Byte) (c : Chip)

theorem sameGlobals_rerouted : c.SameGlobals (updateAlg n (storeFbCon n d c)) :=
  (Chip.sameGlobals_modChan c n _).trans (routingOnly_updateAlg n _).globals

theorem sameGlobals_writeChC0 : c.SameGlobals (writeChC0 n d c) :=
  (sameGlobals_rerouted n d c).trans (sameGlobals_setEnables n d _)

theorem slot_writeChC0 (i : SlotIdx) : (writeChC0 n d c).slot i = (updateAlg n (storeFbCon n d c)).slot i := by
  rw [writeChC0_eq, slot_setEnables]

theorem chan_writeChC0_ne {m : ChanIdx} (h : m ≠ n) :
    (writeChC0 n d c).chan m = (updateAlg n (storeFbCon n d c)).chan m := by
  rw [writeChC0_eq, chan_setEnables, if_neg h]

theorem chan_writeChC0_self : (writeChC0 n d c).chan n = { c.chan n with
    fb := BitVec.ofNat 3 (d.toNat / 2), con := d.getLsbD 0
    cha := if c.newm then d.getLsbD 4 else true, chb := if c.newm then d.getLsbD 5 else true
    chc := c.newm && d.getLsbD 6, chd := c.newm && d.getLsbD 7
    alg := ((writeChC0 n d c).chan n).alg, out := ((writeChC0 n d c).chan n).out } := by
  have hrouted : ∃ a o, (updateAlg n (storeFbCon n d c)).chan n =
      { (storeFbCon n d c).chan n with alg := a, out := o } := by
    have h := (routingOnly_updateAlg n (storeFbCon n d c)).chans n
    rw [chtype_updateAlg] at h
    exact ⟨_, _, h.symm⟩
  obtain ⟨a, o, hrouted⟩ := hrouted
  rw [writeChC0_eq, chan_setEnables, if_pos rfl, (sameGlobals_rerouted n d c).newm, hrouted, chan_storeFbCon_self]

theorem sameRouting_writeChC0 (m : ChanIdx) : SameRouting m (updateAlg n (storeFbCon n d c)) (writeChC0 n d c) :=
  sameRouting_setEnables n m d _

end Write

/-- A channel re-routed alone, read at the end of the write. -/
theorem alg_writeChC0 {n : ChanIdx} {d : Byte} {c : Chip} (h : ∀ m, ¬ Partner c n m) :
    ((writeChC0 n d c).chan n).alg.toNat = (d.getLsbD 0).toNat := by
  rw [(sameRouting_writeChC0 n d c n).alg, alg_updateAlg (by simpa only [partner_storeFbCon_iff] using h),
    chan_storeFbCon_self]

theorem twoRouted_writeChC0 {n : ChanIdx} {d : Byte} {c : Chip} (h : ∀ m, ¬ Partner c n m)
    (htype : (c.chan n).chtype ≠ .drum) : TwoRouted (writeChC0 n d c) n (d.getLsbD 0) := by
  have hrouted := twoRouted_updateAlg (c := storeFbCon n d c) (n := n)
    (by simpa only [partner_storeFbCon_iff] using h) (by rwa [chtype_storeFbCon])
  rw [chan_storeFbCon_self] at hrouted
  exact twoRouted_of_sameRouting (sameRouting_writeChC0 n d c n) hrouted

/-- The pair of a first channel, read at the end of the write. -/
theorem fourRouted_writeChC0_first {n m : ChanIdx} {d : Byte} {c : Chip} (hnew : c.newm = true)
    (htype : (c.chan n).chtype = .fourOp) (hpair : pair n = some m) (hm : (c.chan m).chtype ≠ .drum) :
    FourRouted (writeChC0 n d c) n m (d.getLsbD 0) (c.chan m).con := by
  have hrouted := fourRouted_updateAlg_first (c := storeFbCon n d c) hnew (by rwa [chtype_storeFbCon]) hpair
    (by rwa [chtype_storeFbCon])
  rw [chan_storeFbCon_self, chan_storeFbCon_ne (ne_of_pair hpair)] at hrouted
  exact fourRouted_of_sameRouting (sameRouting_writeChC0 n d c n) (sameRouting_writeChC0 n d c m) hrouted

theorem fourRouted_writeChC0_second {n m : ChanIdx} {d : Byte} {c : Chip} (hnew : c.newm = true)
    (htype : (c.chan n).chtype = .fourOp2) (hpair : pair n = some m) :
    FourRouted (writeChC0 n d c) m n (c.chan m).con (d.getLsbD 0) := by
  have hrouted := fourRouted_updateAlg_second (c := storeFbCon n d c) hnew (by rwa [chtype_storeFbCon]) hpair
  rw [chan_storeFbCon_self, chan_storeFbCon_ne (ne_of_pair hpair)] at hrouted
  exact fourRouted_of_sameRouting (sameRouting_writeChC0 n d c m) (sameRouting_writeChC0 n d c n) hrouted

/-- A channel other than the written one and its partner stays. -/
theorem sameChannel_writeChC0 {n m : ChanIdx} {d : Byte} {c : Chip} (hm : m ≠ n) (hp : ¬ Partner c n m) :
    SameChannel m c (writeChC0 n d c) := by
  have hstay := sameChannel_updateAlg hm ((partner_storeFbCon_iff n m d c).not.mpr hp)
  exact ⟨(chan_writeChC0_ne n d c hm).trans (hstay.chan.trans (chan_storeFbCon_ne hm d c)),
    fun i hi => (slot_writeChC0 n d c i).trans (hstay.slot i hi)⟩

theorem chanRoutingOnly_writeChC0 {n m : ChanIdx} {d : Byte} {c : Chip} (hm : m ≠ n) :
    ChanRoutingOnly c (writeChC0 n d c) m := by
  rw [ChanRoutingOnly, chan_writeChC0_ne n d c hm, ← chan_storeFbCon_ne hm d c]
  exact (routingOnly_updateAlg n _).chans m

theorem slotRoutingOnly_writeChC0 (n : ChanIdx) (d : Byte) (c : Chip) (j : SlotIdx) :
    SlotRoutingOnly c (writeChC0 n d c) j := by
  rw [SlotRoutingOnly, slot_writeChC0]
  exact (routingOnly_updateAlg n (storeFbCon n d c)).slots j

/-- Settles O25: the three cases of R340 after the store, each carried over the bus enables. That the pair of a
CH_4OP channel is no drum is the legal state's part. -/
theorem chC0WriteSetsFeedbackConnectionEnablesRouting : Obligations.ChC0WriteSetsFeedbackConnectionEnablesRouting := by
  rintro s n d hv ⟨-, hpairs, -, -⟩
  refine ⟨s.regWrite (writeChC0 n d), rfl, rfl, State.regWrite_result .., State.regWrite_pending .., ?_⟩
  rw [regWrite_chip_of_valid _ hv]
  refine ⟨sameGlobals_writeChC0 n d s.chip, chan_writeChC0_self n d s.chip, fun m hnew htype hpair => ?_,
    fun m hnew htype hpair => fourRouted_writeChC0_second hnew htype hpair, fun halone hdrum => ?_, fun hdrum => ?_,
    fun m hm => ?_, fun j => ⟨slotRoutingOnly_writeChC0 n d s.chip j, fun hj hp => ?_⟩⟩
  · have hm : (s.chip.chan m).chtype ≠ .drum := by simp [(hpairs n m hpair).mp htype]
    exact fourRouted_writeChC0_first hnew htype hpair hm
  · have halone : ∀ m, ¬ Partner s.chip n m :=
      halone.elim (fun h => not_partner_of_newm h n) not_partner_of_twoOp
    exact ⟨alg_writeChC0 halone, twoRouted_writeChC0 halone hdrum⟩
  · have hdrum' : ((storeFbCon n d s.chip).chan n).chtype = .drum := by rwa [chtype_storeFbCon]
    refine ⟨alg_writeChC0 (not_partner_of_drum hdrum), ?_, ?_, fun hn => ?_⟩
    · rw [(sameRouting_writeChC0 n d s.chip n).out, out_updateAlg_of_drum hdrum', chan_storeFbCon_self]
    · rintro rfl
      have hsix := slot_updateAlg_six hdrum'
      rw [chan_storeFbCon_self] at hsix
      simpa only [slot_writeChC0] using hsix
    · simpa only [slot_writeChC0] using slot_updateAlg_seven_or_eight hn hdrum'
  · exact ⟨chanRoutingOnly_writeChC0 hm,
      by rw [chan_writeChC0_ne n d s.chip hm, chtype_updateAlg, chtype_storeFbCon],
      fun hp => (sameChannel_writeChC0 hm hp).chan⟩
  · exact (sameChannel_writeChC0 hj hp).slot j rfl

end Sys2Proof.Machine

/-! R250 to R256 and R270. The slot step writes the block outside its slot only by the rhythm capture and the noise, so
its global fields and the phase it puts out are read off the captured block; the other fields of the slot are
`slotStep_slot_self`. -/

namespace Sys2Proof.Machine

open Spec

/-! ### The global fields of a slot step -/

theorem Chip.SameGlobals.noiseStep {a b : Chip} (h : a.SameGlobals b) :
    (noiseStep a).SameGlobals (noiseStep b) := by
  rw [← h]
  rfl

theorem Chip.SameGlobals.rhythmCapture {a b : Chip} (h : a.SameGlobals b) (i : SlotIdx) (p : BitVec 16) :
    Chip.SameGlobals (rhythmCapture i p a) (rhythmCapture i p b) := by
  rw [← h, rhythmCapture_eq, rhythmCapture_eq]
  rfl

/-- The block that the rhythm capture of slot `i` reads: feedback, envelope and accumulator are done. -/
def preCapture (i : SlotIdx) (c : Chip) : Chip := c |> feedbackStep i |> envCalc i |> phaseAccum i

theorem sameGlobals_preCapture (i : SlotIdx) (c : Chip) : c.SameGlobals (preCapture i c) := rfl

/-- R250: feedback and envelope leave the accumulator, so this tick's phase is that of the state before the step. -/
theorem tickPhase_envCalc_feedbackStep (i : SlotIdx) (c : Chip) :
    tickPhase ((envCalc i (feedbackStep i c)).slot i) = tickPhase (c.slot i) := by
  simp [envCalc, feedbackStep, tickPhase]

theorem pgPhaseOut_preCapture (i : SlotIdx) (c : Chip) :
    ((preCapture i c).slot i).pgPhaseOut = tickPhase (c.slot i) := by
  rw [preCapture, phaseAccum, Chip.slot_modSlot_self]
  exact tickPhase_envCalc_feedbackStep i c

/-- The block before a step of slot `i` with the step's rhythm capture alone done to it. -/
def captured (i : SlotIdx) (c : Chip) : Chip := rhythmCapture i (tickPhase (c.slot i)) c

theorem getLsbD_tickPhase (s : Slot) {k : Nat} (hk : k < 16) :
    (tickPhase s).getLsbD k = s.pgPhase.getLsbD (9 + k) := by
  simp only [tickPhase, BitVec.getLsbD_ofNat, hk, decide_true, Bool.true_and, Nat.testBit_shiftRight,
    BitVec.testBit_toNat]

theorem captured_eq (i : SlotIdx) (c : Chip) : captured i c = { c with
    rmHhBit2 := if i = 13 then (c.slot i).pgPhase.getLsbD (9 + 2) else c.rmHhBit2
    rmHhBit3 := if i = 13 then (c.slot i).pgPhase.getLsbD (9 + 3) else c.rmHhBit3
    rmHhBit7 := if i = 13 then (c.slot i).pgPhase.getLsbD (9 + 7) else c.rmHhBit7
    rmHhBit8 := if i = 13 then (c.slot i).pgPhase.getLsbD (9 + 8) else c.rmHhBit8
    rmTcBit3 := if i = 17 ∧ c.rhythmOn = true then (c.slot i).pgPhase.getLsbD (9 + 3) else c.rmTcBit3
    rmTcBit5 := if i = 17 ∧ c.rhythmOn = true then (c.slot i).pgPhase.getLsbD (9 + 5) else c.rmTcBit5 } := by
  rw [captured, rhythmCapture_eq]
  simp only [getLsbD_tickPhase, Nat.reduceLT]

theorem slotStep_eq_of_captured (cfg : Config) (i : SlotIdx) (c : Chip) : slotStep cfg i c =
    outputStep cfg i (noiseStep (rhythmOverride i (rhythmCapture i (tickPhase (c.slot i)) (preCapture i c)))) := by
  rw [← tickPhase_envCalc_feedbackStep i c]
  rfl

theorem sameGlobals_captured_rhythmCapture (i : SlotIdx) (c : Chip) :
    (captured i c).SameGlobals (rhythmCapture i (tickPhase (c.slot i)) (preCapture i c)) :=
  (sameGlobals_preCapture i c).rhythmCapture i _

/-- R381: outside the slot records a step is the capture and the noise. -/
theorem sameGlobals_slotStep (cfg : Config) (i : SlotIdx) (c : Chip) :
    (noiseStep (captured i c)).SameGlobals (slotStep cfg i c) := by
  rw [slotStep_eq_of_captured]
  have hphase := (sameGlobals_captured_rhythmCapture i c).trans (rhythmOverride_sameGlobals i _)
  exact hphase.noiseStep.trans (Chip.sameGlobals_modSlot _ _ _)

/-! ### The phase put out -/

theorem toNat_tickPhase (s : Slot) : (tickPhase s).toNat = s.pgPhase.toNat / 512 % 65536 := by
  simp [tickPhase, Nat.shiftRight_eq_div_pow]

/-- R254: the phase that slot `i` puts out, from its phase `p` and the block after the capture. -/
def phaseOut (i : SlotIdx) (p : BitVec 16) (c : Chip) : BitVec 16 :=
  if c.rhythmOn = false then p
  else if i = 13 then hiHatPhase c (c.noise.getLsbD 0)
  else if i = 16 then snarePhase c (c.noise.getLsbD 0)
  else if i = 17 then cymbalPhase c
  else p

theorem pgPhaseOut_rhythmOverride (i : SlotIdx) (c : Chip) :
    ((rhythmOverride i c).slot i).pgPhaseOut = phaseOut i (c.slot i).pgPhaseOut c := by
  unfold rhythmOverride phaseOut
  cases c.rhythmOn with
  | false => rfl
  | true =>
    simp only [if_true, Bool.true_eq_false, if_false, apply_ite (Chip.slot · i), apply_ite Slot.pgPhaseOut,
      Chip.slot_modSlot_self]

theorem Chip.SameGlobals.phaseOut {a b : Chip} (h : a.SameGlobals b) (i : SlotIdx) (p : BitVec 16) :
    phaseOut i p b = phaseOut i p a := by
  rw [← h]
  rfl

theorem pgPhaseOut_slotStep (cfg : Config) (i : SlotIdx) (c : Chip) :
    ((slotStep cfg i c).slot i).pgPhaseOut = phaseOut i (tickPhase (c.slot i)) (captured i c) := by
  rw [slotStep_eq_of_captured, outputStep, Chip.slot_modSlot_self]
  show ((rhythmOverride i _).slot i).pgPhaseOut = _
  rw [pgPhaseOut_rhythmOverride, rhythmCapture_slot, pgPhaseOut_preCapture,
    (sameGlobals_captured_rhythmCapture i c).phaseOut]

theorem rhythmOn_captured (i : SlotIdx) (c : Chip) : (captured i c).rhythmOn = c.rhythmOn := by
  rw [captured_eq]
  rfl

theorem noise_captured (i : SlotIdx) (c : Chip) : (captured i c).noise = c.noise := rhythmCapture_noise i _ c

theorem pgPhaseOut_slotStep_of_not_replaced {cfg : Config} {i : SlotIdx} {c : Chip}
    (h : c.rhythmOn = false ∨ (i ≠ 13 ∧ i ≠ 16 ∧ i ≠ 17)) :
    ((slotStep cfg i c).slot i).pgPhaseOut = tickPhase (c.slot i) := by
  rw [pgPhaseOut_slotStep, phaseOut, rhythmOn_captured]
  obtain hoff | ⟨h13, h16, h17⟩ := h
  · rw [if_pos hoff]
  · rw [if_neg h13, if_neg h16, if_neg h17, ite_self]

theorem pgPhaseOut_slotStep_of_rhythmOn {c : Chip} (h : c.rhythmOn = true) (cfg : Config) (i : SlotIdx) :
    ((slotStep cfg i c).slot i).pgPhaseOut =
      if i = 13 then hiHatPhase (captured i c) (c.noise.getLsbD 0)
      else if i = 16 then snarePhase (captured i c) (c.noise.getLsbD 0)
      else if i = 17 then cymbalPhase (captured i c) else tickPhase (c.slot i) := by
  rw [pgPhaseOut_slotStep, phaseOut, rhythmOn_captured, noise_captured, if_neg (by simp [h])]

/-! ### The phase increment -/

theorem channelOf_eq_ofNat (i : SlotIdx) : channelOf i = Fin.ofNat 18 (3 * (i.val / 6) + i.val % 3) := by
  revert i; decide

theorem retrigger_iff (s : Slot) : s.retrigger = true ↔ s.key ≠ 0 ∧ s.egGen = .release := by
  simp [Slot.retrigger, Slot.keyed]

theorem phaseInc_eq_div (f : Nat) (block : BitVec 3) (mult : BitVec 4) :
    phaseInc f block mult = f * 2 ^ block.toNat / 2 * mtTable mult / 2 := by
  simp only [phaseInc, Nat.shiftLeft_eq, Nat.shiftRight_eq_div_pow, pow_one]

/-! ### The vibrato -/

theorem vibRange_eq_div (f : BitVec 10) (p : BitVec 3) (shift : Nat) : vibRange f p shift =
    (if p &&& 3 = 0 then 0 else if p.getLsbD 0 then f.toNat / 128 / 2 else f.toNat / 128) / 2 ^ shift := by
  have hr : (f >>> 7).toNat &&& 7 = f.toNat / 128 := by
    rw [BitVec.toNat_ushiftRight, Nat.shiftRight_eq_div_pow, Nat.and_two_pow_sub_one_eq_mod _ 3]
    exact Nat.mod_eq_of_lt (by omega)
  simp only [vibRange, hr, Nat.shiftRight_eq_div_pow, pow_one]

theorem vibRange_le (f : BitVec 10) (p : BitVec 3) (shift : Nat) : vibRange f p shift ≤ f.toNat / 128 := by
  rw [vibRange_eq_div]
  refine (Nat.div_le_self _ _).trans ?_
  split
  · exact Nat.zero_le _
  · split
    · exact Nat.div_le_self _ _
    · exact le_rfl

/-- The offset is the magnitude with the sign of the position's top bit: the subtraction never truncates. -/
theorem effFnum_sub (f : BitVec 10) (p : BitVec 3) (shift : Nat) : (effFnum f true p shift : Int) - f.toNat =
    if p.getLsbD 2 then -(vibRange f p shift : Int) else vibRange f p shift := by
  have hle := vibRange_le f p shift
  rw [effFnum, if_pos rfl]
  split <;> omega

theorem effFnum_le (f : BitVec 10) (p : BitVec 3) (shift : Nat) : effFnum f true p shift ≤ 1030 := by
  have hoff := effFnum_sub f p shift
  have hle := vibRange_le f p shift
  split at hoff <;> omega

/-! ### The rhythm phases -/

theorem toNat_hiHatPhase (c : Chip) (n0 : Bool) :
    (hiHatPhase c n0).toNat = (rmXor c).toNat * 512 + if rmXor c ^^ n0 then 0xD0 else 0x34 := by
  unfold hiHatPhase
  cases rmXor c <;> cases n0 <;> rfl

theorem toNat_snarePhase (c : Chip) (n0 : Bool) :
    (snarePhase c n0).toNat = c.rmHhBit8.toNat * 512 + (c.rmHhBit8 ^^ n0).toNat * 256 := by
  unfold snarePhase
  cases c.rmHhBit8 <;> cases n0 <;> rfl

theorem toNat_cymbalPhase (c : Chip) : (cymbalPhase c).toNat = (rmXor c).toNat * 512 + 0x80 := by
  unfold cymbalPhase
  cases rmXor c <;> rfl

/-! ### The modulated phase -/

theorem wavePhase_eq_emod (p : BitVec 16) (m : Int) : wavePhase p m = BitVec.ofInt 10 ((p.toNat + m) % 1024) := by
  apply BitVec.eq_of_toInt_eq
  rw [wavePhase, BitVec.toInt_ofInt, BitVec.toInt_ofInt]
  exact (Int.emod_bmod _ _).symm

/-! ### The noise register -/

theorem toNat_noiseNext (n : BitVec 23) :
    (noiseNext n).toNat = n.toNat / 2 + 2 ^ 22 * (n.getLsbD 14 ^^ n.getLsbD 0).toNat := by
  have hlow : n.toNat / 2 < 2 ^ 22 := by omega
  have htop : (((BitVec.ofBool (n.getLsbD 14 ^^ n.getLsbD 0)).setWidth 23) <<< 22).toNat =
      2 ^ 22 * (n.getLsbD 14 ^^ n.getLsbD 0).toNat := by
    cases n.getLsbD 14 ^^ n.getLsbD 0 <;> rfl
  rw [noiseNext, BitVec.toNat_or, htop, BitVec.toNat_ushiftRight, Nat.shiftRight_eq_div_pow, pow_one, Nat.or_comm,
    ← Nat.two_pow_add_eq_or_of_lt hlow, Nat.add_comm]

/-- The one value that the shift alone takes to 0 is 1, whose tap 0 refills the top bit. -/
theorem noiseNext_ne_zero {n : BitVec 23} (h : n ≠ 0) : noiseNext n ≠ 0 := by
  intro hz
  have hsum := toNat_noiseNext n
  rw [hz] at hsum
  have hone : n = 1 := by
    have hpos : n.toNat ≠ 0 := fun h0 => h (BitVec.eq_of_toNat_eq h0)
    apply BitVec.eq_of_toNat_eq
    simp only [BitVec.ofNat_eq_ofNat, BitVec.toNat_ofNat] at hsum ⊢
    omega
  subst hone
  exact absurd hz (by decide)

/-! ### The settled statements -/

/-- Settles O31: the global fields are those of the captured block. -/
theorem slotStepTouchesOneSlotAndNoise : Obligations.SlotStepTouchesOneSlotAndNoise := by
  intro cfg c i
  refine ⟨slotStep_chan cfg i c, fun j hj => slotStep_slot_ne cfg i j c hj, ?_, ?_⟩
  · rw [slotStep_slot_self]
    simp [Slot.SameRegs]
  · have hglobals := sameGlobals_slotStep cfg i c
    rw [captured_eq] at hglobals
    rw [slotStep_noise]
    exact hglobals

/-- Settles O40: the accumulator is read off `slotStep_slot_self`, with the increment in products and quotients. -/
theorem slotStepAdvancesPhase : Obligations.SlotStepAdvancesPhase := by
  intro cfg c i
  refine ⟨?_, fun h => ?_⟩
  · rw [slotStep_slot_self]
    simp only [retrigger_iff, phaseInc_eq_div, channelOf_eq_ofNat, mtTable]
  · rw [pgPhaseOut_slotStep_of_not_replaced h, toNat_tickPhase]

/-- Settles O42: the three phases are R254's functions of the captured block. -/
theorem rhythmPhasesReplaceSlotPhases : Obligations.RhythmPhasesReplaceSlotPhases := by
  intro cfg c hon
  have hout := pgPhaseOut_slotStep_of_rhythmOn hon cfg
  refine ⟨?_, ?_, ?_⟩
  · rw [hout, if_pos rfl, toNat_hiHatPhase, captured_eq]
    rfl
  · rw [hout, if_neg (by decide), if_pos rfl, toNat_snarePhase, captured_eq]
    rfl
  · rw [hout, if_neg (by decide), if_neg (by decide), if_pos rfl, toNat_cymbalPhase, captured_eq]
    simp [rmXor, hon]

/-- Settles O43: the shift and the feedback bit share no bit, so their union is a sum. -/
theorem noiseIsANonzeroLfsr : Obligations.NoiseIsANonzeroLfsr :=
  ⟨fun cfg c i => slotStep_noise cfg i c, toNat_noiseNext, fun _ h => noiseNext_ne_zero h⟩

/-- Settles O44: `slotStep_out`, with the sum reduced modulo 1024 before it is cut to 10 bits. -/
theorem slotStepOutputIsTheWaveform : Obligations.SlotStepOutputIsTheWaveform := by
  intro cfg c i
  have hfb : ((slotStep cfg i c).slot i).fbmod = s16 (feedbackVal (c.chan (channelOf i)).fb (c.slot i).prout
      (c.slot i).out) := by rw [slotStep_slot_self]
  have hatt : ((slotStep cfg i c).slot i).egOut = egTotal (c.slot i) c.tremolo := by rw [slotStep_slot_self]
  have hout := slotStep_out cfg i c
  rw [wavePhase_eq_emod, ← hfb, ← hatt] at hout
  exact hout

/-- Settles O41: the magnitude at each position, signed by `effFnum_sub`. -/
theorem vibratoPattern : Obligations.VibratoPattern := by
  intro f shift
  refine ⟨?_, ?_, ?_, ?_, ?_, ?_, ?_, ?_, fun p => rfl, fun p => effFnum_le f p shift⟩
  all_goals simp [effFnum_sub, vibRange_eq_div]

end Sys2Proof.Machine

/-! R302 to R311. The envelope step writes stage, level and attenuation from the slot's stage, level and key. The rate
and the shift of R304 are put in the statements' arithmetic first, then the level by its three cases: a retrigger, the
off condition, and a move by the shift. -/

namespace Sys2Proof.Machine

open Spec

/-! ### The conditions on a slot -/

theorem keyed_iff (s : Slot) : s.keyed = true ↔ s.key ≠ 0 := by simp [Slot.keyed]

theorem retrigger_eq_false_of_key {s : Slot} (h : s.key = 0) : s.retrigger = false := by
  simp [Slot.retrigger, Slot.keyed, h]

theorem retrigger_eq_false_of_egGen {s : Slot} (h : s.egGen ≠ .release) : s.retrigger = false := by
  simp [Slot.retrigger, h]

/-- R306: the six bits of the mask are all set from 0x1F8 on. -/
theorem egOff_iff (s : Slot) : s.egOff = true ↔ 0x1F8 ≤ s.egRout.toNat := by
  have mask : ∀ r : BitVec 9, (r &&& 0x1F8 == 0x1F8) = true ↔ 0x1F8 ≤ r.toNat := by decide +kernel
  exact mask s.egRout

theorem egOff_eq_false {s : Slot} (h : s.egRout.toNat < 0x1F8) : s.egOff = false := by
  rw [← Bool.not_eq_true, egOff_iff]
  exact Nat.not_le.mpr h

/-! ### The rate and the shift of R304 -/

theorem egRate_eq (s : Slot) (ksv : BitVec 4) :
    egRate s ksv = ksv.toNat / (if s.regKsr then 1 else 4) + 4 * (egRegRate s).toNat := by
  rw [egRate, Nat.shiftRight_eq_div_pow, Nat.shiftLeft_eq, Nat.mul_comm]
  cases s.regKsr <;> rfl

theorem egRate_lt (s : Slot) (ksv : BitVec 4) : egRate s ksv < 76 := by
  have hks := Nat.div_le_self ksv.toNat (if s.regKsr then 1 else 4)
  rw [egRate_eq]
  omega

/-- R304: the saturation looks at bit 4 of the rate's upper part. -/
theorem rateHi_eq {rate : Nat} (h : rate < 76) : rateHi rate = min 15 (rate / 4) := by
  have saturate : ∀ n < 19, (if n &&& 0x10 ≠ 0 then 15 else n) = min 15 n := by decide
  rw [rateHi, Nat.shiftRight_eq_div_pow]
  exact saturate (rate / 4) (by omega)

theorem rateHi_eq_fifteen_iff {rate : Nat} (h : rate < 76) : rateHi rate = 15 ↔ 60 ≤ rate := by
  rw [rateHi_eq h]
  omega

theorem rateLo_eq (rate : Nat) : rateLo rate = rate % 4 := Nat.and_two_pow_sub_one_eq_mod rate 2

theorem egIncstep_eq {lo : Nat} (h : lo < 4) (t : BitVec 2) : egIncstep lo t =
    if (lo = 1 ∧ t.toNat = 0) ∨ (lo = 2 ∧ t.toNat % 2 = 0) ∨ (lo = 3 ∧ t.toNat ≠ 3) then 1 else 0 := by
  revert lo t
  decide

theorem slowShift_eq (c : Chip) {rate : Nat} (h : rate < 76) : slowShift c rate =
    if c.egState then
      if min 15 (rate / 4) + c.egAdd = 12 then 1
      else if min 15 (rate / 4) + c.egAdd = 13 then rate % 4 / 2
      else if min 15 (rate / 4) + c.egAdd = 14 then rate % 4 % 2 else 0
    else 0 := by
  have bits : ∀ lo < 4, (lo >>> 1) &&& 1 = lo / 2 ∧ lo &&& 1 = lo % 2 := by decide
  obtain ⟨hhigh, hlow⟩ := bits (rate % 4) (Nat.mod_lt _ (by decide))
  rw [slowShift, rateHi_eq h, rateLo_eq, hhigh, hlow]
  congr 1
  split
  next h => rw [if_pos h]
  next h => simp [h]
  next h => simp [h]
  next h12 h13 h14 => rw [if_neg h12, if_neg h13, if_neg h14]

/-- R304: the sum capped at 3, where a sum of 0 steps on every second tick. -/
theorem fastShift_eq (c : Chip) {rate : Nat} (h : rate < 76) (hfast : 12 ≤ min 15 (rate / 4)) : fastShift c rate =
    if min 15 (rate / 4) + egIncstep (rate % 4) c.egTimerLo = 12 then (if c.egState then 1 else 0)
    else min 3 (min 15 (rate / 4) + egIncstep (rate % 4) c.egTimerLo - 12) := by
  have hstep : egIncstep (rate % 4) c.egTimerLo ≤ 1 := by
    rw [egIncstep_eq (Nat.mod_lt _ (by decide))]
    split <;> decide
  have cap : ∀ hi < 16, ∀ step ≤ 1, 12 ≤ hi →
      (if ((hi &&& 3) + step) &&& 4 ≠ 0 then 3 else (hi &&& 3) + step) = min 3 (hi + step - 12) := by decide
  rw [fastShift, rateHi_eq h, rateLo_eq]
  simp only [cap _ (by omega : min 15 (rate / 4) < 16) _ hstep hfast]
  have hzero : min 3 (min 15 (rate / 4) + egIncstep (rate % 4) c.egTimerLo - 12) = 0 ↔
      min 15 (rate / 4) + egIncstep (rate % 4) c.egTimerLo = 12 := by omega
  simp only [hzero]
  cases c.egState <;> rfl

/-- The step's shift is R304's for the step's own rate register. -/
theorem egShift_eq_rateShift (c : Chip) (s : Slot) (ksv : BitVec 4) :
    egShift c s ksv = rateShift c (ksv.toNat / (if s.regKsr then 1 else 4)) (egRegRate s) := by
  have hrate := egRate_lt s ksv
  unfold egShift rateShift
  dsimp only
  rw [← egRate_eq, rateHi_eq hrate, slowShift_eq c hrate, ← egIncstep_eq (Nat.mod_lt _ (by decide))]
  split
  · rfl
  · split
    · rfl
    · exact fastShift_eq c hrate (by omega)

@[simp] theorem rateShift_zero (c : Chip) (ks : Nat) : rateShift c ks 0#4 = 0 := rfl

theorem rateShift_le (c : Chip) (ks : Nat) (reg : BitVec 4) : rateShift c ks reg ≤ 3 := by
  unfold rateShift
  dsimp only
  repeat' split
  all_goals omega

/-! ### The rate register of a stage -/

theorem egRegRate_of_retrigger {s : Slot} (h : s.retrigger = true) : egRegRate s = s.regAr := if_pos h

theorem egRegRate_of_attack {s : Slot} (h : s.egGen = .attack) : egRegRate s = s.regAr := by
  simp [egRegRate, h]

theorem egRegRate_of_decay {s : Slot} (h : s.egGen = .decay) : egRegRate s = s.regDr := by
  simp [egRegRate, Slot.retrigger, h]

theorem egRegRate_of_sustain {s : Slot} (h : s.egGen = .sustain) :
    egRegRate s = if s.regType then 0 else s.regRr := by
  simp [egRegRate, Slot.retrigger, h]

theorem egRegRate_of_release {s : Slot} (hr : s.retrigger = false) (h : s.egGen = .release) :
    egRegRate s = s.regRr := by
  simp [egRegRate, hr, h]

/-! ### The level that the increment is added to -/

theorem egNext_of_retrigger {s : Slot} (h : s.retrigger = true) (rate : Nat) :
    egNext s rate = if rateHi rate = 15 then 0 else (s.egRout.toNat : Int) := if_pos h

theorem egNext_of_egOff {s : Slot} (hr : s.retrigger = false) (hgen : s.egGen ≠ .attack) (hoff : s.egOff = true)
    (rate : Nat) : egNext s rate = 0x1FF := by
  simp [egNext, hr, hgen, hoff]

theorem egNext_of_attack {s : Slot} (hgen : s.egGen = .attack) (rate : Nat) : egNext s rate = s.egRout.toNat := by
  simp [egNext, hgen, Slot.retrigger]

theorem egNext_of_not_egOff {s : Slot} (hr : s.retrigger = false) (hoff : s.egOff = false) (rate : Nat) :
    egNext s rate = s.egRout.toNat := by
  simp [egNext, hr, hoff]

/-! ### The increment -/

/-- The distance that a shift moves a decaying level, `1 << (shift − 1)` or nothing (R308, R309). -/
def fallBy (shift : Nat) : Nat := if shift = 0 then 0 else 2 ^ (shift - 1)

theorem fallBy_le {shift : Nat} (h : shift ≤ 3) : fallBy shift ≤ 4 := by
  interval_cases shift <;> decide

theorem egDecayInc_of_retrigger {s : Slot} (h : s.retrigger = true) (shift : Nat) : egDecayInc s shift = 0 := by
  simp [egDecayInc, h]

theorem egDecayInc_of_egOff {s : Slot} (h : s.egOff = true) (shift : Nat) : egDecayInc s shift = 0 := by
  simp [egDecayInc, h]

theorem egDecayInc_eq_fallBy {s : Slot} (hr : s.retrigger = false) (hoff : s.egOff = false) (shift : Nat) :
    egDecayInc s shift = fallBy shift := by
  cases shift <;> simp [egDecayInc, fallBy, hr, hoff, Nat.shiftLeft_eq]

/-- R308 and R309: the stages other than ATTACK share one increment, which DECAY leaves out at the sustain level. -/
theorem egInc_of_ne_attack {s : Slot} (hgen : s.egGen ≠ .attack) (rate shift : Nat) : egInc s rate shift =
    if s.egGen = .decay ∧ s.egRout.toNat / 16 = s.regSl.toNat then 0 else egDecayInc s shift := by
  unfold egInc
  cases h : s.egGen with
  | attack => exact absurd h hgen
  | decay => simp [Nat.shiftRight_eq_div_pow]
  | sustain => simp
  | release => simp

theorem egInc_eq_zero {s : Slot} (hgen : s.egGen ≠ .attack) {shift : Nat} (h : egDecayInc s shift = 0) (rate : Nat) :
    egInc s rate shift = 0 := by
  rw [egInc_of_ne_attack hgen, h, ite_self]

theorem egInc_of_attack {s : Slot} (hgen : s.egGen = .attack) (rate shift : Nat) : egInc s rate shift =
    if s.egRout ≠ 0 ∧ s.keyed ∧ 0 < shift ∧ rateHi rate ≠ 15 then (-(s.egRout.toNat : Int) - 1) / 2 ^ (4 - shift)
    else 0 := by
  simp only [egInc, hgen, Int.shiftRight_eq_div_pow]
  norm_cast

/-- R307: the fraction takes at most the whole of a level above 0. -/
theorem attackInc_bounds {level : Int} (hlevel : 0 < level) {k : Nat} (hk : k ≠ 0) :
    -level ≤ (-level - 1) / 2 ^ k ∧ (-level - 1) / 2 ^ k ≤ 0 := by
  have htwo : (2 : Int) ≤ 2 ^ k := le_self_pow₀ (by decide) hk
  constructor
  · rw [Int.le_ediv_iff_mul_le (by omega)]
    nlinarith
  · exact Int.ediv_nonpos_of_nonpos_of_neg (by omega) (by omega)

/-! ### What a slot step writes -/

section
variable (cfg : Config) (c : Chip) (i : SlotIdx)

theorem egOut_slotStep : ((slotStep cfg i c).slot i).egOut = egTotal (c.slot i) c.tremolo := by
  rw [slotStep_slot_self]

theorem egGen_slotStep : ((slotStep cfg i c).slot i).egGen = egGenNext (c.slot i) := by
  rw [slotStep_slot_self]

theorem pgReset_slotStep : ((slotStep cfg i c).slot i).pgReset = (c.slot i).retrigger := by
  rw [slotStep_slot_self]

theorem egRout_slotStep : ((slotStep cfg i c).slot i).egRout =
    BitVec.ofInt 9 (egNext (c.slot i) (egRate (c.slot i) (c.chan (channelOf i)).ksv) +
      egInc (c.slot i) (egRate (c.slot i) (c.chan (channelOf i)).ksv)
        (egShift c (c.slot i) (c.chan (channelOf i)).ksv)) := by
  rw [slotStep_slot_self]

end

/-- A new level inside the 9-bit range is stored as it is. -/
theorem toNat_ofInt_of_lt {v : Int} (h0 : 0 ≤ v) (h : v < 512) : ((BitVec.ofInt 9 v).toNat : Int) = v := by
  rw [BitVec.toNat_ofInt, Int.toNat_of_nonneg (Int.emod_nonneg _ (by decide))]
  exact Int.emod_eq_of_lt h0 h

section
variable {c : Chip} {i : SlotIdx}

/-- R305: a retrigger adds no increment. -/
theorem egRout_slotStep_of_retrigger (h : (c.slot i).retrigger = true) (cfg : Config) :
    ((slotStep cfg i c).slot i).egRout =
      if 60 ≤ egRate (c.slot i) (c.chan (channelOf i)).ksv then 0 else (c.slot i).egRout := by
  obtain ⟨-, hgen⟩ := (retrigger_iff _).mp h
  have hinc := egInc_eq_zero (by simp [hgen]) (egDecayInc_of_retrigger h (egShift c (c.slot i)
    (c.chan (channelOf i)).ksv))
  rw [egRout_slotStep, hinc, egNext_of_retrigger h, Int.add_zero]
  simp only [rateHi_eq_fifteen_iff (egRate_lt _ _)]
  split
  · rfl
  · rw [BitVec.ofInt_natCast, BitVec.ofNat_toNat, BitVec.setWidth_eq]

/-- R306: the jump to 0x1FF adds no increment. -/
theorem egRout_slotStep_of_egOff (hr : (c.slot i).retrigger = false) (hgen : (c.slot i).egGen ≠ .attack)
    (hoff : (c.slot i).egOff = true) (cfg : Config) : ((slotStep cfg i c).slot i).egRout = 0x1FF := by
  rw [egRout_slotStep, egNext_of_egOff hr hgen hoff, egInc_eq_zero hgen (egDecayInc_of_egOff hoff _)]
  rfl

/-- R308 and R309: below the off condition the decaying stages move up, and the sum stays below 0x200. -/
theorem toNat_egRout_slotStep_of_falling (hr : (c.slot i).retrigger = false) (hgen : (c.slot i).egGen ≠ .attack)
    (hlt : (c.slot i).egRout.toNat < 0x1F8) (cfg : Config) :
    ((slotStep cfg i c).slot i).egRout.toNat = (c.slot i).egRout.toNat +
      if (c.slot i).egGen = .decay ∧ (c.slot i).egRout.toNat / 16 = (c.slot i).regSl.toNat then 0
      else fallBy (rateShift c ((c.chan (channelOf i)).ksv.toNat / (if (c.slot i).regKsr then 1 else 4))
        (egRegRate (c.slot i))) := by
  have hoff := egOff_eq_false hlt
  have hfall := fallBy_le (rateShift_le c ((c.chan (channelOf i)).ksv.toNat / (if (c.slot i).regKsr then 1 else 4))
    (egRegRate (c.slot i)))
  rw [egRout_slotStep, egNext_of_not_egOff hr hoff, egInc_of_ne_attack hgen, egDecayInc_eq_fallBy hr hoff,
    egShift_eq_rateShift]
  zify
  rw [toNat_ofInt_of_lt] <;> split <;> omega

/-- R307: an ATTACK moves down by a fraction of the level plus 1, so never below 0. -/
theorem toNat_egRout_slotStep_of_attack (hgen : (c.slot i).egGen = .attack) (cfg : Config) :
    (((slotStep cfg i c).slot i).egRout.toNat : Int) = (c.slot i).egRout.toNat +
      if (c.slot i).egRout ≠ 0 ∧ (c.slot i).keyed ∧ 0 < egShift c (c.slot i) (c.chan (channelOf i)).ksv ∧
        rateHi (egRate (c.slot i) (c.chan (channelOf i)).ksv) ≠ 15
      then (-((c.slot i).egRout.toNat : Int) - 1) / 2 ^ (4 - egShift c (c.slot i) (c.chan (channelOf i)).ksv)
      else 0 := by
  have hshift : egShift c (c.slot i) (c.chan (channelOf i)).ksv ≤ 3 := by
    rw [egShift_eq_rateShift]
    exact rateShift_le _ _ _
  have hlevel := (c.slot i).egRout.isLt
  rw [egRout_slotStep, egNext_of_attack hgen, egInc_of_attack hgen]
  split
  next h =>
    obtain ⟨hne, -, -, -⟩ := h
    have hpos : 0 < (c.slot i).egRout.toNat := Nat.pos_of_ne_zero fun h0 => hne (BitVec.eq_of_toNat_eq h0)
    have hk : 4 - egShift c (c.slot i) (c.chan (channelOf i)).ksv ≠ 0 := by omega
    obtain ⟨hlow, hhigh⟩ := attackInc_bounds (Int.natCast_pos.mpr hpos) hk
    exact toNat_ofInt_of_lt (by omega) (by omega)
  next => exact toNat_ofInt_of_lt (by omega) (by omega)

end

/-! ### The total attenuation and the stage -/

theorem kslShift_eq (ksl : BitVec 2) :
    kslShift ksl = if ksl = 0 then 8 else if ksl = 1 then 1 else if ksl = 2 then 2 else 0 := by
  revert ksl
  decide

theorem toNat_egTotal (s : Slot) (tremolo : Nat) : (egTotal s tremolo).toNat =
    min 511 (s.egRout.toNat + 4 * s.regTl.toNat + s.egKsl / 2 ^ kslShift s.regKsl +
      if s.tremEn then tremolo else 0) := by
  simp only [egTotal, Nat.shiftLeft_eq, Nat.shiftRight_eq_div_pow, BitVec.toNat_ofNat]
  rw [Nat.mod_eq_of_lt (by omega), Nat.min_comm, Nat.mul_comm]

/-- R311: the key-off check comes last. -/
theorem egGenNext_of_key_eq_zero {s : Slot} (h : s.key = 0) : egGenNext s = .release := by
  simp [egGenNext, Slot.keyed, h]

theorem egGenNext_of_retrigger {s : Slot} (h : s.retrigger = true) : egGenNext s = .attack := by
  obtain ⟨hkey, -⟩ := (retrigger_iff s).mp h
  simp [egGenNext, (keyed_iff s).mpr hkey, h]

theorem egGenNext_of_keyed {s : Slot} (hkey : s.key ≠ 0) (hgen : s.egGen ≠ .release) :
    egGenNext s = egStageStep s := by
  simp [egGenNext, (keyed_iff s).mpr hkey, retrigger_eq_false_of_egGen hgen]

theorem egStageStep_of_attack {s : Slot} (h : s.egGen = .attack) :
    egStageStep s = if s.egRout = 0 then .decay else .attack := by
  simp only [egStageStep, h]

theorem egStageStep_of_decay {s : Slot} (h : s.egGen = .decay) :
    egStageStep s = if s.egRout.toNat / 16 = s.regSl.toNat then .sustain else .decay := by
  simp only [egStageStep, h, Nat.shiftRight_eq_div_pow, Nat.reducePow]

theorem egStageStep_of_sustain {s : Slot} (h : s.egGen = .sustain) : egStageStep s = .sustain := by
  simp only [egStageStep, h]

/-! ### The settled statements -/

/-- Settles O33: the step writes `egTotal` of the state before it, which is the sum with KSLSHIFT written out. -/
theorem slotStepTotalAttenuation : Obligations.SlotStepTotalAttenuation := by
  intro cfg c i
  dsimp only
  rw [egOut_slotStep, toNat_egTotal, kslShift_eq]

/-- Settles O34: one lemma about `egGenNext` for each stage, the key-off first. -/
theorem slotStepStageTransitions : Obligations.SlotStepStageTransitions := by
  intro cfg c i
  dsimp only
  rw [egGen_slotStep, pgReset_slotStep]
  refine ⟨egGenNext_of_key_eq_zero, fun hkey hgen => ?_, fun hkey hgen => ?_, fun hkey hgen => ?_,
    fun hkey hgen => ?_, retrigger_iff _⟩
  · exact egGenNext_of_retrigger ((retrigger_iff _).mpr ⟨hkey, hgen⟩)
  · rw [egGenNext_of_keyed hkey (by simp [hgen]), egStageStep_of_attack hgen]
  · rw [egGenNext_of_keyed hkey (by simp [hgen]), egStageStep_of_decay hgen]
  · rw [egGenNext_of_keyed hkey (by simp [hgen]), egStageStep_of_sustain hgen]

/-- Settles O36: a retrigger and the off jump add no increment, so the level is R305's or R306's own. -/
theorem instantAttackAndOffJump : Obligations.InstantAttackAndOffJump := by
  intro cfg c i
  refine ⟨fun hkey hgen => ?_, fun hnot hgen hoff => ?_⟩
  · have hr := (retrigger_iff (c.slot i)).mpr ⟨hkey, hgen⟩
    rw [egRout_slotStep_of_retrigger hr, egRate_eq, egRegRate_of_retrigger hr]
  · have hr : (c.slot i).retrigger = false := by rwa [← Bool.not_eq_true, retrigger_iff]
    exact egRout_slotStep_of_egOff hr hgen ((egOff_iff _).mpr hoff) cfg

/-- Settles O39: the falling stages are one lemma at each stage's rate register, and ATTACK is the other. -/
theorem envelopeLevelMovesByItsRate : Obligations.EnvelopeLevelMovesByItsRate := by
  intro cfg c i
  refine ⟨fun hkey hgen hlt => ?_, fun hgen hlt => ?_, fun hgen hlt => ?_, fun hgen hkey => ?_,
    fun hgen hkey hne hrate => ?_⟩
  · have hr := retrigger_eq_false_of_key hkey
    rw [toNat_egRout_slotStep_of_falling hr (by simp [hgen]) hlt, egRegRate_of_release hr hgen]
    simp [hgen, fallBy]
  · have hr := retrigger_eq_false_of_egGen (s := c.slot i) (by simp [hgen])
    rw [toNat_egRout_slotStep_of_falling hr (by simp [hgen]) hlt, egRegRate_of_sustain hgen]
    cases (c.slot i).regType <;> simp [hgen, fallBy]
  · have hr := retrigger_eq_false_of_egGen (s := c.slot i) (by simp [hgen])
    rw [toNat_egRout_slotStep_of_falling hr (by simp [hgen]) hlt, egRegRate_of_decay hgen]
    simp [hgen, fallBy]
  · have hlevel := toNat_egRout_slotStep_of_attack hgen cfg
    simpa [Slot.keyed, hkey] using hlevel
  · have hreg := egRegRate_of_attack hgen
    have hslow : rateHi (egRate (c.slot i) (c.chan (channelOf i)).ksv) ≠ 15 := by
      rw [Ne, rateHi_eq_fifteen_iff (egRate_lt _ _), egRate_eq, hreg]
      exact Nat.not_le.mpr hrate
    rw [toNat_egRout_slotStep_of_attack hgen, egShift_eq_rateShift, hreg]
    simp only [ne_eq, hne, (keyed_iff _).mpr hkey, hslow, not_false_eq_true, and_true, true_and,
      Nat.pos_iff_ne_zero, ite_not]

end Sys2Proof.Machine

/-! R347. The slot step writes `prout` and `fbmod` from the slot before it; the arithmetic shift of the model is the
spec's floor division. -/

namespace Sys2Proof.Machine

/-! ### The feedback value -/

theorem feedbackVal_eq_div (fb : BitVec 3) (prout out : S16) :
    feedbackVal fb prout out = if fb = 0 then 0 else (prout.toInt + out.toInt) / 2 ^ (9 - fb.toNat) := by
  rw [feedbackVal, Int.shiftRight_eq_div_pow, Nat.cast_pow, Nat.cast_ofNat]

/-! ### What a slot step writes -/

theorem prout_slotStep (cfg : Config) (i : SlotIdx) (c : Chip) :
    ((slotStep cfg i c).slot i).prout = (c.slot i).out := by
  rw [slotStep_slot_self]

theorem fbmod_slotStep (cfg : Config) (i : SlotIdx) (c : Chip) :
    ((slotStep cfg i c).slot i).fbmod =
      s16 (feedbackVal (c.chan (channelOf i)).fb (c.slot i).prout (c.slot i).out) := by
  rw [slotStep_slot_self]

/-! ### The settled statement -/

/-- Settles O32: the step writes `feedbackVal` of the two outputs before it, which is the floor division. -/
theorem slotStepFeedsBackLastTwoOutputs : Obligations.SlotStepFeedsBackLastTwoOutputs := by
  intro cfg c i
  dsimp only
  exact ⟨prout_slotStep cfg i c, by rw [fbmod_slotStep, feedbackVal_eq_div]⟩

end Sys2Proof.Machine

/-! R390 to R393 and R400. The LFOs, the tick counter and the envelope timer are moved by `tickEnd` alone, on the clock
fields of the block it is given, and no other part of a tick writes those; so a tick moves them as `tickEnd` does in
either variant. RENDER is the resampler's loop, which `catchUp_eq_iterate` counts. -/

namespace Sys2Proof.Machine

/-! ### The clock of a tick -/

/-- The fields that the end of a tick reads are the same in both blocks. -/
structure Chip.SameClock (a b : Chip) : Prop where
  timer : b.timer = a.timer
  tremolopos : b.tremolopos = a.tremolopos
  tremoloshift : b.tremoloshift = a.tremoloshift
  vibpos : b.vibpos = a.vibpos
  egTimer : b.egTimer = a.egTimer
  egTimerrem : b.egTimerrem = a.egTimerrem
  egState : b.egState = a.egState
  egAdd : b.egAdd = a.egAdd
  egTimerLo : b.egTimerLo = a.egTimerLo

theorem Chip.SameClock.trans {a b c : Chip} (h1 : a.SameClock b) (h2 : b.SameClock c) : a.SameClock c where
  timer := h2.timer.trans h1.timer
  tremolopos := h2.tremolopos.trans h1.tremolopos
  tremoloshift := h2.tremoloshift.trans h1.tremoloshift
  vibpos := h2.vibpos.trans h1.vibpos
  egTimer := h2.egTimer.trans h1.egTimer
  egTimerrem := h2.egTimerrem.trans h1.egTimerrem
  egState := h2.egState.trans h1.egState
  egAdd := h2.egAdd.trans h1.egAdd
  egTimerLo := h2.egTimerLo.trans h1.egTimerLo

theorem sameClock_runSlots (cfg : Config) (lo n : Nat) (c : Chip) : c.SameClock (runSlots cfg lo n c) := by
  obtain ⟨-, -, -, -, hshift, -⟩ := runSlots_sameRegs cfg lo n c
  constructor <;> simp [hshift]

theorem sameClock_mixAC (c : Chip) : c.SameClock (mixAC c) := ⟨rfl, rfl, rfl, rfl, rfl, rfl, rfl, rfl, rfl⟩

theorem sameClock_mixBD (c : Chip) : c.SameClock (mixBD c) := ⟨rfl, rfl, rfl, rfl, rfl, rfl, rfl, rfl, rfl⟩

/-- R380, R382: either variant of the tick ends with `tickEnd`, on a block with the clock the tick began with. -/
theorem tick_eq_tickEnd (cfg : Config) (c : Chip) : ∃ m, (tick cfg c).1 = tickEnd m ∧ c.SameClock m := by
  unfold tick
  split
  · exact ⟨_, rfl, (sameClock_runSlots cfg 0 15 c).trans <| (sameClock_mixAC _).trans <|
      (sameClock_runSlots cfg 15 3 _).trans <| (sameClock_runSlots cfg 18 15 _).trans <| (sameClock_mixBD _).trans <|
      sameClock_runSlots cfg 33 3 _⟩
  · exact ⟨_, rfl, (sameClock_runSlots cfg 0 36 c).trans <| (sameClock_mixAC _).trans (sameClock_mixBD _)⟩

/-- R390 to R393: everything the end of a tick writes. -/
theorem tickEnd_eq_with (c : Chip) : tickEnd c = { c with
    timer := c.timer + 1
    tremolopos := tremoloposNext c
    tremolo := tremoloAt (tremoloposNext c) c.tremoloshift
    vibpos := if c.timer &&& 0x3FF = 0x3FF then c.vibpos + 1 else c.vibpos
    egState := !c.egState
    egAdd := if c.egState then (if 12 < lowestOne c.egTimer then 0 else lowestOne c.egTimer + 1) else c.egAdd
    egTimerLo := if c.egState then c.egTimer.setWidth 2 else c.egTimerLo
    egTimer := if c.egTimerrem || c.egState then c.egTimer + 1 else c.egTimer
    egTimerrem := if c.egTimerrem || c.egState then c.egTimer == BitVec.allOnes 36 else c.egTimerrem } := by
  obtain ⟨_, _, _, _, _, _, _, _, er, es, _⟩ := c
  cases er <;> cases es <;> rfl

/-! ### The LFOs -/

/-- A counter masked by `2 ^ k - 1` shows its low `k` bits. -/
theorem and_mask_eq_mask_iff {w : Nat} (t : BitVec w) {k : Nat} (hk : k ≤ w) :
    t &&& BitVec.ofNat w (2 ^ k - 1) = BitVec.ofNat w (2 ^ k - 1) ↔ t.toNat % 2 ^ k = 2 ^ k - 1 := by
  have hmask : (2 ^ k - 1) % 2 ^ w = 2 ^ k - 1 :=
    Nat.mod_eq_of_lt ((Nat.sub_one_lt (by positivity)).trans_le (Nat.pow_le_pow_right (by decide) hk))
  rw [← BitVec.toNat_inj, BitVec.toNat_and, BitVec.toNat_ofNat, hmask, Nat.and_two_pow_sub_one_eq_mod]

theorem tremoloposNext_eq (c : Chip) :
    tremoloposNext c = if c.timer.toNat % 64 = 63 then (c.tremolopos + 1) % 210 else c.tremolopos :=
  if_congr (and_mask_eq_mask_iff c.timer (k := 6) (by decide)) rfl rfl

theorem tremoloAt_eq (pos shift : Nat) : tremoloAt pos shift = (if pos < 105 then pos else 210 - pos) / 2 ^ shift := by
  rw [tremoloAt, Nat.shiftRight_eq_div_pow, Nat.shiftRight_eq_div_pow, ite_div]

theorem toNat_vibpos_tickEnd (c : Chip) : (tickEnd c).vibpos.toNat =
    if c.timer.toNat % 1024 = 1023 then (c.vibpos.toNat + 1) % 8 else c.vibpos.toNat := by
  rw [tickEnd_eq_with, apply_ite BitVec.toNat, BitVec.toNat_add]
  exact if_congr (and_mask_eq_mask_iff c.timer (k := 10) (by decide)) rfl rfl

/-! ### The envelope timer -/

theorem getLsbD_eq_false_of_dvd {w k j : Nat} {t : BitVec w} (hdvd : 2 ^ k ∣ t.toNat) (hj : j < k) :
    t.getLsbD j = false := by
  obtain ⟨q, hq⟩ := hdvd
  rw [← BitVec.testBit_toNat, hq, Nat.testBit_two_pow_mul, decide_eq_false (Nat.not_le.mpr hj), Bool.false_and]

theorem getLsbD_eq_true_of_dvd {w k : Nat} {t : BitVec w} (hdvd : 2 ^ k ∣ t.toNat) (hodd : ¬ 2 ^ (k + 1) ∣ t.toNat) :
    t.getLsbD k = true := by
  obtain ⟨q, hq⟩ := hdvd
  rw [hq, pow_succ, Nat.mul_dvd_mul_iff_left (by positivity)] at hodd
  have hq2 : q % 2 = 1 := by omega
  rw [← BitVec.testBit_toNat, hq, Nat.testBit_two_pow_mul]
  simp [hq2]

/-- R393: the trailing zeros of the timer are the exponent of the greatest power of two that divides it. -/
theorem lowestOne_eq {t : BitVec 36} {k : Nat} (hk : k ≤ 12) (hdvd : 2 ^ k ∣ t.toNat)
    (hodd : ¬ 2 ^ (k + 1) ∣ t.toNat) : lowestOne t = k := by
  have hfind : (List.range' 0 13).find? (fun n => t.getLsbD n) = some k := by
    refine List.find?_range'_eq_some.mpr ⟨getLsbD_eq_true_of_dvd hdvd hodd, ?_, fun j _ hj => ?_⟩
    · rw [List.mem_range'_1]; omega
    · rw [getLsbD_eq_false_of_dvd hdvd hj, Bool.not_false]
  rw [lowestOne, hfind, Option.getD_some]

theorem lowestOne_eq_thirteen {t : BitVec 36} (hdvd : 2 ^ 13 ∣ t.toNat) : lowestOne t = 13 := by
  have hfind : (List.range' 0 13).find? (fun n => t.getLsbD n) = none := by
    refine List.find?_range'_eq_none.mpr fun j _ hj => ?_
    rw [getLsbD_eq_false_of_dvd hdvd (by omega), Bool.not_false]
  rw [lowestOne, hfind, Option.getD_none]

theorem beq_allOnes_iff {w : Nat} (t : BitVec w) : (t == BitVec.allOnes w) = true ↔ t.toNat = 2 ^ w - 1 := by
  rw [beq_iff_eq, ← BitVec.toNat_inj, BitVec.toNat_allOnes]

/-! ### The resampler -/

/-- R400, R502: RENDER on an instance that was never reset is its error. -/
theorem exec_render_of_not_valid {s : State} (hv : s.chip.valid = false) :
    exec .render s = .next (s.raise .notReset) := by
  simp [exec, execRender, renderCall, hv]

/-- R400: the weights of the interpolation are the remainder and what is missing to the ratio. -/
theorem interpolate_catchUp (cfg : Config) {c : Chip} (hr : 0 < c.rateratio) (old new : S16) :
    interpolate (catchUp cfg c) old new =
      s16 (Int.tdiv (old.toInt * ((c.rateratio : Int) - (c.samplecnt % c.rateratio : Nat)) +
        new.toInt * (c.samplecnt % c.rateratio : Nat)) c.rateratio) := by
  rw [interpolate, catchUp_rateratio, catchUp_samplecnt cfg c hr, tdiv]

/-! ### The settled statements -/

/-- Settles O51: both LFOs and the counter are read off `tickEnd`. -/
theorem tickAdvancesLfosAndTimer : Obligations.TickAdvancesLfosAndTimer := by
  intro cfg c
  obtain ⟨m, htick, hm⟩ := tick_eq_tickEnd cfg c
  dsimp only
  rw [htick, ← hm.timer, ← hm.tremolopos, ← hm.tremoloshift, ← hm.vibpos]
  refine ⟨?_, ?_, ?_, toNat_vibpos_tickEnd m⟩
  · rw [tickEnd_timer, BitVec.toNat_add]; rfl
  · rw [tickEnd_eq_with, tremoloposNext_eq]
  · rw [tickEnd_eq_with, tremoloAt_eq]

/-- Settles O52: the timer is read off `tickEnd`, and its lowest set bit is the power of two that divides it. -/
theorem tickAdvancesEnvelopeTimer : Obligations.TickAdvancesEnvelopeTimer := by
  intro cfg c
  obtain ⟨m, htick, hm⟩ := tick_eq_tickEnd cfg c
  dsimp only
  rw [htick, tickEnd_eq_with, ← hm.egTimer, ← hm.egTimerrem, ← hm.egState, ← hm.egAdd, ← hm.egTimerLo]
  dsimp only
  refine ⟨rfl, fun hstate => ⟨?_, fun k hk hdvd hodd => ?_, fun hdvd => ?_⟩, fun hstate => ?_, fun hcount => ?_,
    fun hrem hstate => ?_⟩
  · rw [if_pos hstate, BitVec.toNat_setWidth]
  · rw [if_pos hstate, lowestOne_eq hk hdvd hodd, if_neg (by omega)]
  · rw [if_pos hstate, lowestOne_eq_thirteen hdvd, if_pos (by decide)]
  · simp [hstate]
  · have hcount' : (m.egTimerrem || m.egState) = true := by rwa [Bool.or_eq_true]
    rw [if_pos hcount', if_pos hcount', BitVec.toNat_add]
    exact ⟨rfl, beq_allOnes_iff m.egTimer⟩
  · simp [hrem, hstate]

/-- Settles O54: the loop is the iterated turn, and what it leaves of `samplecnt` is the remainder. -/
theorem renderRunsTicksAndInterpolates : Obligations.RenderRunsTicksAndInterpolates := by
  refine ⟨fun s hv => exec_render_of_not_valid hv, fun s hv hr => ?_⟩
  dsimp only
  rw [exec_render_of_valid hv hr, renderChip, renderFrame, interpolate_catchUp params hr, interpolate_catchUp params hr,
    catchUp_samplecnt params _ hr, catchUp_eq_iterate params _ hr]
  rfl

end Sys2Proof.Machine

/-! R500 to R502. Of the three kinds of call a register write returns no error, RESET raises its one at the rates that
are not valid, and RENDER its one before the first reset. -/

namespace Sys2Proof.Machine

/-! ### What each kind of call can answer -/

theorem instr_cases (i : Instr) : (∃ r, i = .reset r) ∨ i = .render ∨ isRegisterWrite i = true := by
  cases i with
  | reset r => exact .inl ⟨r, rfl⟩
  | render => exact .inr (.inl rfl)
  | _ => exact .inr (.inr rfl)

/-- R105, R421: every register write goes through the guard, with an effect that the state does not choose. -/
theorem exec_eq_regWrite {i : Instr} (h : isRegisterWrite i = true) :
    ∃ f : Chip → Chip, ∀ s, exec i s = .next (s.regWrite f) := by
  cases i with
  | reset | render => cases h
  | _ => exact ⟨_, fun _ => rfl⟩

theorem exec_reset_of_not_valid {r : Int} (h : ¬ validRate r) (s : State) :
    exec (.reset r) s = .next (s.raise .invalidRate) := by
  have hrange : ¬ (srMin ≤ r ∧ r ≤ srMax) := h
  show Host.Outcome.next (resetCall r s) = _
  rw [resetCall, if_neg hrange]

theorem exec_render_of_rateratio_eq_zero {s : State} (hv : s.chip.valid = true) (hr : s.chip.rateratio = 0) :
    exec .render s = .fault .renderNeverEnds := by
  simp [exec, execRender, renderCall, hv, hr]

/-! ### When a call returns an error -/

section

variable {s t : State} {e : ErrorCode}

theorem result_ne_error_of_isRegisterWrite {i : Instr} (h : isRegisterWrite i = true) (hexec : exec i s = .next t) :
    t.result ≠ .error e := by
  obtain ⟨f, hf⟩ := exec_eq_regWrite h
  obtain rfl : s.regWrite f = t := by simpa [hf] using hexec
  simp

theorem error_of_reset {r : Int} (hexec : exec (.reset r) s = .next t) (herr : t.result = .error e) :
    ¬ validRate r ∧ e = .invalidRate ∧ t = s.raise e := by
  by_cases hr : validRate r
  · rw [exec_reset_of_valid hr] at hexec
    cases hexec
    cases herr
  · rw [exec_reset_of_not_valid hr] at hexec
    cases hexec
    cases herr
    exact ⟨hr, rfl, rfl⟩

theorem error_of_render (hexec : exec .render s = .next t) (herr : t.result = .error e) :
    s.chip.valid = false ∧ e = .notReset ∧ t = s.raise e := by
  cases hv : s.chip.valid with
  | true =>
    obtain hr | hr := Nat.eq_zero_or_pos s.chip.rateratio
    · rw [exec_render_of_rateratio_eq_zero hv hr] at hexec
      cases hexec
    · rw [exec_render_of_valid hv hr] at hexec
      cases hexec
      cases herr
  | false =>
    rw [exec_render_of_not_valid hv] at hexec
    cases hexec
    cases herr
    exact ⟨rfl, rfl, rfl⟩

end

/-! ### The settled statement -/

/-- Settles O7: each kind of call on its own, and `raise` is the state with the result replaced. -/
theorem errorsAreExactlyTwoAndPrecise : Obligations.ErrorsAreExactlyTwoAndPrecise := by
  refine ⟨fun i s t e hexec herr => ?_, fun s r hr => ?_, fun s hv => exec_render_of_not_valid hv, rfl, rfl⟩
  · obtain ⟨r, rfl⟩ | rfl | hi := instr_cases i
    · obtain ⟨hr, he, ht⟩ := error_of_reset hexec herr
      exact ⟨ht, .inr ⟨he, r, rfl, hr⟩⟩
    · obtain ⟨hv, he, ht⟩ := error_of_render hexec herr
      exact ⟨ht, .inl ⟨he, rfl, hv⟩⟩
    · exact absurd herr (result_ne_error_of_isRegisterWrite hi hexec)
  · exact exec_reset_of_not_valid (by omega) s

end Sys2Proof.Machine

/-! R531. Before the router runs every channel is a two-operator channel with algorithm 0, so step 3 routes each in
series; nothing else changes. -/

namespace Sys2Proof.Machine

open Spec

/-! ### Routing in series -/

/-- Channel `n` is routed alone, with the first operator modulating the second (R345 with `alg & 1 = 0`). -/
structure InSeries (c : Chip) (n : ChanIdx) : Prop where
  chtype : (c.chan n).chtype = .twoOp
  alg : (c.chan n).alg = 0

/-- The source of slot `i` in a channel routed in series. -/
def seriesMod (i : SlotIdx) : ModSrc := if i = op1 (channelOf i) then .fb else .out (op1 (channelOf i))

/-- From `a` to `b`, the channels of `l` were routed in series, and everything else stayed. -/
structure RoutedInSeries (l : List ChanIdx) (a b : Chip) : Prop where
  globals : a.SameGlobals b
  chan : ∀ n, b.chan n = if n ∈ l then { a.chan n with out := outs [op2 n] } else a.chan n
  slot : ∀ i, b.slot i = if channelOf i ∈ l then { a.slot i with mod := seriesMod i } else a.slot i

theorem setupAlg_of_inSeries {n : ChanIdx} {c : Chip} (h : InSeries c n) : setupAlg n c =
    (c |> setMod (op1 n) .fb |> setMod (op2 n) (.out (op1 n)) |> setOut n (outs [op2 n])) := by
  have hsolo : setupAlg n c = setupTwoOp n c := by simp [setupAlg, h.chtype, h.alg]
  rw [hsolo, setupTwoOp_eq, h.alg]
  rfl

theorem slot_setMods_series (n : ChanIdx) (c : Chip) (i : SlotIdx) :
    (c |> setMod (op1 n) .fb |> setMod (op2 n) (.out (op1 n))).slot i =
      if channelOf i = n then { c.slot i with mod := seriesMod i } else c.slot i := by
  by_cases hi : channelOf i = n
  · obtain rfl | rfl := (channelOf_eq_iff i n).mp hi
    · simp [slot_setMod, seriesMod]
    · simp [slot_setMod, seriesMod]
  · rw [if_neg hi, (sameChannel_setMods (n := channelOf i) hi _ _ c).slot i rfl]

theorem routedInSeries_setupAlg {n : ChanIdx} {c : Chip} (h : InSeries c n) : RoutedInSeries [n] c (setupAlg n c) where
  globals := (routingOnly_setupAlg n c).globals
  chan m := by
    rw [setupAlg_of_inSeries h, chan_setOut]
    by_cases hm : m = n <;> simp [hm]
  slot i := by
    rw [setupAlg_of_inSeries h, slot_setOut, slot_setMods_series]
    simp

theorem RoutedInSeries.inSeries {l : List ChanIdx} {a b : Chip} (h : RoutedInSeries l a b) {n : ChanIdx}
    (hn : InSeries a n) : InSeries b n := by
  constructor
  · rw [h.chan]; split <;> exact hn.chtype
  · rw [h.chan]; split <;> exact hn.alg

theorem RoutedInSeries.trans {l l' : List ChanIdx} {a b c : Chip} (h1 : RoutedInSeries l a b)
    (h2 : RoutedInSeries l' b c) : RoutedInSeries (l ++ l') a c where
  globals := h1.globals.trans h2.globals
  chan n := by
    rw [h2.chan, h1.chan]
    by_cases hl : n ∈ l <;> by_cases hl' : n ∈ l' <;> simp [hl, hl']
  slot i := by
    rw [h2.slot, h1.slot]
    by_cases hl : channelOf i ∈ l <;> by_cases hl' : channelOf i ∈ l' <;> simp [hl, hl']

theorem routedInSeries_foldl (l : List ChanIdx) {c : Chip} (h : ∀ n, InSeries c n) :
    RoutedInSeries l c (l.foldl (fun c n => setupAlg n c) c) := by
  induction l generalizing c with
  | nil => exact ⟨rfl, fun _ => rfl, fun _ => rfl⟩
  | cons n l ih =>
    have hfirst := routedInSeries_setupAlg (h n)
    exact hfirst.trans (ih fun m => hfirst.inSeries (h m))

/-! ### The reset block -/

@[simp] theorem chan_chipUnrouted (sampleRate : Nat) (n : ChanIdx) : (chipUnrouted sampleRate).chan n = chanReset := by
  simp [Chip.chan, chipUnrouted, Vector.get_eq_getElem]

@[simp] theorem slot_chipUnrouted (sampleRate : Nat) (i : SlotIdx) : (chipUnrouted sampleRate).slot i = slotReset := by
  simp [Chip.slot, chipUnrouted, Vector.get_eq_getElem]

/-- R531 step 3 runs over all the channels. -/
theorem routedInSeries_routeAll {c : Chip} (h : ∀ n, InSeries c n) :
    RoutedInSeries (List.finRange 18) c (routeAll c) := by
  have hfold : routeAll c = (List.finRange 18).foldl (fun c n => setupAlg n c) c := rfl
  rw [hfold]
  exact routedInSeries_foldl _ h

theorem routedInSeries_chipUnrouted (sampleRate : Nat) :
    RoutedInSeries (List.finRange 18) (chipUnrouted sampleRate) (routeAll (chipUnrouted sampleRate)) :=
  routedInSeries_routeAll fun n => ⟨by rw [chan_chipUnrouted]; rfl, by rw [chan_chipUnrouted]; rfl⟩

/-- R531 step 5 and the router leave the global fields but `valid` as step 1 sets them. -/
theorem chipReset_eq_with (sampleRate : Nat) : chipReset sampleRate = { chipUnrouted sampleRate with
    chans := (chipReset sampleRate).chans, slots := (chipReset sampleRate).slots, valid := true } :=
  congrArg (fun c : Chip => { c with valid := true }) (routedInSeries_chipUnrouted sampleRate).globals.symm

@[simp] theorem Chip.chan_setValid (c : Chip) (v : Bool) (n : ChanIdx) : { c with valid := v }.chan n = c.chan n := rfl

@[simp] theorem Chip.slot_setValid (c : Chip) (v : Bool) (i : SlotIdx) : { c with valid := v }.slot i = c.slot i := rfl

theorem chan_chipReset (sampleRate : Nat) (n : ChanIdx) :
    (chipReset sampleRate).chan n = { chanReset with out := outs [op2 n] } := by
  rw [chipReset, Chip.chan_setValid, (routedInSeries_chipUnrouted sampleRate).chan, if_pos (List.mem_finRange n),
    chan_chipUnrouted]

theorem slot_chipReset (sampleRate : Nat) (i : SlotIdx) :
    (chipReset sampleRate).slot i = { slotReset with mod := seriesMod i } := by
  rw [chipReset, Chip.slot_setValid, (routedInSeries_chipUnrouted sampleRate).slot, if_pos (List.mem_finRange _),
    slot_chipUnrouted]

/-! ### The reset values written out -/

/-- CH_SLOT of R446 as a formula. -/
theorem op2_eq (n : ChanIdx) : op2 n = Fin.ofNat 36 (6 * (n.val / 3) + n.val % 3 + 3) := by
  revert n; decide

/-- A channel's first operator is three slots before its second (R33). -/
theorem seriesMod_eq (i : SlotIdx) : seriesMod i = if i.val % 6 < 3 then .fb else .out (i - 3) := by
  revert i; decide

/-- R420 in integers. -/
theorem rateRatio_toNat {r : Int} (h : 0 ≤ r) : (rateRatio r.toNat : Int) = r * 1024 / 49716 := by
  rw [rateRatio, rsmOne, tickRate]
  omega

/-! ### The settled statement -/

/-- Settles O11: the global fields are those before the router, and every channel is routed in series. -/
theorem resetGivesEveryFieldItsResetValue : Obligations.ResetGivesEveryFieldItsResetValue := by
  intro s r hr
  refine ⟨_, exec_reset_of_valid hr s, rfl, rfl, ?_⟩
  dsimp only
  simp only [chan_chipReset, slot_chipReset, op2_eq, seriesMod_eq]
  rw [chipReset_eq_with]
  have hratio := rateRatio_toNat (r := r) (by omega)
  simp [chipUnrouted, Quad.all, hratio, chanReset, slotReset, outs]

end Sys2Proof.Machine

/-! R120 to R129. A word is its address and its data byte apart (`decodeWord_cmdWord`), so both directions of the round
trip are facts about the 9-bit address, shown once for each part of R124 and each row of R122. -/

namespace Sys2Proof

/-! ### Decoding an encoded command -/

theorem decode_wordCall (w : CmdWord) : decode (wordCall w) = .ok (decodeWord w) := by
  have hlt : (wordAddr w).toNat < 512 := (wordAddr w).isLt
  rw [wordCall, decode, if_pos (by omega), writeWord_toNat]

/-- A command encoded as an address and a byte comes back when its address names it. -/
theorem decode_encode_of_addr {i : Instr} {a : RegAddr} {d : Byte} (he : encode i = wordCall (cmdWord a d))
    (hd : withData d (decodeWord (cmdWord a 0)) = i) : decode (encode i) = .ok i := by
  rw [he, decode_wordCall, decodeWord_cmdWord, hd]

/-- A command whose data byte is put in by `c`, at an address that decodes to it. -/
theorem decode_encode_of_decodeWord {c : Byte → Instr} {a : RegAddr} (h : decodeWord (cmdWord a 0) = c 0)
    (d : Byte) (hdata : withData d (c 0) = c d := by rfl) (henc : encode (c d) = wordCall (cmdWord a d) := by rfl) :
    decode (encode (c d)) = .ok (c d) :=
  decode_encode_of_addr henc (by rw [h, hdata])

/-- The addresses of slot `k` in the five operator families decode to the commands of one part of R124. -/
structure DecodesOperator (k : SlotIdx) (c20 c40 c60 c80 cE0 : SlotIdx → Byte → Instr) : Prop where
  op20 : decodeWord (cmdWord (operatorAddr 0x020 k) 0) = c20 k 0
  op40 : decodeWord (cmdWord (operatorAddr 0x040 k) 0) = c40 k 0
  op60 : decodeWord (cmdWord (operatorAddr 0x060 k) 0) = c60 k 0
  op80 : decodeWord (cmdWord (operatorAddr 0x080 k) 0) = c80 k 0
  opE0 : decodeWord (cmdWord (operatorAddr 0x0E0 k) 0) = cE0 k 0

theorem decodesOperator_iff (k : SlotIdx) (c20 c40 c60 c80 cE0 : SlotIdx → Byte → Instr) :
    DecodesOperator k c20 c40 c60 c80 cE0 ↔
      decodeWord (cmdWord (operatorAddr 0x020 k) 0) = c20 k 0 ∧
      decodeWord (cmdWord (operatorAddr 0x040 k) 0) = c40 k 0 ∧
      decodeWord (cmdWord (operatorAddr 0x060 k) 0) = c60 k 0 ∧
      decodeWord (cmdWord (operatorAddr 0x080 k) 0) = c80 k 0 ∧
      decodeWord (cmdWord (operatorAddr 0x0E0 k) 0) = cE0 k 0 :=
  ⟨fun ⟨h20, h40, h60, h80, hE0⟩ => ⟨h20, h40, h60, h80, hE0⟩,
    fun ⟨h20, h40, h60, h80, hE0⟩ => ⟨h20, h40, h60, h80, hE0⟩⟩

theorem decodesOperator_partA {k : SlotIdx} (h : slotInPartA k = true) :
    DecodesOperator k .wrOp20a .wrOp40a .wrOp60a .wrOp80a .wrOpE0a := by
  rw [decodesOperator_iff]
  revert k
  decide +kernel

theorem decodesOperator_partB {k : SlotIdx} (h : slotInPartB k = true) :
    DecodesOperator k .wrOp20b .wrOp40b .wrOp60b .wrOp80b .wrOpE0b := by
  rw [decodesOperator_iff]
  revert k
  decide +kernel

theorem decodesOperator_partC {k : SlotIdx} (h : slotInPartC k = true) :
    DecodesOperator k .wrOp20c .wrOp40c .wrOp60c .wrOp80c .wrOpE0c := by
  rw [decodesOperator_iff]
  revert k
  decide +kernel

theorem decodesOperator_partD {k : SlotIdx} (h : slotInPartD k = true) :
    DecodesOperator k .wrOp20d .wrOp40d .wrOp60d .wrOp80d .wrOpE0d := by
  rw [decodesOperator_iff]
  revert k
  decide +kernel

/-- The addresses of channel `n` in the three channel families decode to the commands of one row of R122. -/
structure DecodesChannel (n : ChanIdx) (cA0 cB0 cC0 : ChanIdx → Byte → Instr) : Prop where
  chA0 : decodeWord (cmdWord (channelAddr 0x0A0 n) 0) = cA0 n 0
  chB0 : decodeWord (cmdWord (channelAddr 0x0B0 n) 0) = cB0 n 0
  chC0 : decodeWord (cmdWord (channelAddr 0x0C0 n) 0) = cC0 n 0

theorem decodesChannel_iff (n : ChanIdx) (cA0 cB0 cC0 : ChanIdx → Byte → Instr) :
    DecodesChannel n cA0 cB0 cC0 ↔ decodeWord (cmdWord (channelAddr 0x0A0 n) 0) = cA0 n 0 ∧
      decodeWord (cmdWord (channelAddr 0x0B0 n) 0) = cB0 n 0 ∧
      decodeWord (cmdWord (channelAddr 0x0C0 n) 0) = cC0 n 0 :=
  ⟨fun ⟨hA0, hB0, hC0⟩ => ⟨hA0, hB0, hC0⟩, fun ⟨hA0, hB0, hC0⟩ => ⟨hA0, hB0, hC0⟩⟩

theorem decodesChannel_partA {n : ChanIdx} (h : chanInPartA n = true) :
    DecodesChannel n .wrChA0a .wrChB0a .wrChC0a := by
  rw [decodesChannel_iff]
  revert n
  decide +kernel

theorem decodesChannel_partB {n : ChanIdx} (h : chanInPartB n = true) :
    DecodesChannel n .wrChA0b .wrChB0b .wrChC0b := by
  rw [decodesChannel_iff]
  revert n
  decide +kernel

theorem decodeWord_globalAddr : decodeWord (cmdWord 0x008 0) = .wrNts 0 ∧ decodeWord (cmdWord 0x104 0) = .wr4op 0 ∧
    decodeWord (cmdWord 0x105 0) = .wrNew 0 ∧ decodeWord (cmdWord 0x0BD 0) = .wrRhy 0 := by
  decide +kernel

theorem isOperatorReg_iff (a : RegAddr) : isOperatorReg (a.extractLsb' 0 8) = true ↔
    (a.extractLsb' 5 3 = 1 ∨ a.extractLsb' 5 3 = 2 ∨ a.extractLsb' 5 3 = 3 ∨ a.extractLsb' 5 3 = 4 ∨
      a.extractLsb' 5 3 = 7) ∧ offsetValid (a.extractLsb' 0 5) = true := by
  revert a; decide +kernel

theorem isChannelReg_iff (a : RegAddr) : isChannelReg (a.extractLsb' 0 8) = true ↔
    (a.extractLsb' 4 4 = 0xA ∨ a.extractLsb' 4 4 = 0xB ∨ a.extractLsb' 4 4 = 0xC) ∧ (a.extractLsb' 0 4).toNat ≤ 8 := by
  revert a; decide +kernel

/-- R125: the addresses of the catch-all are those that no family's condition holds of. -/
theorem decodeWord_eq_wrIgnored_iff_addrIgnored (a : RegAddr) (d : Byte) :
    decodeWord (cmdWord a d) = .wrIgnored a d ↔ addrIgnored a = true := by
  have families := decodeWord_eq_wrIgnored_iff (cmdWord a d)
  simp only [wordAddr_cmdWord, wordData_cmdWord, wordMatches_address, matchesOperator_cmdWord,
    matchesChannel_cmdWord] at families
  rw [families]
  simp only [addrIgnored, Bool.not_eq_true', Bool.or_eq_false_iff, beq_eq_false_iff_ne, ne_eq,
    ← Bool.not_eq_true (isOperatorReg _), ← Bool.not_eq_true (isChannelReg _), isOperatorReg_iff, isChannelReg_iff,
    or_and_right, not_or]
  constructor
  · rintro ⟨h8, h104, h105, o1, o2, o3, o4, o7, cA, hBD, cB, cC⟩
    exact ⟨⟨⟨⟨⟨h8, h104⟩, h105⟩, hBD⟩, o1, o2, o3, o4, o7⟩, cA, cB, cC⟩
  · rintro ⟨⟨⟨⟨⟨h8, h104⟩, h105⟩, hBD⟩, o1, o2, o3, o4, o7⟩, cA, cB, cC⟩
    exact ⟨h8, h104, h105, o1, o2, o3, o4, o7, cA, hBD, cB, cC⟩

/-- Settles O1: the command of an address is the row's own, by the parts of R124 and the rows of R122, and the data byte
is put in unchanged. -/
theorem decodeOfEncodeIsTheCommand : Obligations.DecodeOfEncodeIsTheCommand := by
  intro i hwf
  obtain ⟨hnts, hfourOp, hnew, hrhy⟩ := decodeWord_globalAddr
  cases i with
  | reset r => rfl
  | render => rfl
  | wrNts d => exact decode_encode_of_decodeWord hnts d
  | wr4op d => exact decode_encode_of_decodeWord hfourOp d
  | wrNew d => exact decode_encode_of_decodeWord hnew d
  | wrRhy d => exact decode_encode_of_decodeWord hrhy d
  | wrOp20a k d => exact decode_encode_of_decodeWord (decodesOperator_partA hwf).op20 d
  | wrOp20b k d => exact decode_encode_of_decodeWord (decodesOperator_partB hwf).op20 d
  | wrOp20c k d => exact decode_encode_of_decodeWord (decodesOperator_partC hwf).op20 d
  | wrOp20d k d => exact decode_encode_of_decodeWord (decodesOperator_partD hwf).op20 d
  | wrOp40a k d => exact decode_encode_of_decodeWord (decodesOperator_partA hwf).op40 d
  | wrOp40b k d => exact decode_encode_of_decodeWord (decodesOperator_partB hwf).op40 d
  | wrOp40c k d => exact decode_encode_of_decodeWord (decodesOperator_partC hwf).op40 d
  | wrOp40d k d => exact decode_encode_of_decodeWord (decodesOperator_partD hwf).op40 d
  | wrOp60a k d => exact decode_encode_of_decodeWord (decodesOperator_partA hwf).op60 d
  | wrOp60b k d => exact decode_encode_of_decodeWord (decodesOperator_partB hwf).op60 d
  | wrOp60c k d => exact decode_encode_of_decodeWord (decodesOperator_partC hwf).op60 d
  | wrOp60d k d => exact decode_encode_of_decodeWord (decodesOperator_partD hwf).op60 d
  | wrOp80a k d => exact decode_encode_of_decodeWord (decodesOperator_partA hwf).op80 d
  | wrOp80b k d => exact decode_encode_of_decodeWord (decodesOperator_partB hwf).op80 d
  | wrOp80c k d => exact decode_encode_of_decodeWord (decodesOperator_partC hwf).op80 d
  | wrOp80d k d => exact decode_encode_of_decodeWord (decodesOperator_partD hwf).op80 d
  | wrOpE0a k d => exact decode_encode_of_decodeWord (decodesOperator_partA hwf).opE0 d
  | wrOpE0b k d => exact decode_encode_of_decodeWord (decodesOperator_partB hwf).opE0 d
  | wrOpE0c k d => exact decode_encode_of_decodeWord (decodesOperator_partC hwf).opE0 d
  | wrOpE0d k d => exact decode_encode_of_decodeWord (decodesOperator_partD hwf).opE0 d
  | wrChA0a n d => exact decode_encode_of_decodeWord (decodesChannel_partA hwf).chA0 d
  | wrChA0b n d => exact decode_encode_of_decodeWord (decodesChannel_partB hwf).chA0 d
  | wrChB0a n d => exact decode_encode_of_decodeWord (decodesChannel_partA hwf).chB0 d
  | wrChB0b n d => exact decode_encode_of_decodeWord (decodesChannel_partB hwf).chB0 d
  | wrChC0a n d => exact decode_encode_of_decodeWord (decodesChannel_partA hwf).chC0 d
  | wrChC0b n d => exact decode_encode_of_decodeWord (decodesChannel_partB hwf).chC0 d
  | wrIgnored a d => exact decode_encode_of_decodeWord ((decodeWord_eq_wrIgnored_iff_addrIgnored a 0).mpr hwf) d


/-! ### Encoding a decoded word -/

/-- `i` is a well-formed command and `w` its word. -/
structure IsCommandOf (w : CmdWord) (i : Instr) : Prop where
  wf : i.wf = true
  word : encodeWord i = some w

theorem encodeWord_of_encode {i : Instr} {w : CmdWord} (h : encode i = wordCall w) : encodeWord i = some w := by
  rw [encodeWord, h]
  exact congrArg some (writeWord_toNat w)

/-! The slot in a word's address is in the part of R124 that the offset's bits name. -/

theorem slotInPartA_wordSlot (a : RegAddr) (h : a.extractLsb' 0 5 &&& 0x14 = 0x00#5) :
    slotInPartA (wordSlot (cmdWord a 0)) = true := by
  revert a
  decide +kernel

theorem slotInPartB_wordSlot (a : RegAddr) (h : a.extractLsb' 0 5 &&& 0x16 = 0x04#5) :
    slotInPartB (wordSlot (cmdWord a 0)) = true := by
  revert a
  decide +kernel

theorem slotInPartC_wordSlot (a : RegAddr) (h : a.extractLsb' 0 5 &&& 0x1C = 0x10#5) :
    slotInPartC (wordSlot (cmdWord a 0)) = true := by
  revert a
  decide +kernel

theorem slotInPartD_wordSlot (a : RegAddr) (h : a.extractLsb' 0 5 &&& 0x1E = 0x14#5) :
    slotInPartD (wordSlot (cmdWord a 0)) = true := by
  revert a
  decide +kernel

theorem operatorAddr_wordSlot {a : RegAddr} (h : offsetValid (a.extractLsb' 0 5) = true) :
    operatorAddr (32 * (a.extractLsb' 5 3).toNat) (wordSlot (cmdWord a 0)) = a := by
  revert a; decide +kernel

theorem chanInPartA_wordChan (a : RegAddr) (h : a.extractLsb' 0 4 &&& 0x8 = 0x0#4) :
    chanInPartA (wordChan (cmdWord a 0)) = true := by
  revert a
  decide +kernel

theorem chanInPartB_wordChan (a : RegAddr) (h : a.extractLsb' 0 4 &&& 0xF = 0x8#4) :
    chanInPartB (wordChan (cmdWord a 0)) = true := by
  revert a
  decide +kernel

theorem channelAddr_wordChan {a : RegAddr} (h : (a.extractLsb' 0 4).toNat ≤ 8) :
    channelAddr (16 * (a.extractLsb' 4 4).toNat) (wordChan (cmdWord a 0)) = a := by
  revert a; decide +kernel

/-- A row of an operator family: the bits of R[7:5], and the offset bits that the row fixes. -/
theorem wordMatches_operatorRow_iff (f : BitVec 3) (m p : BitVec 5) (a : RegAddr) (d : Byte) :
    wordMatches (cmdWord a d) (cmdWord (0#1 ++ BitVec.allOnes 3 ++ m) 0) (cmdWord (0#1 ++ f ++ p) 0) = true ↔
      a.extractLsb' 5 3 = f ∧ a.extractLsb' 0 5 &&& m = p :=
  wordMatches_cmdWord_iff.trans (and_append_eq_append_iff a f m p)

/-- A row of a channel family: the bits of G, and the bits of N that the row fixes. -/
theorem wordMatches_channelRow_iff (g m p : BitVec 4) (a : RegAddr) (d : Byte) :
    wordMatches (cmdWord a d) (cmdWord (0#1 ++ BitVec.allOnes 4 ++ m) 0) (cmdWord (0#1 ++ g ++ p) 0) = true ↔
      a.extractLsb' 4 4 = g ∧ a.extractLsb' 0 4 &&& m = p :=
  wordMatches_cmdWord_iff.trans (and_append_eq_append_iff a g m p)

section Rows

variable {a : RegAddr} {d : Byte}

/-- The row of an operator family: its slots are `part`, and its words have the offset bits `p` under `m`. -/
theorem isCommandOf_operatorRow {f : BitVec 3} {m p : BitVec 5} {part : SlotIdx → Bool} {c : SlotIdx → Byte → Instr}
    (hpart : a.extractLsb' 0 5 &&& m = p → part (wordSlot (cmdWord a 0)) = true)
    (hrow : wordMatches (cmdWord a d) (cmdWord (0#1 ++ BitVec.allOnes 3 ++ m) 0) (cmdWord (0#1 ++ f ++ p) 0) = true)
    (hfamily : matchesOperator f (cmdWord a d)) (hwf : ∀ k, (c k d).wf = part k)
    (henc : ∀ k, encode (c k d) = wordCall (cmdWord (operatorAddr (32 * f.toNat) k) d)) :
    IsCommandOf (cmdWord a d) (c (wordSlot (cmdWord a d)) d) := by
  obtain ⟨haddr, hoff⟩ := (matchesOperator_cmdWord f a d).mp hfamily
  obtain ⟨-, hbits⟩ := (wordMatches_operatorRow_iff f m p a d).mp hrow
  rw [wordSlot_cmdWord]
  refine ⟨(hwf _).trans (hpart hbits), encodeWord_of_encode ?_⟩
  rw [henc, ← haddr, operatorAddr_wordSlot hoff]

/-- The row of a channel family: its channels are `part`, and its words have the bits `p` of N under `m`. -/
theorem isCommandOf_channelRow {g m p : BitVec 4} {part : ChanIdx → Bool} {c : ChanIdx → Byte → Instr}
    (hpart : a.extractLsb' 0 4 &&& m = p → part (wordChan (cmdWord a 0)) = true)
    (hrow : wordMatches (cmdWord a d) (cmdWord (0#1 ++ BitVec.allOnes 4 ++ m) 0) (cmdWord (0#1 ++ g ++ p) 0) = true)
    (hfamily : matchesChannel g (cmdWord a d)) (hwf : ∀ n, (c n d).wf = part n)
    (henc : ∀ n, encode (c n d) = wordCall (cmdWord (channelAddr (16 * g.toNat) n) d)) :
    IsCommandOf (cmdWord a d) (c (wordChan (cmdWord a d)) d) := by
  obtain ⟨haddr, hn⟩ := (matchesChannel_cmdWord g a d).mp hfamily
  obtain ⟨-, hbits⟩ := (wordMatches_channelRow_iff g m p a d).mp hrow
  rw [wordChan_cmdWord]
  refine ⟨(hwf _).trans (hpart hbits), encodeWord_of_encode ?_⟩
  rw [henc, ← haddr, channelAddr_wordChan hn]

theorem isCommandOf_partA {c : SlotIdx → Byte → Instr} (f : BitVec 3)
    (h : wordMatches (cmdWord a d) 0x0F400 (cmdWord (0#1 ++ f ++ 0x00#5) 0) = true)
    (hwf : ∀ k, (c k d).wf = slotInPartA k := by intro; rfl)
    (henc : ∀ k, encode (c k d) = wordCall (cmdWord (operatorAddr (32 * f.toNat) k) d) := by intro; rfl) :
    IsCommandOf (cmdWord a d) (c (wordSlot (cmdWord a d)) d) :=
  isCommandOf_operatorRow (slotInPartA_wordSlot a) h (.inl h) hwf henc

theorem isCommandOf_partB {c : SlotIdx → Byte → Instr} (f : BitVec 3)
    (h : wordMatches (cmdWord a d) 0x0F600 (cmdWord (0#1 ++ f ++ 0x04#5) 0) = true)
    (hwf : ∀ k, (c k d).wf = slotInPartB k := by intro; rfl)
    (henc : ∀ k, encode (c k d) = wordCall (cmdWord (operatorAddr (32 * f.toNat) k) d) := by intro; rfl) :
    IsCommandOf (cmdWord a d) (c (wordSlot (cmdWord a d)) d) :=
  isCommandOf_operatorRow (slotInPartB_wordSlot a) h (.inr (.inl h)) hwf henc

theorem isCommandOf_partC {c : SlotIdx → Byte → Instr} (f : BitVec 3)
    (h : wordMatches (cmdWord a d) 0x0FC00 (cmdWord (0#1 ++ f ++ 0x10#5) 0) = true)
    (hwf : ∀ k, (c k d).wf = slotInPartC k := by intro; rfl)
    (henc : ∀ k, encode (c k d) = wordCall (cmdWord (operatorAddr (32 * f.toNat) k) d) := by intro; rfl) :
    IsCommandOf (cmdWord a d) (c (wordSlot (cmdWord a d)) d) :=
  isCommandOf_operatorRow (slotInPartC_wordSlot a) h (.inr (.inr (.inl h))) hwf henc

theorem isCommandOf_partD {c : SlotIdx → Byte → Instr} (f : BitVec 3)
    (h : wordMatches (cmdWord a d) 0x0FE00 (cmdWord (0#1 ++ f ++ 0x14#5) 0) = true)
    (hwf : ∀ k, (c k d).wf = slotInPartD k := by intro; rfl)
    (henc : ∀ k, encode (c k d) = wordCall (cmdWord (operatorAddr (32 * f.toNat) k) d) := by intro; rfl) :
    IsCommandOf (cmdWord a d) (c (wordSlot (cmdWord a d)) d) :=
  isCommandOf_operatorRow (slotInPartD_wordSlot a) h (.inr (.inr (.inr h))) hwf henc

theorem isCommandOf_chanPartA {c : ChanIdx → Byte → Instr} (g : BitVec 4)
    (h : wordMatches (cmdWord a d) 0x0F800 (cmdWord (0#1 ++ g ++ 0x0#4) 0) = true)
    (hwf : ∀ n, (c n d).wf = chanInPartA n := by intro; rfl)
    (henc : ∀ n, encode (c n d) = wordCall (cmdWord (channelAddr (16 * g.toNat) n) d) := by intro; rfl) :
    IsCommandOf (cmdWord a d) (c (wordChan (cmdWord a d)) d) :=
  isCommandOf_channelRow (chanInPartA_wordChan a) h (.inl h) hwf henc

theorem isCommandOf_chanPartB {c : ChanIdx → Byte → Instr} (g : BitVec 4)
    (h : wordMatches (cmdWord a d) 0x0FF00 (cmdWord (0#1 ++ g ++ 0x8#4) 0) = true)
    (hwf : ∀ n, (c n d).wf = chanInPartB n := by intro; rfl)
    (henc : ∀ n, encode (c n d) = wordCall (cmdWord (channelAddr (16 * g.toNat) n) d) := by intro; rfl) :
    IsCommandOf (cmdWord a d) (c (wordChan (cmdWord a d)) d) :=
  isCommandOf_channelRow (chanInPartB_wordChan a) h (.inr h) hwf henc

/-- A row with the full mask names its one address. -/
theorem isCommandOf_address {i : Instr} (b : RegAddr)
    (h : wordMatches (cmdWord a d) 0x1FF00 (cmdWord b 0) = true) (hwf : i.wf = true := by rfl)
    (henc : encode i = wordCall (cmdWord b d) := by rfl) : IsCommandOf (cmdWord a d) i := by
  obtain rfl := (wordMatches_address a b d).mp h
  exact ⟨hwf, encodeWord_of_encode henc⟩

theorem isCommandOf_wrIgnored (h : decodeWord (cmdWord a d) = .wrIgnored a d) :
    IsCommandOf (cmdWord a d) (.wrIgnored a d) :=
  ⟨(decodeWord_eq_wrIgnored_iff_addrIgnored a d).mp h, encodeWord_of_encode rfl⟩

end Rows

/-- A command that is chosen by whether a row matches. -/
theorem isCommandOf_of_ite {w : CmdWord} {b : Bool} {x y i : Instr} (hx : b = true → IsCommandOf w x)
    (hy : y = i → IsCommandOf w i) : (if b then x else y) = i → IsCommandOf w i := by
  cases b
  · exact hy
  · rintro rfl
    exact hx rfl

/-- R121: whichever row a word matches first, the row's command is the word's. -/
theorem isCommandOf_decodeWord (a : RegAddr) (d : Byte) : IsCommandOf (cmdWord a d) (decodeWord (cmdWord a d)) := by
  generalize hi : decodeWord (cmdWord a d) = i
  have hrows := hi
  rw [decodeWord, wordData_cmdWord, wordAddr_cmdWord] at hrows
  revert hrows
  refine isCommandOf_of_ite (isCommandOf_address 0x008) ?_
  refine isCommandOf_of_ite (isCommandOf_address 0x104) ?_
  refine isCommandOf_of_ite (isCommandOf_address 0x105) ?_
  refine isCommandOf_of_ite (isCommandOf_partA 1) ?_
  refine isCommandOf_of_ite (isCommandOf_partB 1) ?_
  refine isCommandOf_of_ite (isCommandOf_partC 1) ?_
  refine isCommandOf_of_ite (isCommandOf_partD 1) ?_
  refine isCommandOf_of_ite (isCommandOf_partA 2) ?_
  refine isCommandOf_of_ite (isCommandOf_partB 2) ?_
  refine isCommandOf_of_ite (isCommandOf_partC 2) ?_
  refine isCommandOf_of_ite (isCommandOf_partD 2) ?_
  refine isCommandOf_of_ite (isCommandOf_partA 3) ?_
  refine isCommandOf_of_ite (isCommandOf_partB 3) ?_
  refine isCommandOf_of_ite (isCommandOf_partC 3) ?_
  refine isCommandOf_of_ite (isCommandOf_partD 3) ?_
  refine isCommandOf_of_ite (isCommandOf_partA 4) ?_
  refine isCommandOf_of_ite (isCommandOf_partB 4) ?_
  refine isCommandOf_of_ite (isCommandOf_partC 4) ?_
  refine isCommandOf_of_ite (isCommandOf_partD 4) ?_
  refine isCommandOf_of_ite (isCommandOf_partA 7) ?_
  refine isCommandOf_of_ite (isCommandOf_partB 7) ?_
  refine isCommandOf_of_ite (isCommandOf_partC 7) ?_
  refine isCommandOf_of_ite (isCommandOf_partD 7) ?_
  refine isCommandOf_of_ite (isCommandOf_chanPartA 0xA) ?_
  refine isCommandOf_of_ite (isCommandOf_chanPartB 0xA) ?_
  refine isCommandOf_of_ite (isCommandOf_address 0x0BD) ?_
  refine isCommandOf_of_ite (isCommandOf_chanPartA 0xB) ?_
  refine isCommandOf_of_ite (isCommandOf_chanPartB 0xB) ?_
  refine isCommandOf_of_ite (isCommandOf_chanPartA 0xC) ?_
  refine isCommandOf_of_ite (isCommandOf_chanPartB 0xC) ?_
  rintro rfl
  exact isCommandOf_wrIgnored hi

/-- Settles O2: every word is an address and a byte. -/
theorem everyWordDecodesAndEncodesBack : Obligations.EveryWordDecodesAndEncodesBack := by
  intro w
  obtain ⟨hwf, hword⟩ := isCommandOf_decodeWord (wordAddr w) (wordData w)
  rw [cmdWord_addr_data] at hwf hword
  exact ⟨hwf, hword⟩

/-- Settles O3. -/
theorem specWordsDecodeAsListed : Obligations.SpecWordsDecodeAsListed := by
  unfold Obligations.SpecWordsDecodeAsListed
  decide +kernel

end Sys2Proof

/-! R217 and R218. WR_RHY stores its three global fields and then enters or leaves rhythm mode. Either way the block
after it is written out record by record: each of the channels 6 to 8 and each of their slots gets a value that only its
own record and the channel's algorithm decide. -/

namespace Sys2Proof.Machine

open Spec

/-! ### The global fields -/

/-- The global fields that WR_RHY stores (R217, R218). -/
def storeRhythm (d : Byte) (c : Chip) : Chip := { c with
  rhy := BitVec.ofNat 6 (d.toNat % 64)
  tremoloshift := if d.getLsbD 7 then 2 else 4
  vibshift := if d.getLsbD 6 then 0 else 1 }

@[simp] theorem chan_storeRhythm (d : Byte) (c : Chip) (n : ChanIdx) : (storeRhythm d c).chan n = c.chan n := rfl

@[simp] theorem slot_storeRhythm (d : Byte) (c : Chip) (i : SlotIdx) : (storeRhythm d c).slot i = c.slot i := rfl

theorem writeRhy_eq (d : Byte) (c : Chip) : writeRhy d c =
    if d.getLsbD 5 then rhythmEnter d (storeRhythm d c)
    else storeRhythm d c |> rhythmLeave 6 |> rhythmLeave 7 |> rhythmLeave 8 := by
  have hstore : ({ setDepths d c with rhy := field d 0 6 } : Chip) = storeRhythm d c := by
    rw [field_zero_eq_ofNat_mod]
    rfl
  rw [writeRhy, rhythmUpdate, hstore]
  rfl

/-! ### Entering rhythm mode -/

theorem setupAlg_of_drum {n : ChanIdx} {c : Chip} (h : (c.chan n).chtype = .drum) : setupAlg n c = setupDrum n c :=
  if_pos h

/-- The types and `out` lists of the drum channels (R218). -/
def setDrums (c : Chip) : Chip :=
  c |> setOut 6 (outs [15, 15]) |> setOut 7 (outs [13, 13, 16, 16]) |> setOut 8 (outs [14, 14, 17, 17])
    |> setChtype 6 .drum |> setChtype 7 .drum |> setChtype 8 .drum

@[simp] theorem slot_setDrums (c : Chip) (i : SlotIdx) : (setDrums c).slot i = c.slot i := by
  simp only [setDrums, slot_setChtype, slot_setOut]

theorem chan_setDrums (c : Chip) (n : ChanIdx) : (setDrums c).chan n =
    if n = 6 then { c.chan 6 with chtype := .drum, out := outs [15, 15] }
    else if n = 7 then { c.chan 7 with chtype := .drum, out := outs [13, 13, 16, 16] }
    else if n = 8 then { c.chan 8 with chtype := .drum, out := outs [14, 14, 17, 17] } else c.chan n := by
  by_cases h6 : n = 6
  · subst h6; simp [setDrums, chan_setChtype, chan_setOut]
  · by_cases h7 : n = 7
    · subst h7; simp [setDrums, chan_setChtype, chan_setOut]
    · by_cases h8 : n = 8
      · subst h8; simp [setDrums, chan_setChtype, chan_setOut]
      · simp [setDrums, chan_setChtype, chan_setOut, h6, h7, h8]

/-- The sources of the drum slots (R342), channel by channel. -/
theorem setupDrums_eq (c : Chip) : (setDrums c |> setupAlg 6 |> setupAlg 7 |> setupAlg 8) =
    (setDrums c |> setMod 12 .fb |> setMod 15 (if (c.chan 6).alg.getLsbD 0 then .zero else .out 12)
      |> setMod 13 .zero |> setMod 16 .zero |> setMod 14 .zero |> setMod 17 .zero) := by
  rw [setupAlg_of_drum (n := 8), setupAlg_of_drum (n := 7), setupAlg_of_drum (n := 6), setupDrum_six,
    setupDrum_seven_or_eight (.inl rfl), setupDrum_seven_or_eight (.inr rfl), chan_setDrums]
  · rfl
  all_goals simp [chtype_setupAlg, chan_setDrums]

/-- The source of a drum slot, by the algorithm bit of channel 6 (R342). -/
def drumMod (i : SlotIdx) (con : Bool) : ModSrc :=
  if i = 12 then .fb else if i = 15 then (if con then .zero else .out 12) else .zero

/-- The slots of channels 6 to 8 each have a drum key, and no other slot has one. -/
theorem drumBit_cases (i : SlotIdx) : i = 12 ∨ i = 13 ∨ i = 14 ∨ i = 15 ∨ i = 16 ∨ i = 17 ∨
    (drumBit i = none ∧ i ≠ 12 ∧ i ≠ 13 ∧ i ≠ 14 ∧ i ≠ 15 ∧ i ≠ 16 ∧ i ≠ 17) := by
  revert i; decide

theorem slot_setupDrums (c : Chip) (i : SlotIdx) : (setDrums c |> setupAlg 6 |> setupAlg 7 |> setupAlg 8).slot i =
    match drumBit i with
    | none => c.slot i
    | some _ => { c.slot i with mod := drumMod i ((c.chan 6).alg.getLsbD 0) } := by
  rw [setupDrums_eq]
  obtain rfl | rfl | rfl | rfl | rfl | rfl | ⟨hnone, hi⟩ := drumBit_cases i
  case inr.inr.inr.inr.inr.inr =>
    simp only [slot_setMod, slot_setDrums, hnone, hi, if_false]
  all_goals
    simp only [slot_setMod, slot_setDrums]
    rfl

/-- The keys of the drum slots (R218). -/
def setDrumKeys (d : Byte) (c : Chip) : Chip :=
  c |> keySet (bit d 0) 13 keyDrum |> keySet (bit d 1) 17 keyDrum |> keySet (bit d 2) 14 keyDrum
    |> keySet (bit d 3) 16 keyDrum |> keySet (bit d 4) 12 keyDrum |> keySet (bit d 4) 15 keyDrum

theorem slot_setDrumKeys (d : Byte) (c : Chip) (i : SlotIdx) : (setDrumKeys d c).slot i =
    match drumBit i with
    | none => c.slot i
    | some b => { c.slot i with key := if d.getLsbD b then (c.slot i).key ||| 2 else (c.slot i).key &&& 1 } := by
  obtain rfl | rfl | rfl | rfl | rfl | rfl | ⟨hnone, hi⟩ := drumBit_cases i
  case inr.inr.inr.inr.inr.inr => simp only [setDrumKeys, slot_keySet, hnone, hi, if_false]
  all_goals
    simp only [setDrumKeys, slot_keySet]
    rfl

@[simp] theorem chan_setDrumKeys (d : Byte) (c : Chip) (n : ChanIdx) : (setDrumKeys d c).chan n = c.chan n := by
  simp [setDrumKeys]

theorem rhythmEnter_eq (d : Byte) (c : Chip) :
    rhythmEnter d c = setDrumKeys d (setDrums c |> setupAlg 6 |> setupAlg 7 |> setupAlg 8) := rfl

theorem chan_rhythmEnter (d : Byte) (c : Chip) (n : ChanIdx) : (rhythmEnter d c).chan n =
    if n = 6 then { c.chan 6 with chtype := .drum, out := outs [15, 15] }
    else if n = 7 then { c.chan 7 with chtype := .drum, out := outs [13, 13, 16, 16] }
    else if n = 8 then { c.chan 8 with chtype := .drum, out := outs [14, 14, 17, 17] } else c.chan n := by
  rw [rhythmEnter_eq, chan_setDrumKeys, setupDrums_eq]
  simp only [chan_setMod, chan_setDrums]

/-- Every drum key from its bit of D, and every drum slot's source. -/
theorem slot_rhythmEnter (d : Byte) (c : Chip) (i : SlotIdx) : (rhythmEnter d c).slot i =
    match drumBit i with
    | none => c.slot i
    | some b => { c.slot i with
        key := if d.getLsbD b then (c.slot i).key ||| 2 else (c.slot i).key &&& 1
        mod := drumMod i ((c.chan 6).alg.getLsbD 0) } := by
  rw [rhythmEnter_eq, slot_setDrumKeys, slot_setupDrums]
  cases drumBit i <;> rfl

theorem sameGlobals_setDrumKeys (d : Byte) (c : Chip) : c.SameGlobals (setDrumKeys d c) :=
  (sameGlobals_keySet _ _ _ c).trans <| (sameGlobals_keySet ..).trans <| (sameGlobals_keySet ..).trans <|
    (sameGlobals_keySet ..).trans <| (sameGlobals_keySet ..).trans (sameGlobals_keySet ..)

theorem routingOnly_setDrums (c : Chip) : RoutingOnly c (setDrums c) :=
  (routingOnly_setOut _ _ c).trans <| (routingOnly_setOut ..).trans <| (routingOnly_setOut ..).trans <|
    (routingOnly_setChtype ..).trans <| (routingOnly_setChtype ..).trans (routingOnly_setChtype ..)

theorem sameGlobals_rhythmEnter (d : Byte) (c : Chip) : c.SameGlobals (rhythmEnter d c) := by
  rw [rhythmEnter_eq]
  exact (routingOnly_setDrums c).globals.trans <| (routingOnly_setupAlg 6 _).globals.trans <|
    (routingOnly_setupAlg 7 _).globals.trans <| (routingOnly_setupAlg 8 _).globals.trans (sameGlobals_setDrumKeys d _)

/-- Settles O26: the block after the global fields are stored, record by record. -/
theorem rhyWriteOnSetsDrums : Obligations.RhyWriteOnSetsDrums := by
  intro s d hv hon
  refine ⟨s.regWrite (writeRhy d), rfl, State.regWrite_result .., State.regWrite_pending .., ?_⟩
  rw [regWrite_chip_of_valid _ hv, writeRhy_eq, if_pos hon]
  refine ⟨sameGlobals_rhythmEnter d (storeRhythm d s.chip), ?_, ?_, ?_, fun n h6 h7 h8 => ?_, fun i => ?_⟩
  · rw [chan_rhythmEnter, if_pos rfl, chan_storeRhythm]
  · rw [chan_rhythmEnter, if_neg (by decide), if_pos rfl, chan_storeRhythm]
  · rw [chan_rhythmEnter, if_neg (by decide), if_neg (by decide), if_pos rfl, chan_storeRhythm]
  · rw [chan_rhythmEnter, if_neg h6, if_neg h7, if_neg h8, chan_storeRhythm]
  · have hslot := slot_rhythmEnter d (storeRhythm d s.chip) i
    cases h : drumBit i <;> rw [h] at hslot <;> exact hslot

/-! ### Leaving rhythm mode -/

/-- R341: the algorithms that a two-operator channel is not routed for. -/
def blocksRouting (alg : BitVec 4) : Bool := alg.getLsbD 3 || alg.getLsbD 2

theorem setupAlg_of_unpaired {n : ChanIdx} {c : Chip} (hpair : pair n = none) (htype : (c.chan n).chtype ≠ .drum) :
    setupAlg n c = if blocksRouting (c.chan n).alg then c else setupTwoOp n c := by
  cases h3 : (c.chan n).alg.getLsbD 3 <;> cases h2 : (c.chan n).alg.getLsbD 2 <;>
    simp only [setupAlg, blocksRouting, hpair, htype, h3, h2, Bool.or_self, Bool.or_true, Bool.true_or,
      Bool.false_eq_true, if_true, if_false]

/-- The source of slot `i` in a channel routed alone, by the algorithm bit (R345). -/
def twoOpMod (con : Bool) (i : SlotIdx) : ModSrc :=
  if i = op1 (channelOf i) then .fb else if con then .zero else .out (op1 (channelOf i))

/-- The `out` list of a channel routed alone (R345). -/
def twoOpOut (con : Bool) (n : ChanIdx) : Quad OutSrc := if con then outs [op1 n, op2 n] else outs [op2 n]

theorem slot_setupTwoOp (n : ChanIdx) (c : Chip) (i : SlotIdx) : (setupTwoOp n c).slot i =
    if channelOf i = n then { c.slot i with mod := twoOpMod ((c.chan n).alg.getLsbD 0) i } else c.slot i := by
  by_cases hi : channelOf i = n
  · rw [setupTwoOp_eq, slot_setOut]
    obtain rfl | rfl := (channelOf_eq_iff i n).mp hi
    · simp [slot_setMod, twoOpMod]
    · simp [slot_setMod, twoOpMod]
  · rw [if_neg hi, (sameChannel_setupTwoOp (n := channelOf i) hi c).slot i rfl]

theorem chan_setupTwoOp (n m : ChanIdx) (c : Chip) : (setupTwoOp n c).chan m =
    if m = n then { c.chan n with out := twoOpOut ((c.chan n).alg.getLsbD 0) n } else c.chan m := by
  rw [setupTwoOp_eq, chan_setOut]
  rfl

/-- What leaving rhythm mode makes of a channel's record. -/
def leaveChan (n : ChanIdx) (ch : Channel) : Channel := { ch with
  chtype := .twoOp, out := if blocksRouting ch.alg then ch.out else twoOpOut (ch.alg.getLsbD 0) n }

/-- What leaving rhythm mode makes of a slot's record, by its channel's algorithm. -/
def leaveSlot (alg : BitVec 4) (i : SlotIdx) (x : Slot) : Slot := { x with
  key := x.key &&& 1, mod := if blocksRouting alg then x.mod else twoOpMod (alg.getLsbD 0) i }

theorem leaveChan_leaveChan (n : ChanIdx) (ch : Channel) : leaveChan n (leaveChan n ch) = leaveChan n ch := by
  cases h : blocksRouting ch.alg <;> simp [leaveChan, h]

theorem leaveSlot_leaveSlot (alg : BitVec 4) (i : SlotIdx) (x : Slot) :
    leaveSlot alg i (leaveSlot alg i x) = leaveSlot alg i x := by
  cases h : blocksRouting alg <;> simp [leaveSlot, h, BitVec.and_assoc]

/-- From `a` to `b`, the channels of `l` left rhythm mode, and everything else stayed. -/
structure LeftRhythm (l : List ChanIdx) (a b : Chip) : Prop where
  globals : a.SameGlobals b
  chan : ∀ n, b.chan n = if n ∈ l then leaveChan n (a.chan n) else a.chan n
  slot : ∀ i, b.slot i = if channelOf i ∈ l then leaveSlot (a.chan (channelOf i)).alg i (a.slot i) else a.slot i

theorem LeftRhythm.alg {l : List ChanIdx} {a b : Chip} (h : LeftRhythm l a b) (n : ChanIdx) :
    (b.chan n).alg = (a.chan n).alg := by
  rw [h.chan]
  split <;> rfl

theorem LeftRhythm.trans {l l' : List ChanIdx} {a b c : Chip} (h1 : LeftRhythm l a b) (h2 : LeftRhythm l' b c) :
    LeftRhythm (l ++ l') a c where
  globals := h1.globals.trans h2.globals
  chan n := by
    rw [h2.chan, h1.chan]
    by_cases hl : n ∈ l <;> by_cases hl' : n ∈ l' <;> simp [hl, hl', leaveChan_leaveChan]
  slot i := by
    rw [h2.slot, h1.slot, h1.alg]
    by_cases hl : channelOf i ∈ l <;> by_cases hl' : channelOf i ∈ l' <;> simp [hl, hl', leaveSlot_leaveSlot]

/-- The drum keys of a channel's two slots, cleared together. -/
theorem slot_keyOffBoth (n : ChanIdx) (c : Chip) (i : SlotIdx) :
    (c |> keyOff (op1 n) keyDrum |> keyOff (op2 n) keyDrum).slot i =
      if channelOf i = n then { c.slot i with key := (c.slot i).key &&& 1 } else c.slot i := by
  simp only [slot_keyOff, channelOf_eq_iff]
  by_cases h1 : i = op1 n
  · subst h1; simp; rfl
  · by_cases h2 : i = op2 n
    · subst h2; simp; rfl
    · simp [h1, h2]

theorem leftRhythm_rhythmLeave {n : ChanIdx} (hpair : pair n = none) (c : Chip) :
    LeftRhythm [n] c (rhythmLeave n c) := by
  have hroute : setupAlg n (setChtype n .twoOp c) =
      if blocksRouting (c.chan n).alg then setChtype n .twoOp c else setupTwoOp n (setChtype n .twoOp c) := by
    rw [setupAlg_of_unpaired hpair (by simp [chan_setChtype])]
    simp [chan_setChtype]
  refine ⟨?_, fun m => ?_, fun i => ?_⟩
  · exact ((routingOnly_setChtype n .twoOp c).trans (routingOnly_setupAlg n _)).globals.trans
      ((Chip.sameGlobals_modSlot ..).trans (Chip.sameGlobals_modSlot ..))
  · rw [rhythmLeave, chan_keyOff, chan_keyOff, hroute]
    by_cases hm : m = n
    · subst hm
      cases h : blocksRouting (c.chan m).alg <;> simp [chan_setupTwoOp, chan_setChtype, leaveChan, h]
    · cases h : blocksRouting (c.chan n).alg <;> simp [chan_setupTwoOp, chan_setChtype, hm]
  · rw [rhythmLeave, slot_keyOffBoth, hroute]
    simp only [List.mem_singleton]
    by_cases hi : channelOf i = n
    · subst hi
      cases h : blocksRouting (c.chan (channelOf i)).alg <;>
        simp [slot_setupTwoOp, chan_setChtype, leaveSlot, h]
    · cases h : blocksRouting (c.chan n).alg <;> simp [slot_setupTwoOp, hi]

/-- WR_RHY with rhythm off: channels 6, 7 and 8 leave. -/
theorem leftRhythm_writeRhy {d : Byte} (hoff : d.getLsbD 5 = false) (c : Chip) :
    LeftRhythm [6, 7, 8] (storeRhythm d c) (writeRhy d c) := by
  rw [writeRhy_eq, hoff]
  exact ((leftRhythm_rhythmLeave (by decide) _).trans (leftRhythm_rhythmLeave (by decide) _)).trans
    (leftRhythm_rhythmLeave (by decide) _)

theorem mem_drumChans_iff (n : ChanIdx) : n ∈ ([6, 7, 8] : List ChanIdx) ↔ 6 ≤ n.val ∧ n.val ≤ 8 := by
  revert n; decide

theorem drumBit_isSome_iff (i : SlotIdx) : (drumBit i).isSome = true ↔ channelOf i ∈ ([6, 7, 8] : List ChanIdx) := by
  revert i; decide

/-- Legal channels without a pair hold the algorithm of a connection bit, which does not block the routing. -/
theorem blocksRouting_eq_false_of_algLegal {n : ChanIdx} {a : BitVec 4} (h : algLegal n a) (hn : 6 ≤ n.val % 9) :
    blocksRouting a = false := by
  obtain rfl | rfl | ⟨hlt, -⟩ | ⟨-, hlt, -⟩ := h
  · rfl
  · rfl
  · omega
  · omega

/-- Settles O27: a legal state does not block the routing of channels 6 to 8. -/
theorem rhyWriteOffRestoresChannels : Obligations.RhyWriteOffRestoresChannels := by
  rintro s d hv ⟨-, -, hchans, -⟩ hoff
  have hleft := leftRhythm_writeRhy hoff s.chip
  refine ⟨s.regWrite (writeRhy d), rfl, State.regWrite_result .., State.regWrite_pending .., ?_⟩
  rw [regWrite_chip_of_valid _ hv]
  refine ⟨hleft.globals, fun n hlo hhi => ?_, fun n => ⟨?_, fun hn => ?_⟩, fun i => ?_⟩
  · have hmem := (mem_drumChans_iff n).mpr ⟨hlo, hhi⟩
    obtain ⟨halg, -⟩ := hchans n
    have hroute := blocksRouting_eq_false_of_algLegal halg (by omega)
    rw [hleft.chan, if_pos hmem, TwoRouted, hleft.chan, if_pos hmem, hleft.slot, hleft.slot, channelOf_op1,
      channelOf_op2, if_pos hmem, if_pos hmem]
    simp [leaveChan, leaveSlot, hroute, twoOpMod, twoOpOut]
  · rw [ChanRoutingOnly, hleft.chan]
    split <;> rfl
  · rw [hleft.chan, if_neg (by rwa [mem_drumChans_iff]), chan_storeRhythm]
  · simp only [drumBit_isSome_iff, hleft.slot]
    split <;> rfl

end Sys2Proof.Machine

/-! R105, R220, R313 and R544: what holds of every register write. A register write is the effect of its family under
the guard of R421, so each statement is one fact about the thirteen families. -/

namespace Sys2Proof.Machine

open Spec

/-! ### The families -/

/-- `P` holds of the effect of every register family on the block. -/
structure EveryFamily (P : (Chip → Chip) → Prop) : Prop where
  ignored : P id
  nts (d : Byte) : P (writeNts d)
  fourOp (d : Byte) : P (write4op d)
  newm (d : Byte) : P (writeNew d)
  op20 (i : SlotIdx) (d : Byte) : P (writeOp20 i d)
  op40 (i : SlotIdx) (d : Byte) : P (writeOp40 i d)
  op60 (i : SlotIdx) (d : Byte) : P (writeOp60 i d)
  op80 (i : SlotIdx) (d : Byte) : P (writeOp80 i d)
  opE0 (i : SlotIdx) (d : Byte) : P (writeOpE0 i d)
  chA0 (n : ChanIdx) (d : Byte) : P (writeChA0 n d)
  chB0 (n : ChanIdx) (d : Byte) : P (writeChB0 n d)
  chC0 (n : ChanIdx) (d : Byte) : P (writeChC0 n d)
  rhy (d : Byte) : P (writeRhy d)

/-- A register write is the effect of a family under the guard. -/
theorem EveryFamily.exec {P : (Chip → Chip) → Prop} (h : EveryFamily P) {i : Instr} (hi : isRegisterWrite i = true) :
    ∃ f, P f ∧ ∀ s, exec i s = .next (s.regWrite f) := by
  cases i with
  | reset r => cases hi
  | render => cases hi
  | wrNts d => exact ⟨_, h.nts d, fun _ => rfl⟩
  | wr4op d => exact ⟨_, h.fourOp d, fun _ => rfl⟩
  | wrNew d => exact ⟨_, h.newm d, fun _ => rfl⟩
  | wrRhy d => exact ⟨_, h.rhy d, fun _ => rfl⟩
  | wrIgnored a d => exact ⟨_, h.ignored, fun _ => rfl⟩
  | wrOp20a k d | wrOp20b k d | wrOp20c k d | wrOp20d k d => exact ⟨_, h.op20 k d, fun _ => rfl⟩
  | wrOp40a k d | wrOp40b k d | wrOp40c k d | wrOp40d k d => exact ⟨_, h.op40 k d, fun _ => rfl⟩
  | wrOp60a k d | wrOp60b k d | wrOp60c k d | wrOp60d k d => exact ⟨_, h.op60 k d, fun _ => rfl⟩
  | wrOp80a k d | wrOp80b k d | wrOp80c k d | wrOp80d k d => exact ⟨_, h.op80 k d, fun _ => rfl⟩
  | wrOpE0a k d | wrOpE0b k d | wrOpE0c k d | wrOpE0d k d => exact ⟨_, h.opE0 k d, fun _ => rfl⟩
  | wrChA0a n d | wrChA0b n d => exact ⟨_, h.chA0 n d, fun _ => rfl⟩
  | wrChB0a n d | wrChB0b n d => exact ⟨_, h.chB0 n d, fun _ => rfl⟩
  | wrChC0a n d | wrChC0b n d => exact ⟨_, h.chC0 n d, fun _ => rfl⟩

/-! ### The tick state -/

/-- The effect leaves what ticks and the resampler own, and the flag and the ratio. -/
structure LeavesTickState (f : Chip → Chip) : Prop where
  tick (c : Chip) : c.SameTick (f c)
  valid (c : Chip) : (f c).valid = c.valid
  rateratio (c : Chip) : (f c).rateratio = c.rateratio

theorem leavesTickState_of_sameGlobals {f : Chip → Chip} (htick : ∀ c : Chip, c.SameTick (f c))
    (hglobals : ∀ c : Chip, c.SameGlobals (f c)) : LeavesTickState f :=
  ⟨htick, fun c => by rw [← hglobals c], fun c => by rw [← hglobals c]⟩

/-- The replacement of one slot record by one with the same tick state. -/
theorem leavesTickState_of_setSlot {f : Chip → Chip} {i : SlotIdx} {g : Chip → Slot}
    (hf : ∀ c : Chip, f c = c.setSlot i (g c)) (hg : ∀ c : Chip, (c.slot i).SameTick (g c)) : LeavesTickState f := by
  refine leavesTickState_of_sameGlobals (fun c => ?_) (fun c => ?_)
  · rw [hf]
    exact Chip.sameTick_modSlot c i (fun _ => g c) (hg c)
  · rw [hf]
    rfl

theorem sameTick_writeFreqHigh (n : ChanIdx) (d : Byte) (c : Chip) : c.SameTick (writeFreqHigh n d c) := by
  unfold writeFreqHigh
  split
  · simp
  · exact (Chip.sameTick_modChan c n _).trans (sameTick_freqChanged n true _)

theorem sameTick_writeKey (n : ChanIdx) (on : Bool) (c : Chip) : c.SameTick (writeKey n on c) := by
  cases on
  · exact sameTick_foldKeys (keyOff · keyNorm) (fun i c => sameTick_keySet false i keyNorm c) _ c
  · exact sameTick_foldKeys (keyOn · keyNorm) (fun i c => sameTick_keySet true i keyNorm c) _ c

theorem sameTick_writeChA0 (n : ChanIdx) (d : Byte) (c : Chip) : c.SameTick (writeChA0 n d c) := by
  unfold writeChA0
  split
  · simp
  · exact (Chip.sameTick_modChan c n _).trans (sameTick_freqChanged n false _)

theorem sameTick_setEnables (n : ChanIdx) (d : Byte) (c : Chip) : c.SameTick (setEnables n d c) := by
  unfold setEnables
  split <;> exact Chip.sameTick_modChan c n _

theorem sameTick_writeChC0 (n : ChanIdx) (d : Byte) (c : Chip) : c.SameTick (writeChC0 n d c) :=
  (Chip.sameTick_modChan c n _).trans <| (routingOnly_updateAlg n _).sameTick.trans (sameTick_setEnables n d _)

/-- A change of globals that ticks do not own, then a change of records, each slot keeping its tick state. -/
theorem sameTick_of_storeRhythm {d : Byte} {c b : Chip} (hglobals : (storeRhythm d c).SameGlobals b)
    (hslots : ∀ i, (c.slot i).SameTick (b.slot i)) : c.SameTick b := by
  rw [Chip.SameTick, ← hglobals]
  simp only [storeRhythm, true_and]
  exact hslots

theorem sameGlobals_writeRhy (d : Byte) (c : Chip) : (storeRhythm d c).SameGlobals (writeRhy d c) := by
  cases h : d.getLsbD 5 with
  | false => exact (leftRhythm_writeRhy h c).globals
  | true => rw [writeRhy_eq, if_pos h]; exact sameGlobals_rhythmEnter d _

theorem sameTick_writeRhy (d : Byte) (c : Chip) : c.SameTick (writeRhy d c) := by
  refine sameTick_of_storeRhythm (sameGlobals_writeRhy d c) fun i => ?_
  cases h : d.getLsbD 5 with
  | false =>
    rw [(leftRhythm_writeRhy h c).slot, slot_storeRhythm]
    split <;> simp [leaveSlot, Slot.SameTick]
  | true =>
    rw [writeRhy_eq, if_pos h, slot_rhythmEnter, slot_storeRhythm]
    split <;> simp [Slot.SameTick]

theorem everyFamily_leavesTickState : EveryFamily LeavesTickState where
  ignored := leavesTickState_of_sameGlobals (fun c => Chip.SameTick.rfl' c) (fun _ => rfl)
  nts d := ⟨fun c => by simp [writeNts, Chip.SameTick, Chip.slot], fun _ => rfl, fun _ => rfl⟩
  fourOp d := leavesTickState_of_sameGlobals (fun c => (routingOnly_write4op d c).sameTick)
    (fun c => (routingOnly_write4op d c).globals)
  newm d := ⟨fun c => by simp [writeNew, Chip.SameTick, Chip.slot], fun _ => rfl, fun _ => rfl⟩
  op20 i d := leavesTickState_of_setSlot (writeOp20_eq_setSlot i d) (fun c => by simp [Slot.SameTick])
  op40 i d := leavesTickState_of_setSlot (writeOp40_eq_setSlot i d) (fun c => by simp [Slot.SameTick])
  op60 i d := leavesTickState_of_setSlot (writeOp60_eq_setSlot i d) (fun c => by simp [Slot.SameTick])
  op80 i d := leavesTickState_of_setSlot (writeOp80_eq_setSlot i d) (fun c => by simp [Slot.SameTick])
  opE0 i d := leavesTickState_of_setSlot (writeOpE0_eq_setSlot i d) (fun c => by simp [Slot.SameTick])
  chA0 n d := leavesTickState_of_sameGlobals (sameTick_writeChA0 n d) (sameGlobals_writeChA0 n d)
  chB0 n d := leavesTickState_of_sameGlobals
    (fun c => (sameTick_writeFreqHigh n d c).trans (sameTick_writeKey n (d.getLsbD 5) _)) (sameGlobals_writeChB0 n d)
  chC0 n d := leavesTickState_of_sameGlobals (sameTick_writeChC0 n d) (sameGlobals_writeChC0 n d)
  rhy d := ⟨sameTick_writeRhy d, fun c => by rw [← sameGlobals_writeRhy d c]; rfl,
    fun c => by rw [← sameGlobals_writeRhy d c]; rfl⟩

/-- Settles O28: after a reset the effect of the family, before it nothing. -/
theorem registerWritesNeverTouchTickState : Obligations.RegisterWritesNeverTouchTickState := by
  intro s i hi
  obtain ⟨f, hf, hexec⟩ := everyFamily_leavesTickState.exec hi
  refine ⟨s.regWrite f, hexec s, State.regWrite_result .., State.regWrite_pending .., ?_⟩
  rw [State.regWrite_chip]
  split
  · exact ⟨hf.tick s.chip, hf.valid s.chip, hf.rateratio s.chip⟩
  · exact ⟨Chip.SameTick.rfl' _, rfl, rfl⟩

end Sys2Proof.Machine

/-! R220 and R544: a register write done again finds every field it would write as it would write it. For the routing
the fields are those that R340 to R345 determine from connection bits and types, which the routing leaves. -/

namespace Sys2Proof.Machine

open Spec

/-! ### Records written with their own value -/

theorem Chip.setChan_chan (c : Chip) (n : ChanIdx) : c.setChan n (c.chan n) = c :=
  Chip.ext_records rfl (fun m => by rw [Chip.chan_setChan]; split <;> simp [*]) fun _ => rfl

theorem Chip.modChan_eq_self {c : Chip} {n : ChanIdx} {f : Channel → Channel} (h : f (c.chan n) = c.chan n) :
    c.modChan n f = c := by
  rw [Chip.modChan, h, Chip.setChan_chan]

/-- Two blocks with one routing, of which one is the other re-routed, are the same. -/
theorem RoutingOnly.eq_of_sameRouting {a b : Chip} (h : RoutingOnly a b)
    (htype : ∀ n, (b.chan n).chtype = (a.chan n).chtype) (hroute : ∀ n, SameRouting n a b) : a = b := by
  refine Chip.ext_records h.globals (fun n => ?_) fun i => ?_
  · rw [← h.chans n, htype, (hroute n).alg, (hroute n).out]
  · rw [← h.slots i]
    obtain hi | hi := (channelOf_eq_iff i _).mp rfl
    · rw [hi, (hroute _).mod1]
    · rw [hi, (hroute _).mod2]

/-! ### The routing is determined -/

theorem sameRouting_of_twoRouted {a b : Chip} {n : ChanIdx} {con : Bool} (ha : TwoRouted a n con)
    (hb : TwoRouted b n con) (halg : (b.chan n).alg.toNat = (a.chan n).alg.toNat) : SameRouting n a b := by
  obtain ⟨ha1, ha2, hao⟩ := ha
  obtain ⟨hb1, hb2, hbo⟩ := hb
  exact ⟨BitVec.eq_of_toNat_eq halg, hbo.trans hao.symm, hb1.trans ha1.symm, hb2.trans ha2.symm⟩

theorem sameRouting_of_fourRouted {a b : Chip} {p s : ChanIdx} {conP conS : Bool} (ha : FourRouted a p s conP conS)
    (hb : FourRouted b p s conP conS) : SameRouting p a b ∧ SameRouting s a b := by
  obtain ⟨hap, has, ha1, ha2, ha3, ha4, hao, hao'⟩ := ha
  obtain ⟨hbp, hbs, hb1, hb2, hb3, hb4, hbo, hbo'⟩ := hb
  exact ⟨⟨hbp.trans hap.symm, hbo.trans hao.symm, hb1.trans ha1.symm, hb2.trans ha2.symm⟩,
    ⟨BitVec.eq_of_toNat_eq (hbs.trans has.symm), hbo'.trans hao'.symm, hb3.trans ha3.symm, hb4.trans ha4.symm⟩⟩

/-- R202 done twice to a pair: the second time nothing moves. -/
theorem PairWritten.sameRouting_of_twice {newm on : Bool} {p q : ChanIdx} {a b b' : Chip}
    (h : PairWritten newm on p q a b) (h' : PairWritten newm on p q b b') (hp : (b.chan p).con = (a.chan p).con)
    (hq : (b.chan q).con = (a.chan q).con) : SameRouting p b b' ∧ SameRouting q b b' := by
  obtain ⟨-, -, hfour, htwoP, htwoQ, -⟩ := h
  obtain ⟨-, -, hfour', htwoP', htwoQ', hstay'⟩ := h'
  rw [hp, hq] at hfour'
  rw [hp] at htwoP'
  rw [hq] at htwoQ'
  have alone {n : ChanIdx} {con con' : Bool} (h1 : (b.chan n).alg.toNat = con.toNat ∧ TwoRouted b n con')
      (h2 : (b'.chan n).alg.toNat = con.toNat ∧ TwoRouted b' n con') : SameRouting n b b' :=
    sameRouting_of_twoRouted h1.2 h2.2 (h2.1.trans h1.1.symm)
  cases on with
  | false => exact ⟨alone (htwoP (.inl rfl)) (htwoP' (.inl rfl)), alone (htwoQ rfl) (htwoQ' rfl)⟩
  | true =>
    cases newm with
    | true => exact sameRouting_of_fourRouted (hfour rfl rfl) (hfour' rfl rfl)
    | false =>
      obtain ⟨halg, hout, hslot⟩ := hstay' rfl rfl
      exact ⟨alone (htwoP (.inr rfl)) (htwoP' (.inr rfl)),
        ⟨halg, hout, by rw [hslot _ (channelOf_op1 q)], by rw [hslot _ (channelOf_op2 q)]⟩⟩

theorem RoutingOnly.con {a b : Chip} (h : RoutingOnly a b) (n : ChanIdx) : (b.chan n).con = (a.chan n).con := by
  rw [← h.chans n]

/-- Every channel is in a pair of R202's list or in none. -/
theorem pairs_cover (n : ChanIdx) : (∃ x ∈ pairs, n = x.2.1 ∨ n = x.2.2) ∨ pair n = none := by
  revert n; decide

theorem write4op_write4op (d : Byte) (c : Chip) : write4op d (write4op d c) = write4op d c := by
  have hfirst := routingOnly_write4op d c
  have hsecond := routingOnly_write4op d (write4op d c)
  have hwritten := pairWritten_connectPairs d disjointPairs_pairs c
  have hwritten' := pairWritten_connectPairs d disjointPairs_pairs (write4op d c)
  rw [← write4op_eq] at hwritten hwritten'
  rw [hfirst.globals.newm] at hwritten'
  have hchannel (n : ChanIdx) : ((write4op d (write4op d c)).chan n).chtype = ((write4op d c).chan n).chtype ∧
      SameRouting n (write4op d c) (write4op d (write4op d c)) := by
    obtain ⟨x, hx, hn⟩ | hn := pairs_cover n
    · obtain ⟨hp, hq⟩ := (hwritten x hx).sameRouting_of_twice (hwritten' x hx) (hfirst.con _) (hfirst.con _)
      obtain ⟨htp, htq, -⟩ := hwritten x hx
      obtain ⟨htp', htq', -⟩ := hwritten' x hx
      obtain rfl | rfl := hn
      · exact ⟨htp'.trans htp.symm, hp⟩
      · exact ⟨htq'.trans htq.symm, hq⟩
    · have hstay := sameChannel_connectPairs d disjointPairs_pairs (outside_pairs hn) (write4op d c)
      exact ⟨by rw [write4op_eq d (write4op d c), hstay.chan], hstay.sameRouting⟩
  exact (hsecond.eq_of_sameRouting (fun n => (hchannel n).1) fun n => (hchannel n).2).symm

end Sys2Proof.Machine

/-! R220 and R544, continued: the families one by one, and the two statements about writes done again. -/

namespace Sys2Proof.Machine

open Spec

/-! ### R211 done again -/

section Written

variable (n : ChanIdx) (d : Byte) (c : Chip)

theorem storeFbCon_writeChC0 : storeFbCon n d (writeChC0 n d c) = writeChC0 n d c := by
  refine Chip.modChan_eq_self ?_
  rw [field_eq_ofNat_div, chan_writeChC0_self]
  rfl

theorem setEnables_writeChC0 : setEnables n d (writeChC0 n d c) = writeChC0 n d c := by
  refine (Chip.ext_records (sameGlobals_setEnables n d _) (fun m => ?_) fun i => (slot_setEnables ..).symm).symm
  rw [chan_setEnables]
  split
  next hm =>
    subst hm
    rw [(sameGlobals_writeChC0 m d c).newm, chan_writeChC0_self]
  next => rfl

theorem chtype_writeChC0 (m : ChanIdx) : ((writeChC0 n d c).chan m).chtype = (c.chan m).chtype := by
  rw [writeChC0_eq, chan_setEnables]
  split
  next hm =>
    subst hm
    exact (chtype_updateAlg ..).trans (chtype_storeFbCon ..)
  next => rw [chtype_updateAlg, chtype_storeFbCon]

theorem con_writeChC0_self : ((writeChC0 n d c).chan n).con = d.getLsbD 0 := by
  rw [chan_writeChC0_self]

theorem con_writeChC0_ne {m : ChanIdx} (h : m ≠ n) : ((writeChC0 n d c).chan m).con = (c.chan m).con := by
  rw [← chanRoutingOnly_writeChC0 h]

theorem newm_writeChC0 : (writeChC0 n d c).newm = c.newm := (sameGlobals_writeChC0 n d c).newm

end Written

theorem setupDrum_of_not_drumChan {n : ChanIdx} (h6 : n ≠ 6) (h7 : n ≠ 7) (h8 : n ≠ 8) (c : Chip) :
    setupDrum n c = c := by
  simp [setupDrum, h6, h7, h8]

/-- A channel of a pair is no drum channel. -/
theorem setupDrum_of_pair {n m : ChanIdx} (h : pair n = some m) (c : Chip) : setupDrum n c = c := by
  refine setupDrum_of_not_drumChan ?_ ?_ ?_ c <;> (rintro rfl; exact absurd h (by revert m; decide))

/-- A pair whose second channel is a drum, as in no run, gets its algorithms and nothing else. -/
theorem updateAlg_of_drum_partner {n m : ChanIdx} {c : Chip} (hnew : c.newm = true)
    (htype : (c.chan n).chtype = .fourOp) (hpair : pair n = some m) (hm : (c.chan m).chtype = .drum) :
    updateAlg n c = (setConAlg n c |> setAlg m (fourOpAlg (c.chan n).con (c.chan m).con) |> setAlg n 8) := by
  rw [updateAlg_of_first hnew htype hpair, updatePair, con_setConAlg, con_setConAlg,
    setupAlg_of_drum (by rw [chtype_setAlg, chtype_setAlg, chtype_setConAlg, hm]), setupDrum_of_pair (pair_symm hpair)]

/-- The sources of a re-routed drum channel's operators are decided by its place and its connection bit. -/
theorem mods_updateAlg_of_drum {n : ChanIdx} {a b : Chip} (ha : (a.chan n).chtype = .drum)
    (hb : (b.chan n).chtype = .drum) (hcon : (b.chan n).con = (a.chan n).con)
    (hroute : SameRouting n (updateAlg n a) b) :
    ((updateAlg n b).slot (op1 n)).mod = (b.slot (op1 n)).mod ∧
      ((updateAlg n b).slot (op2 n)).mod = (b.slot (op2 n)).mod := by
  rw [hroute.mod1, hroute.mod2]
  by_cases h6 : n = 6
  · subst h6
    obtain ⟨ha1, ha2⟩ := slot_updateAlg_six ha
    obtain ⟨hb1, hb2⟩ := slot_updateAlg_six hb
    exact ⟨hb1.trans ha1.symm, hb2.trans (by rw [hcon]; exact ha2.symm)⟩
  · by_cases h78 : n = 7 ∨ n = 8
    · obtain ⟨ha1, ha2⟩ := slot_updateAlg_seven_or_eight h78 ha
      obtain ⟨hb1, hb2⟩ := slot_updateAlg_seven_or_eight h78 hb
      exact ⟨hb1.trans ha1.symm, hb2.trans ha2.symm⟩
    · rw [← hroute.mod1, ← hroute.mod2, updateAlg_of_no_partner (not_partner_of_drum hb), if_pos hb,
        setupDrum_of_not_drumChan h6 (fun h => h78 (.inl h)) fun h => h78 (.inr h)]
      exact ⟨rfl, rfl⟩

theorem sameRouting_updateAlg_of_drum {n : ChanIdx} {a b : Chip} (ha : (a.chan n).chtype = .drum)
    (hb : (b.chan n).chtype = .drum) (hcon : (b.chan n).con = (a.chan n).con)
    (hroute : SameRouting n (updateAlg n a) b) : SameRouting n b (updateAlg n b) := by
  obtain ⟨hmod1, hmod2⟩ := mods_updateAlg_of_drum ha hb hcon hroute
  refine ⟨BitVec.eq_of_toNat_eq ?_, out_updateAlg_of_drum hb, hmod1, hmod2⟩
  rw [alg_updateAlg (not_partner_of_drum hb), hroute.alg, alg_updateAlg (not_partner_of_drum ha), hcon]

theorem sameRouting_updateAlg_of_drum_partner {n m : ChanIdx} {a b : Chip} (hnew : a.newm = true)
    (htype : (a.chan n).chtype = .fourOp) (hpair : pair n = some m) (hm : (a.chan m).chtype = .drum)
    (hnew' : b.newm = true) (htype' : (b.chan n).chtype = .fourOp) (hm' : (b.chan m).chtype = .drum)
    (hn : (b.chan n).con = (a.chan n).con) (hcon : (b.chan m).con = (a.chan m).con)
    (hrouteN : SameRouting n (updateAlg n a) b) (hrouteM : SameRouting m (updateAlg n a) b) :
    SameRouting n b (updateAlg n b) ∧ SameRouting m b (updateAlg n b) := by
  have hne := ne_of_pair hpair
  have halgN := hrouteN.alg
  have halgM := hrouteM.alg
  rw [updateAlg_of_drum_partner hnew htype hpair hm] at halgN halgM
  rw [updateAlg_of_drum_partner hnew' htype' hpair hm', hn, hcon]
  refine ⟨⟨?_, ?_, rfl, rfl⟩, ⟨?_, ?_, rfl, rfl⟩⟩
  · rw [halgN]; simp [chan_setAlg]
  · simp [chan_setAlg, chan_setConAlg, hne.symm]
  · rw [halgM]; simp [chan_setAlg, hne]
  · simp [chan_setAlg, chan_setConAlg, hne]

section Rewritten

variable {n : ChanIdx} {c : Chip}

/-- After a write of R211 the re-routing of an enabled pair finds the pair as it would route it. -/
theorem sameRouting_updateAlg_writeChC0_pair {m : ChanIdx} (hpart : Partner c n m) (d : Byte) :
    SameRouting n (writeChC0 n d c) (updateAlg n (writeChC0 n d c)) ∧
      SameRouting m (writeChC0 n d c) (updateAlg n (writeChC0 n d c)) := by
  obtain ⟨hnew, htype | htype, hpair⟩ := hpart
  all_goals
    have hne := ne_of_pair hpair
    have hnew' := (newm_writeChC0 n d c).trans hnew
    have htype' := (chtype_writeChC0 n d c n).trans htype
    have hconN := con_writeChC0_self n d c
    have hconM := con_writeChC0_ne n d c hne
  · by_cases hm : (c.chan m).chtype = .drum
    · exact sameRouting_updateAlg_of_drum_partner (a := storeFbCon n d c) hnew (by rwa [chtype_storeFbCon]) hpair
        (by rwa [chtype_storeFbCon]) hnew' htype' ((chtype_writeChC0 n d c m).trans hm)
        (by rw [hconN, chan_storeFbCon_self]) (by rw [hconM, chan_storeFbCon_ne hne])
        (sameRouting_writeChC0 n d c n) (sameRouting_writeChC0 n d c m)
    · have hfour := fourRouted_updateAlg_first hnew' htype' hpair (by rwa [chtype_writeChC0])
      rw [hconN, hconM] at hfour
      exact sameRouting_of_fourRouted (fourRouted_writeChC0_first hnew htype hpair hm) hfour
  · have hfour := fourRouted_updateAlg_second hnew' htype' hpair
    rw [hconN, hconM] at hfour
    exact (sameRouting_of_fourRouted (fourRouted_writeChC0_second hnew htype hpair) hfour).symm

theorem partner_writeChC0_iff (n m : ChanIdx) (d : Byte) (c : Chip) :
    Partner (writeChC0 n d c) n m ↔ Partner c n m := by
  simp only [Partner, newm_writeChC0, chtype_writeChC0]

/-- The same of a channel that is re-routed alone. -/
theorem sameRouting_updateAlg_writeChC0_alone (halone : ∀ m, ¬ Partner c n m) (d : Byte) :
    SameRouting n (writeChC0 n d c) (updateAlg n (writeChC0 n d c)) := by
  have halone' : ∀ m, ¬ Partner (writeChC0 n d c) n m := by simpa only [partner_writeChC0_iff] using halone
  have hcon := con_writeChC0_self n d c
  by_cases hdrum : (c.chan n).chtype = .drum
  · exact sameRouting_updateAlg_of_drum (a := storeFbCon n d c) (by rwa [chtype_storeFbCon])
      (by rwa [chtype_writeChC0]) (by rw [hcon, chan_storeFbCon_self]) (sameRouting_writeChC0 n d c n)
  · have htwo := twoRouted_updateAlg halone' (by rwa [chtype_writeChC0])
    have halg := alg_updateAlg halone'
    rw [hcon] at htwo halg
    exact sameRouting_of_twoRouted (twoRouted_writeChC0 halone hdrum) htwo (halg.trans (alg_writeChC0 halone).symm)

end Rewritten

theorem updateAlg_writeChC0 (n : ChanIdx) (d : Byte) (c : Chip) :
    updateAlg n (writeChC0 n d c) = writeChC0 n d c := by
  refine ((routingOnly_updateAlg n _).eq_of_sameRouting (fun k => chtype_updateAlg ..) fun k => ?_).symm
  by_cases hk : Partner c n k
  · exact (sameRouting_updateAlg_writeChC0_pair hk d).2
  · by_cases hkn : k = n
    · subst hkn
      by_cases hpart : ∃ m, Partner c k m
      · obtain ⟨m, hpart⟩ := hpart
        exact (sameRouting_updateAlg_writeChC0_pair hpart d).1
      · exact sameRouting_updateAlg_writeChC0_alone (not_exists.mp hpart) d
    · exact (sameChannel_updateAlg hkn (by rwa [partner_writeChC0_iff])).sameRouting

theorem writeChC0_writeChC0 (n : ChanIdx) (d : Byte) (c : Chip) :
    writeChC0 n d (writeChC0 n d c) = writeChC0 n d c := by
  rw [writeChC0_eq n d (writeChC0 n d c), storeFbCon_writeChC0, updateAlg_writeChC0, setEnables_writeChC0]

/-! ### R209 and R210 done again -/

theorem reachesPair_of_same {a b : Chip} {n : ChanIdx} (hnew : b.newm = a.newm)
    (htype : (b.chan n).chtype = (a.chan n).chtype) (m : ChanIdx) : ReachesPair b n m ↔ ReachesPair a n m := by
  rw [ReachesPair, hnew, htype]

theorem isSecond_of_same {a b : Chip} {n : ChanIdx} (hnew : b.newm = a.newm)
    (htype : (b.chan n).chtype = (a.chan n).chtype) : isSecond n b = isSecond n a := by
  rw [isSecond, hnew, htype, isSecond]

theorem Chip.SameGlobals.nts {a b : Chip} (h : a.SameGlobals b) : b.nts = a.nts := by
  rw [← h]

/-- The two blocks that one block's change of records makes are compared by their records. -/
theorem Chip.eq_of_sameGlobals {a b c : Chip} (hb : a.SameGlobals b) (hc : a.SameGlobals c)
    (hchan : ∀ n : ChanIdx, b.chan n = c.chan n) (hslot : ∀ i : SlotIdx, b.slot i = c.slot i) : b = c := by
  refine Chip.ext_records ?_ hchan hslot
  rw [← hc, ← hb]

theorem sameGlobals_storeFreq (n : ChanIdx) (f : BitVec 10) (b : BitVec 3) (c : Chip) :
    c.SameGlobals (storeFreq n f b c) := rfl

theorem sameGlobals_freqChanged_storeFreq (n : ChanIdx) (w : Bool) (f : BitVec 10) (b : BitVec 3) (c : Chip) :
    c.SameGlobals (freqChanged n w (storeFreq n f b c)) :=
  (sameGlobals_storeFreq n f b c).trans (sameGlobals_freqChanged n w _)

/-- A frequency stored again is stored already, for the channel and for a pair it reaches. -/
theorem freqChanged_storeFreq_twice (n : ChanIdx) (w : Bool) (f : BitVec 10) (b : BitVec 3) (c : Chip) :
    freqChanged n w (storeFreq n f b (freqChanged n w (storeFreq n f b c))) = freqChanged n w (storeFreq n f b c) := by
  have hchan (m : ChanIdx) := chan_freqChanged_storeFreq n m w f b c
  have hslot := slot_freqChanged_storeFreq n w f b c
  have hglobals := sameGlobals_freqChanged_storeFreq n w f b c
  generalize freqChanged n w (storeFreq n f b c) = x at *
  have htype : (x.chan n).chtype = (c.chan n).chtype := by rw [hchan, if_pos rfl]
  have hreach := reachesPair_of_same hglobals.newm htype
  refine (Chip.ext_records (sameGlobals_freqChanged_storeFreq n w f b x) (fun m => ?_) fun j => ?_).symm
  · rw [chan_freqChanged_storeFreq]
    simp only [hreach, hglobals.nts, hchan]
    split
    · simp
    · split
      · cases w <;> rfl
      · rfl
  · rw [slot_freqChanged_storeFreq]
    simp only [hreach, hslot, hchan]
    split
    · rfl
    · split
      · cases w <;> simp [*]
      · rfl

/-- The high bits that stand are kept by a second write of the low byte. -/
theorem fNumLow_again (f d : Nat) (hd : d < 256) :
    BitVec.ofNat 10 ((BitVec.ofNat 10 (f / 256 * 256 + d)).toNat / 256 * 256 + d) =
      BitVec.ofNat 10 (f / 256 * 256 + d) := by
  apply BitVec.eq_of_toNat_eq
  simp only [BitVec.toNat_ofNat]
  omega

theorem writeChA0_writeChA0 (n : ChanIdx) (d : Byte) (c : Chip) :
    writeChA0 n d (writeChA0 n d c) = writeChA0 n d c := by
  cases h : isSecond n c with
  | true =>
    have hstay : writeChA0 n d c = c := by rw [writeChA0, if_pos h]
    rw [hstay, hstay]
  | false =>
    have hself := chan_freqChanged_storeFreq n n false
      (BitVec.ofNat 10 ((c.chan n).fNum.toNat / 256 * 256 + d.toNat)) (c.chan n).block c
    rw [if_pos rfl, ← writeChA0_eq h] at hself
    have h' : isSecond n (writeChA0 n d c) = false :=
      (isSecond_of_same (sameGlobals_writeChA0 n d c).newm (by rw [hself])).trans h
    rw [writeChA0_eq h', hself, fNumLow_again _ _ d.isLt, writeChA0_eq h]
    exact freqChanged_storeFreq_twice ..

/-- The low bits that stand are kept by a write of the high bits. -/
theorem fNumHigh_again (f d : Nat) : BitVec.ofNat 10 (d % 4 * 256 +
    (BitVec.ofNat 10 (d % 4 * 256 + f % 256)).toNat % 256) = BitVec.ofNat 10 (d % 4 * 256 + f % 256) := by
  apply BitVec.eq_of_toNat_eq
  simp only [BitVec.toNat_ofNat]
  omega

theorem chan_writeChB0 {n : ChanIdx} {c : Chip} (h : isSecond n c = false) (d : Byte) (m : ChanIdx) :
    (writeChB0 n d c).chan m = if m = n ∨ ReachesPair c n m then
      let f := BitVec.ofNat 10 (d.toNat % 4 * 256 + (c.chan n).fNum.toNat % 256)
      let b := BitVec.ofNat 3 (d.toNat / 4)
      { c.chan m with fNum := f, block := b, ksv := ksv c.nts f b } else c.chan m := by
  rw [writeChB0_eq, chan_writeKey, chan_writeFreqHigh h]

/-- R216: of two key writes of one requester the last decides. -/
theorem key_again (k : BitVec 2) (on on' : Bool) :
    (if on then (if on' then k ||| 1 else k &&& 2) ||| 1 else (if on' then k ||| 1 else k &&& 2) &&& 2) =
      if on then k ||| 1 else k &&& 2 := by
  revert k on on'; decide

/-- R544, R220: of two writes of R210 with one frequency, the last decides the key alone. -/
theorem writeChB0_writeChB0 {d e : Byte} (hd : e.toNat % 32 = d.toNat % 32) (n : ChanIdx) (c : Chip) :
    writeChB0 n e (writeChB0 n d c) = writeChB0 n e c := by
  have hlow : e.toNat % 4 = d.toNat % 4 := by omega
  have hblock : BitVec.ofNat 3 (e.toNat / 4) = BitVec.ofNat 3 (d.toNat / 4) := by
    apply BitVec.eq_of_toNat_eq
    simp only [BitVec.toNat_ofNat]
    omega
  cases h : isSecond n c with
  | true => rw [writeChB0_of_isSecond h]
  | false =>
    have hglobals := sameGlobals_writeChB0 n d c
    have hchan := chan_writeChB0 h d
    have htype : ((writeChB0 n d c).chan n).chtype = (c.chan n).chtype := by
      rw [hchan]; split <;> rfl
    have h' := (isSecond_of_same hglobals.newm htype).trans h
    have hreach := reachesPair_of_same hglobals.newm htype
    have hself : ((writeChB0 n d c).chan n).fNum =
        BitVec.ofNat 10 (d.toNat % 4 * 256 + (c.chan n).fNum.toNat % 256) := by
      rw [hchan, if_pos (.inl rfl)]
    refine Chip.eq_of_sameGlobals (hglobals.trans (sameGlobals_writeChB0 ..)) (sameGlobals_writeChB0 ..)
      (fun m => ?_) fun j => ?_
    · rw [chan_writeChB0 h', hself, chan_writeChB0 h e, hlow, hblock, fNumHigh_again]
      simp only [hreach, hchan, hglobals.nts]
      split <;> rfl
    · rw [slot_writeChB0 h', hself, slot_writeChB0 h d, slot_writeChB0 h e, hlow, hblock, fNumHigh_again]
      simp only [hreach]
      by_cases hj : channelOf j = n ∨ ReachesPair c n (channelOf j)
      · simp only [if_pos hj, key_again]
      · simp only [if_neg hj]

/-! ### WR_RHY done again -/

theorem storeRhythm_of_sameGlobals {d : Byte} {a b : Chip} (h : (storeRhythm d a).SameGlobals b) :
    storeRhythm d b = b := by
  rw [← h]
  rfl

/-- R216: the drum key written twice from one bit. -/
theorem drumKey_again (k : BitVec 2) (on : Bool) :
    (if on = true then (if on = true then k ||| 2 else k &&& 1) ||| 2
      else (if on = true then k ||| 2 else k &&& 1) &&& 1) = if on = true then k ||| 2 else k &&& 1 := by
  revert k on; decide

theorem rhythmEnter_rhythmEnter (d : Byte) (c : Chip) : rhythmEnter d (rhythmEnter d c) = rhythmEnter d c := by
  have halg : ((rhythmEnter d c).chan 6).alg = (c.chan 6).alg := by rw [chan_rhythmEnter, if_pos rfl]
  refine (Chip.ext_records (sameGlobals_rhythmEnter d _) (fun n => ?_) fun i => ?_).symm
  · by_cases h : n = 6 ∨ n = 7 ∨ n = 8
    · obtain rfl | rfl | rfl := h <;> simp [chan_rhythmEnter]
    · simp only [not_or] at h
      simp [chan_rhythmEnter, h]
  · rw [slot_rhythmEnter d (rhythmEnter d c), halg, slot_rhythmEnter d c]
    cases drumBit i with
    | none => rfl
    | some b => simp only [drumKey_again]

theorem LeftRhythm.unique {l : List ChanIdx} {a b c : Chip} (hb : LeftRhythm l a b) (hc : LeftRhythm l a c) : b = c :=
  Chip.eq_of_sameGlobals hb.globals hc.globals (fun n => (hb.chan n).trans (hc.chan n).symm)
    fun i => (hb.slot i).trans (hc.slot i).symm

theorem LeftRhythm.of_twice {l : List ChanIdx} {a b : Chip} (h : LeftRhythm (l ++ l) a b) : LeftRhythm l a b :=
  ⟨h.globals, fun n => by simpa using h.chan n, fun i => by simpa using h.slot i⟩

theorem writeRhy_writeRhy (d : Byte) (c : Chip) : writeRhy d (writeRhy d c) = writeRhy d c := by
  have hstored := storeRhythm_of_sameGlobals (sameGlobals_writeRhy d c)
  cases h : d.getLsbD 5 with
  | true =>
    rw [writeRhy_eq, if_pos h, hstored, writeRhy_eq, if_pos h]
    exact rhythmEnter_rhythmEnter d _
  | false =>
    have hfirst := leftRhythm_writeRhy h c
    have hsecond := leftRhythm_writeRhy h (writeRhy d c)
    rw [hstored] at hsecond
    exact (hfirst.trans hsecond).of_twice.unique hfirst

/-! ### The settled statements -/

/-- The replacement of one slot record, by values that the record's other fields decide. -/
theorem idempotent_of_setSlot {f : Chip → Chip} {i : SlotIdx} {g : Chip → Slot}
    (hf : ∀ c : Chip, f c = c.setSlot i (g c)) (hg : ∀ c : Chip, g (c.setSlot i (g c)) = g c) (c : Chip) :
    f (f c) = f c := by
  rw [hf (f c), hf c, hg, Chip.setSlot_setSlot]

theorem everyFamily_idempotent : EveryFamily fun f => ∀ c, f (f c) = f c where
  ignored _ := rfl
  nts _ _ := rfl
  fourOp := write4op_write4op
  newm _ _ := rfl
  op20 i d := idempotent_of_setSlot (writeOp20_eq_setSlot i d) fun c => by simp
  op40 i d := idempotent_of_setSlot (writeOp40_eq_setSlot i d) fun c => by simp
  op60 i d := idempotent_of_setSlot (writeOp60_eq_setSlot i d) fun c => by simp
  op80 i d := idempotent_of_setSlot (writeOp80_eq_setSlot i d) fun c => by simp
  opE0 i d := idempotent_of_setSlot (writeOpE0_eq_setSlot i d) fun c => by rw [Chip.slot_setSlot_self]; rfl
  chA0 := writeChA0_writeChA0
  chB0 n d c := writeChB0_writeChB0 rfl n c
  chC0 := writeChC0_writeChC0
  rhy := writeRhy_writeRhy

/-- The guard of R421 goes the same way both times. -/
theorem regWrite_regWrite {f g : Chip → Chip} (hf : LeavesTickState f) (s : State) :
    (s.regWrite f).regWrite g = s.regWrite fun c => g (f c) := by
  cases hv : s.chip.valid with
  | true =>
    have hv' : (s.regWrite f).chip.valid = true := by rw [regWrite_chip_of_valid f hv, hf.valid, hv]
    rw [State.regWrite_of_valid g hv', regWrite_chip_of_valid f hv, State.regWrite_of_valid f hv,
      State.regWrite_of_valid (fun c => g (f c)) hv]
    rfl
  | false =>
    have hv' : s.noEffect.chip.valid = false := hv
    rw [State.regWrite_of_not_valid f hv, State.regWrite_of_not_valid g hv',
      State.regWrite_of_not_valid (fun c => g (f c)) hv]
    rfl

/-- What two facts say of every family, they say together of the effect of each register write. -/
theorem EveryFamily.and {P Q : (Chip → Chip) → Prop} (hp : EveryFamily P) (hq : EveryFamily Q) :
    EveryFamily fun f => P f ∧ Q f where
  ignored := ⟨hp.ignored, hq.ignored⟩
  nts d := ⟨hp.nts d, hq.nts d⟩
  fourOp d := ⟨hp.fourOp d, hq.fourOp d⟩
  newm d := ⟨hp.newm d, hq.newm d⟩
  op20 i d := ⟨hp.op20 i d, hq.op20 i d⟩
  op40 i d := ⟨hp.op40 i d, hq.op40 i d⟩
  op60 i d := ⟨hp.op60 i d, hq.op60 i d⟩
  op80 i d := ⟨hp.op80 i d, hq.op80 i d⟩
  opE0 i d := ⟨hp.opE0 i d, hq.opE0 i d⟩
  chA0 n d := ⟨hp.chA0 n d, hq.chA0 n d⟩
  chB0 n d := ⟨hp.chB0 n d, hq.chB0 n d⟩
  chC0 n d := ⟨hp.chC0 n d, hq.chC0 n d⟩
  rhy d := ⟨hp.rhy d, hq.rhy d⟩

/-- Settles O29: RESET forgets the state, and a register write finds its own fields. -/
theorem repeatedWriteOrResetIsIdempotent : Obligations.RepeatedWriteOrResetIsIdempotent := by
  intro i s t hi hexec
  obtain ⟨r, rfl⟩ | rfl | hw := instr_cases i
  · by_cases hr : validRate r
    · rw [exec_reset_of_valid hr] at hexec ⊢
      cases hexec
      rfl
    · rw [exec_reset_of_not_valid hr] at hexec ⊢
      cases hexec
      rfl
  · exact absurd rfl hi
  · obtain ⟨f, ⟨hleaves, htwice⟩, hf⟩ := (everyFamily_leavesTickState.and everyFamily_idempotent).exec hw
    rw [hf] at hexec
    cases hexec
    rw [hf, regWrite_regWrite hleaves]
    simp only [htwice]

theorem toNat_mod_of_flip_key {on off : Byte} (h : off = on ^^^ 0x20) : off.toNat % 32 = on.toNat % 32 := by
  subst h
  revert on
  decide +kernel

/-- Settles O30: each write of the one frequency makes the write before it forgotten. -/
theorem keyOffOnWithoutTickChangesNothing : Obligations.KeyOffOnWithoutTickChangesNothing := by
  rintro s t1 t2 t3 n on off - hoff h1 h2 h3
  obtain rfl : s.regWrite (writeChB0 n on) = t1 := by simpa [exec, execWrChB0a] using h1
  obtain rfl : (s.regWrite (writeChB0 n on)).regWrite (writeChB0 n off) = t2 := by simpa [exec, execWrChB0a] using h2
  obtain rfl : ((s.regWrite (writeChB0 n on)).regWrite (writeChB0 n off)).regWrite (writeChB0 n on) = t3 := by
    simpa [exec, execWrChB0a] using h3
  have hmod := toNat_mod_of_flip_key hoff
  have hleaves (d : Byte) : LeavesTickState (writeChB0 n d) := everyFamily_leavesTickState.chB0 n d
  rw [regWrite_regWrite (hleaves off)]
  simp only [writeChB0_writeChB0 hmod.symm]
  rw [regWrite_regWrite (hleaves on)]
  simp only [writeChB0_writeChB0 rfl]

end Sys2Proof.Machine

/-! R260 to R271. A waveform is a magnitude in the log domain and a sign. The bit tests of the phase are put in the
statements' arithmetic first, each a closed fact about 10 bits; a silent half is a level that the exponent shifts
out. -/

namespace Sys2Proof.Machine

open Spec

/-! ### The exponent -/

theorem expLin_eq_div (cfg : Config) (level : Nat) : expLin cfg level =
    2 * (cfg.expRom.get (Fin.ofNat 256 (min level 8191 % 256))).toNat / 2 ^ (min level 8191 / 256) := by
  have hlow : min level 8191 &&& 0xFF = min level 8191 % 256 := Nat.and_two_pow_sub_one_eq_mod _ 8
  rw [expLin, hlow, Nat.shiftRight_eq_div_pow, Nat.shiftRight_eq_div_pow, Nat.shiftLeft_eq, pow_one, Nat.mul_comm]

/-- R260: an 11-bit entry, doubled, has no bit left when it is shifted down by 12 or more. -/
theorem expLin_eq_zero (cfg : Config) {level : Nat} (h : 0xC00 ≤ level) : expLin cfg level = 0 := by
  have hentry := (cfg.expRom.get (Fin.ofNat 256 (min level 8191 % 256))).isLt
  have hpow : 2 ^ 12 ≤ 2 ^ (min level 8191 / 256) := Nat.pow_le_pow_right (by decide) (by omega)
  rw [expLin_eq_div]
  exact Nat.div_eq_of_lt (by omega)

theorem expRom_params_le (k : Fin 256) : (params.expRom.get k).toNat ≤ 2042 := by
  revert k
  decide +kernel

theorem expLin_params_le (level : Nat) : expLin params level ≤ 4084 := by
  have hentry := expRom_params_le (Fin.ofNat 256 (min level 8191 % 256))
  rw [expLin_eq_div]
  exact (Nat.div_le_self _ _).trans (by omega)

/-! ### The phase's bits -/

theorem getLsbD_nine_iff (p : BitVec 10) : p.getLsbD 9 = true ↔ 512 ≤ p.toNat := by
  revert p
  decide +kernel

theorem getLsbD_eight_iff (p : BitVec 10) : p.getLsbD 8 = true ↔ p.toNat / 256 % 2 = 1 := by
  revert p
  decide +kernel

/-- The second quarter of the period, where waveform 4 is negative. -/
theorem second_quarter_iff (p : BitVec 10) :
    (!p.getLsbD 9 && p.getLsbD 8) = true ↔ 256 ≤ p.toNat ∧ p.toNat < 512 := by
  revert p
  decide +kernel

/-- R262: the index of the sine's quarter wave. -/
theorem toNat_halfSine_index (p : BitVec 10) :
    (if p.getLsbD 8 then p.extractLsb' 0 8 ^^^ 0xFF else p.extractLsb' 0 8 : Byte).toNat =
      if p.toNat / 256 % 2 = 1 then 255 - p.toNat % 256 else p.toNat % 256 := by
  revert p
  decide +kernel

/-- R266: at double phase, with the odd entry on a falling quarter, the sine's index is waveform 4's. -/
theorem halfSine_index_double {p : BitVec 10} (h : p.getLsbD 9 = false) :
    let q := BitVec.ofNat 10 (2 * p.toNat + p.toNat / 128 % 2)
    q.getLsbD 9 = p.getLsbD 8 ∧
      (if q.getLsbD 8 then q.extractLsb' 0 8 ^^^ 0xFF else q.extractLsb' 0 8 : Byte) =
        (if p.getLsbD 7 then p.extractLsb' 0 8 ^^^ 0xFF else p.extractLsb' 0 8 : Byte) <<< 1 := by
  revert p
  decide +kernel

/-- R269: the ramp of the sawtooth. -/
theorem toNat_sawtooth (p : BitVec 10) : (if p.getLsbD 9 then (p &&& 0x1FF) ^^^ 0x1FF else p : BitVec 10).toNat =
    if 512 ≤ p.toNat then 1023 - p.toNat else p.toNat := by
  revert p
  decide +kernel

theorem toNat_xor_allOnes (p : BitVec 10) : (p ^^^ 0x3FF).toNat = 1023 - p.toNat := by
  revert p
  decide +kernel

/-! ### The waveforms -/

/-- R261: the value of a magnitude, in ones' complement when the sign is set. -/
def signed (neg : Bool) (v : Nat) : Int := if neg then -v - 1 else v

theorem signed_true (v : Nat) : signed true v = -v - 1 := rfl

theorem signed_false (v : Nat) : signed false v = v := rfl

section

variable (cfg : Config) (p : BitVec 10) (env : BitVec 9)

theorem wave_eq_signed (wf : BitVec 3) :
    wave cfg wf p env = signed (waveNeg wf p) (expLin cfg (waveLog cfg wf p + 8 * env.toNat)) := by
  rw [wave, Nat.shiftLeft_eq, Nat.mul_comm]
  rfl

theorem wave_zero : wave cfg 0 p env = signed (p.getLsbD 9) (expLin cfg (halfSine cfg p + 8 * env.toNat)) :=
  wave_eq_signed cfg p env 0

theorem wave_one : wave cfg 1 p env =
    signed false (expLin cfg ((if p.getLsbD 9 then 0x1000 else halfSine cfg p) + 8 * env.toNat)) :=
  wave_eq_signed cfg p env 1

theorem wave_two : wave cfg 2 p env = signed false (expLin cfg (halfSine cfg p + 8 * env.toNat)) :=
  wave_eq_signed cfg p env 2

theorem wave_three : wave cfg 3 p env =
    signed false (expLin cfg ((if p.getLsbD 8 then 0x1000 else logSin cfg (p.extractLsb' 0 8)) + 8 * env.toNat)) :=
  wave_eq_signed cfg p env 3

theorem wave_four : wave cfg 4 p env =
    signed (!p.getLsbD 9 && p.getLsbD 8) (expLin cfg (doubleSine cfg p + 8 * env.toNat)) :=
  wave_eq_signed cfg p env 4

theorem wave_five : wave cfg 5 p env = signed false (expLin cfg (doubleSine cfg p + 8 * env.toNat)) :=
  wave_eq_signed cfg p env 5

theorem wave_six : wave cfg 6 p env = signed (p.getLsbD 9) (expLin cfg (8 * env.toNat)) := by
  have h := wave_eq_signed cfg p env 6
  rwa [show waveLog cfg 6 p = 0 from rfl, Nat.zero_add] at h

theorem wave_seven : wave cfg 7 p env = signed (p.getLsbD 9)
    (expLin cfg (8 * (if 512 ≤ p.toNat then 1023 - p.toNat else p.toNat) + 8 * env.toNat)) := by
  have hlog : waveLog cfg 7 p = (if p.getLsbD 9 then (p &&& 0x1FF) ^^^ 0x1FF else p : BitVec 10).toNat <<< 3 := rfl
  rw [wave_eq_signed, hlog, toNat_sawtooth, Nat.shiftLeft_eq, Nat.mul_comm]
  rfl

theorem halfSine_eq_entry : halfSine cfg p = (cfg.logsinRom.get (Fin.ofNat 256
    (if p.toNat / 256 % 2 = 1 then 255 - p.toNat % 256 else p.toNat % 256))).toNat := by
  rw [halfSine, logSin, toNat_halfSine_index]

theorem halfSine_of_rising {p : BitVec 10} (h : p.getLsbD 8 = false) :
    halfSine cfg p = logSin cfg (p.extractLsb' 0 8) := by
  rw [halfSine, h]
  rfl

theorem halfSine_double {p : BitVec 10} (h : p.getLsbD 9 = false) :
    halfSine cfg (BitVec.ofNat 10 (2 * p.toNat + p.toNat / 128 % 2)) = doubleSine cfg p := by
  obtain ⟨-, hindex⟩ := halfSine_index_double h
  simp only [halfSine, hindex, doubleSine, h]
  rfl

end

theorem signed_expLin_silent (cfg : Config) {level : Nat} (h : 0xC00 ≤ level) :
    signed false (expLin cfg level) = 0 := by
  rw [expLin_eq_zero cfg h, signed_false, Nat.cast_zero]

theorem wave_params_bounds (wf : BitVec 3) (p : BitVec 10) (env : BitVec 9) :
    -4085 ≤ wave params wf p env ∧ wave params wf p env ≤ 4084 := by
  have hmag := expLin_params_le (waveLog params wf p + 8 * env.toNat)
  rw [wave_eq_signed]
  cases waveNeg wf p with
  | false => rw [signed_false]; omega
  | true => rw [signed_true]; omega

/-! ### The settled statements -/

/-- Settles O45: the largest entry of the exponent table, doubled. -/
theorem waveOutputsStayInRange : Obligations.WaveOutputsStayInRange :=
  ⟨wave_params_bounds, by decide +kernel, by decide +kernel⟩

/-- Settles O46: the sign is the phase's top bit, and the magnitude is read off each waveform's equation. -/
theorem exponentSineSquareAndSawtooth : Obligations.ExponentSineSquareAndSawtooth := by
  intro cfg p env level
  refine ⟨expLin_eq_div cfg level, ?_⟩
  rw [wave_zero, wave_six, wave_seven, halfSine_eq_entry]
  simp only [signed, getLsbD_nine_iff, and_self]

/-- Settles O47: the waveforms share their magnitudes with the sine and with each other, and differ in the sign and in
the silent halves. -/
theorem waveformsDeriveFromSine : Obligations.WaveformsDeriveFromSine := by
  intro cfg p env
  refine ⟨?_, ?_, ?_, ?_, ?_, ?_, ?_⟩
  · rw [wave_one, wave_zero]
    simp only [← getLsbD_nine_iff]
    cases p.getLsbD 9 with
    | false => rfl
    | true => exact signed_expLin_silent cfg (by simp; omega)
  · rw [wave_two, wave_zero]
    simp only [← getLsbD_nine_iff]
    cases p.getLsbD 9 with
    | false => rfl
    | true => simp [signed]
  · rw [wave_three, wave_two]
    simp only [← getLsbD_eight_iff]
    cases h : p.getLsbD 8 with
    | false => rw [halfSine_of_rising cfg h]; rfl
    | true => exact signed_expLin_silent cfg (by simp; omega)
  · rw [wave_four, wave_zero]
    simp only [← getLsbD_nine_iff]
    cases h : p.getLsbD 9 with
    | false =>
      rw [halfSine_double cfg h, (halfSine_index_double h).1]
      rfl
    | true => exact signed_expLin_silent cfg (by simp [doubleSine, h]; omega)
  · rw [wave_five, wave_four]
    simp only [← second_quarter_iff]
    cases !p.getLsbD 9 && p.getLsbD 8 with
    | false => rfl
    | true => simp [signed]
  · rw [wave_six, wave_six]
    simp only [← getLsbD_nine_iff]
    cases p.getLsbD 9 with
    | false => rfl
    | true => simp [signed]
  · have hp := p.isLt
    have hramp : (if 512 ≤ 1023 - p.toNat then 1023 - (1023 - p.toNat) else 1023 - p.toNat) =
        if 512 ≤ p.toNat then 1023 - p.toNat else p.toNat := by split_ifs <;> omega
    rw [wave_seven, wave_seven, toNat_xor_allOnes, hramp, BitVec.getLsbD_xor]
    cases p.getLsbD 9 with
    | false => rfl
    | true => simp [signed]

end Sys2Proof.Machine

/-! R315 and R548: what the level of a slot does over a step, from the lemmas on its three cases (a retrigger, the off
condition, a move by the shift). -/

namespace Sys2Proof.Machine

open Spec

/-! ### The level -/

section

variable {c : Chip} {i : SlotIdx}

theorem egRout_slotStep_le_of_attack (hgen : (c.slot i).egGen = .attack) (cfg : Config) :
    ((slotStep cfg i c).slot i).egRout.toNat ≤ (c.slot i).egRout.toNat := by
  have hlevel := toNat_egRout_slotStep_of_attack hgen cfg
  split at hlevel
  next h =>
    obtain ⟨hne, -, -, -⟩ := h
    have hshift := rateShift_le c ((c.chan (channelOf i)).ksv.toNat / (if (c.slot i).regKsr then 1 else 4))
      (egRegRate (c.slot i))
    rw [← egShift_eq_rateShift] at hshift
    have hpos : 0 < (c.slot i).egRout.toNat := Nat.pos_of_ne_zero fun h0 => hne (BitVec.eq_of_toNat_eq h0)
    obtain ⟨-, hinc⟩ := attackInc_bounds (Int.natCast_pos.mpr hpos)
      (by omega : 4 - egShift c (c.slot i) (c.chan (channelOf i)).ksv ≠ 0)
    omega
  next => omega

theorem le_egRout_slotStep_of_ne_attack (hr : (c.slot i).retrigger = false) (hgen : (c.slot i).egGen ≠ .attack)
    (cfg : Config) : (c.slot i).egRout.toNat ≤ ((slotStep cfg i c).slot i).egRout.toNat := by
  by_cases hoff : 0x1F8 ≤ (c.slot i).egRout.toNat
  · rw [egRout_slotStep_of_egOff hr hgen ((egOff_iff _).mpr hoff)]
    exact Nat.le_of_lt_succ (c.slot i).egRout.isLt
  · rw [toNat_egRout_slotStep_of_falling hr hgen (Nat.not_le.mp hoff)]
    exact Nat.le_add_right ..

/-- R304: a stage whose rate register is 0 holds the level, below the off condition. -/
theorem egRout_slotStep_of_rate_zero (hr : (c.slot i).retrigger = false) (hgen : (c.slot i).egGen ≠ .attack)
    (hrate : egRegRate (c.slot i) = 0) (hlt : (c.slot i).egRout.toNat < 0x1F8) (cfg : Config) :
    ((slotStep cfg i c).slot i).egRout = (c.slot i).egRout := by
  apply BitVec.eq_of_toNat_eq
  rw [toNat_egRout_slotStep_of_falling hr hgen hlt, hrate]
  simp [fallBy]

/-- R307: an ATTACK whose rate is held at 0 or saturates moves no level. -/
theorem egRout_slotStep_of_stuck_attack (hgen : (c.slot i).egGen = .attack)
    (hrate : egRegRate (c.slot i) = 0 ∨ 60 ≤ egRate (c.slot i) (c.chan (channelOf i)).ksv) (cfg : Config) :
    ((slotStep cfg i c).slot i).egRout = (c.slot i).egRout := by
  have hlevel := toNat_egRout_slotStep_of_attack hgen cfg
  rw [if_neg] at hlevel
  · exact BitVec.eq_of_toNat_eq (by omega)
  · rintro ⟨-, -, hshift, hslow⟩
    obtain hzero | hfast := hrate
    · rw [egShift_eq_rateShift, hzero] at hshift
      exact absurd hshift (lt_irrefl 0)
    · exact hslow ((rateHi_eq_fifteen_iff (egRate_lt _ _)).mpr hfast)

/-- R302: at level 0x1FF the attenuation is full, whatever is added. -/
theorem egTotal_of_silent {s : Slot} (h : s.egRout = 0x1FF) (tremolo : Nat) : egTotal s tremolo = 0x1FF := by
  have hlevel : s.egRout.toNat = 511 := by rw [h]; rfl
  have htotal : (egTotal s tremolo).toNat = 511 := by
    rw [toNat_egTotal, hlevel, Nat.add_assoc, Nat.add_assoc]
    exact min_eq_left (Nat.le_add_right ..)
  exact BitVec.eq_of_toNat_eq htotal

/-- R260: a full attenuation leaves the sign of the waveform alone. -/
theorem wave_of_silent (cfg : Config) (wf : BitVec 3) (p : BitVec 10) :
    wave cfg wf p 0x1FF = if waveNeg wf p then -1 else 0 := by
  have hlevel : 0xC00 ≤ waveLog cfg wf p + 8 * (0x1FF : BitVec 9).toNat :=
    le_add_left (by decide)
  rw [wave_eq_signed, expLin_eq_zero cfg hlevel]
  rfl

theorem toInt_wave_of_silent (cfg : Config) (wf : BitVec 3) (p : BitVec 10) :
    (s16 (wave cfg wf p 0x1FF)).toInt = 0 ∨ (s16 (wave cfg wf p 0x1FF)).toInt = -1 := by
  rw [wave_of_silent]
  cases waveNeg wf p with
  | false => exact .inl rfl
  | true => exact .inr rfl

end

/-! ### The settled statements -/

/-- Settles O35: one lemma for ATTACK, one for the other stages. -/
theorem envelopeIsMonotoneWithinAStage : Obligations.EnvelopeIsMonotoneWithinAStage := by
  intro cfg c i s s' hnot
  have hr : s.retrigger = false := by rwa [← Bool.not_eq_true, retrigger_iff]
  exact ⟨fun hgen => egRout_slotStep_le_of_attack hgen cfg, fun hgen => le_egRout_slotStep_of_ne_attack hr hgen cfg⟩

/-- Settles O37: the level is in the off condition, and its attenuation alone is beyond the exponent's range. -/
theorem offSlotsStaySilent : Obligations.OffSlotsStaySilent := by
  intro cfg c i s' hkey hgen hlevel
  have hr := retrigger_eq_false_of_key hkey
  have hoff : (c.slot i).egOff = true := (egOff_iff _).mpr (by rw [hlevel]; decide)
  refine ⟨?_, egRout_slotStep_of_egOff hr (by simp [hgen]) hoff cfg, ?_, ?_⟩
  · exact (egGen_slotStep cfg c i).trans (egGenNext_of_key_eq_zero hkey)
  · exact (egOut_slotStep cfg c i).trans (egTotal_of_silent hlevel _)
  · have hout : s'.out = _ := slotStep_out cfg i c
    rw [hout, egTotal_of_silent hlevel]
    exact toInt_wave_of_silent ..

/-- Settles O38: each stuck stage has a rate that moves no level, and no condition to leave the stage by. -/
theorem stuckEnvelopesHold : Obligations.StuckEnvelopesHold := by
  intro cfg c i s s' ks
  refine ⟨fun hkey hgen hne hrate => ?_, fun hkey hgen htype hlt => ?_, fun hkey hgen hrr hlt => ?_⟩
  · have hreg := egRegRate_of_attack hgen
    refine ⟨egRout_slotStep_of_stuck_attack hgen ?_ cfg, ?_⟩
    · rwa [egRate_eq, hreg]
    · rw [egGen_slotStep, egGenNext_of_keyed hkey (by simp [hgen]), egStageStep_of_attack hgen, if_neg hne]
  · have hr := retrigger_eq_false_of_egGen (s := s) (by simp [hgen])
    have hreg : egRegRate s = 0 := by rw [egRegRate_of_sustain hgen, if_pos htype]
    refine ⟨egRout_slotStep_of_rate_zero hr (by simp [s, hgen]) hreg hlt cfg, ?_⟩
    rw [egGen_slotStep, egGenNext_of_keyed hkey (by simp [hgen]), egStageStep_of_sustain hgen]
  · have hr := retrigger_eq_false_of_key hkey
    have hreg : egRegRate s = 0 := by rw [egRegRate_of_release hr hgen, hrr]
    refine ⟨egRout_slotStep_of_rate_zero hr (by simp [s, hgen]) hreg hlt cfg, ?_⟩
    rw [egGen_slotStep, egGenNext_of_key_eq_zero hkey]

end Sys2Proof.Machine

/-! R350 to R352, R380 to R383 and R400. The bus sums are finite sums over the channels; a tick is the 36 slot steps in
order, with the sums taken on the way, and then the end of the tick. -/

namespace Sys2Proof.Machine

open Spec

/-! ### The cast -/

theorem toInt_s16 {v : Int} (hlow : -32768 ≤ v) (hhigh : v ≤ 32767) : (s16 v).toInt = v :=
  BitVec.toInt_ofInt_eq_self (by decide) hlow (Int.lt_add_one_of_le hhigh)

theorem toInt_busOut (x : Int) :
    (busOut x).toInt = if x < -32768 then -32768 else if 32767 < x then 32767 else x := by
  have hclip : clip x = if x < -32768 then -32768 else if 32767 < x then 32767 else x := by
    unfold clip
    split_ifs <;> omega
  rw [busOut, ← hclip]
  exact toInt_s16 (by unfold clip; omega) (by unfold clip; omega)

/-! ### The mix -/

theorem mix_eq_sum (k : Bus) (c : Chip) :
    mix k c = ∑ n : ChanIdx, if busEnable k (c.chan n) then (accm c n).toInt else 0 := by
  have hlist : List.finRange 18 = (List.range' 0 18).map (Fin.ofNat 18) := by decide +kernel
  rw [Fin.sum_univ_def, List.sum_eq_foldl, List.foldl_map, hlist, List.foldl_map]
  rfl

theorem chan_setSlots (c : Chip) (v : Vector Slot 36) (n : ChanIdx) :
    ({ c with slots := v } : Chip).chan n = c.chan n := rfl

theorem slot_setSlots_ofFn (c : Chip) (f : SlotIdx → Slot) (i : SlotIdx) :
    ({ c with slots := Vector.ofFn f } : Chip).slot i = f i := by
  simp [Chip.slot, Vector.get_eq_getElem]

/-- A mix reads the channels and the slots, and no global field. -/
theorem mix_congr {a b : Chip} (hchan : ∀ n : ChanIdx, a.chan n = b.chan n)
    (hslot : ∀ i : SlotIdx, a.slot i = b.slot i) (k : Bus) : mix k a = mix k b := by
  have hval (o : OutSrc) : outVal a o = outVal b o := by
    cases o with
    | zero => rfl
    | out j => simp only [outVal, hslot]
  simp only [mix_eq_sum, accm, hchan, hval]

section

variable {c : Chip} (hout : ∀ i : SlotIdx, outRange (c.slot i).out)
include hout

theorem outVal_bounds (o : OutSrc) : -4085 ≤ outVal c o ∧ outVal c o ≤ 4084 := by
  cases o with
  | zero => exact ⟨by simp [outVal], by simp [outVal]⟩
  | out j => exact hout j

/-- R350: four operator outputs sum to a 16-bit value. -/
theorem accm_bounds (n : ChanIdx) :
    let o := (c.chan n).out
    let total := outVal c o.v0 + outVal c o.v1 + outVal c o.v2 + outVal c o.v3
    (accm c n).toInt = total ∧ -16340 ≤ total ∧ total ≤ 16340 := by
  intro o total
  obtain ⟨hlow0, hhigh0⟩ := outVal_bounds hout o.v0
  obtain ⟨hlow1, hhigh1⟩ := outVal_bounds hout o.v1
  obtain ⟨hlow2, hhigh2⟩ := outVal_bounds hout o.v2
  obtain ⟨hlow3, hhigh3⟩ := outVal_bounds hout o.v3
  have hlow : -16340 ≤ total := by omega
  have hhigh : total ≤ 16340 := by omega
  have hcast : (s16 total).toInt = total := toInt_s16 (by omega) (by omega)
  exact ⟨hcast, hlow, hhigh⟩

/-- R351: at most 18 channels of at most 16340 each. -/
theorem busRange_mix (k : Bus) : busRange (mix k c) := by
  have hterm (n : ChanIdx) : -16340 ≤ (if busEnable k (c.chan n) then (accm c n).toInt else 0) ∧
      (if busEnable k (c.chan n) then (accm c n).toInt else 0) ≤ 16340 := by
    obtain ⟨htotal, hlow, hhigh⟩ := accm_bounds hout n
    split
    · rw [htotal]
      exact ⟨hlow, hhigh⟩
    · decide
  have hlow := Finset.card_nsmul_le_sum Finset.univ _ _ fun n _ => (hterm n).1
  have hhigh := Finset.sum_le_card_nsmul Finset.univ _ _ fun n _ => (hterm n).2
  rw [← mix_eq_sum] at hlow hhigh
  exact ⟨by simpa using hlow, by simpa using hhigh⟩

end

/-! ### The tick -/

/-- The number of slots that have stepped when a bus is summed (R380, R382). -/
def mixPoint (cfg : Config) (k : Bus) : Nat :=
  if cfg.channelSampleDelay then (if k = .a ∨ k = .c then 15 else 33) else 36

theorem mixPoint_le (cfg : Config) (k : Bus) : mixPoint cfg k ≤ 36 := by
  unfold mixPoint
  split_ifs <;> decide

/-- The bus sums that a tick leaves, each of the slots that have stepped by then. -/
def mixed (cfg : Config) (c : Chip) : Quad Int :=
  let sum (k : Bus) : Int := mix k (runSlots cfg 0 (mixPoint cfg k) c)
  ⟨sum .a, sum .b, sum .c, sum .d⟩

/-- R380, R382: a tick is the 36 slot steps, with the bus sums taken on the way, and the end of the tick. -/
theorem tick_eq (cfg : Config) (c : Chip) :
    (tick cfg c).1 = tickEnd { runSlots cfg 0 36 c with mixbuff := mixed cfg c } := by
  unfold tick mixed mixPoint
  cases cfg.channelSampleDelay with
  | false => rfl
  | true =>
    have h33 : runSlots cfg 18 15 (runSlots cfg 15 3 (runSlots cfg 0 15 c)) = runSlots cfg 0 33 c := by
      rw [runSlots_add cfg 0 18 15, runSlots_add cfg 0 15 3]
    have h36 : runSlots cfg 33 3 (runSlots cfg 0 33 c) = runSlots cfg 0 36 c := (runSlots_add cfg 0 33 3 c).symm
    simp only [if_true, tickDelayed, mixAC, mixBD, runSlots_setMixbuff, h33, h36]
    rfl

theorem tickEnd_mixbuff (c : Chip) : (tickEnd c).mixbuff = c.mixbuff := congrArg (·.mixbuff) (tickEnd_eq c)

theorem tickEnd_noise (c : Chip) : (tickEnd c).noise = c.noise := congrArg (·.noise) (tickEnd_eq c)

theorem tick_mixbuff (cfg : Config) (c : Chip) : (tick cfg c).1.mixbuff = mixed cfg c := by
  rw [tick_eq, tickEnd_mixbuff]

/-- R352, R380, R382: A and C leave as summed in this tick, B and D as they stood before it. -/
theorem tick_out (cfg : Config) (c : Chip) : (tick cfg c).2 =
    ⟨busOut (tick cfg c).1.mixbuff.v0, busOut c.mixbuff.v1, busOut (tick cfg c).1.mixbuff.v2, busOut c.mixbuff.v3⟩ := by
  rw [tick_mixbuff]
  unfold tick mixed mixPoint
  cases cfg.channelSampleDelay with
  | false => rfl
  | true => simp [tickDelayed, mixAC]

theorem tick_slot (cfg : Config) (c : Chip) (i : SlotIdx) : (tick cfg c).1.slot i = (runSlots cfg 0 36 c).slot i := by
  rw [tick_eq, tickEnd_slot]
  rfl

/-- A run over the first slots leaves the others, and the rest of the tick leaves the first. -/
theorem runSlots_slot_of_le (cfg : Config) {n : Nat} (hn : n ≤ 36) (c : Chip) (i : SlotIdx) :
    (runSlots cfg 0 n c).slot i = if i.val < n then (runSlots cfg 0 36 c).slot i else c.slot i := by
  split
  next h =>
    have hsplit := runSlots_add cfg 0 n (36 - n) c
    rw [Nat.zero_add, Nat.add_sub_cancel' hn] at hsplit
    rw [hsplit, runSlots_slot_outside cfg n (36 - n) _ i (by omega) (.inl h)]
  next h => exact runSlots_slot_outside cfg 0 n c i (by omega) (.inr (by omega))

/-! ### The resampler -/

/-- A weighted mean, rounded toward zero, lies between its two values. -/
theorem tdiv_mean_bounds {a b w rr : Int} (hw : 0 ≤ w) (hrr : w < rr) :
    min a b ≤ (a * (rr - w) + b * w).tdiv rr ∧ (a * (rr - w) + b * w).tdiv rr ≤ max a b := by
  have hpos : 0 < rr := by omega
  have hlow : min a b * rr ≤ a * (rr - w) + b * w := by
    nlinarith [mul_le_mul_of_nonneg_right (min_le_left a b) (by omega : 0 ≤ rr - w),
      mul_le_mul_of_nonneg_right (min_le_right a b) hw]
  have hhigh : a * (rr - w) + b * w ≤ max a b * rr := by
    nlinarith [mul_le_mul_of_nonneg_right (le_max_left a b) (by omega : 0 ≤ rr - w),
      mul_le_mul_of_nonneg_right (le_max_right a b) hw]
  constructor
  · rw [← Int.mul_tdiv_cancel (min a b) (by omega : rr ≠ 0)]
    exact Int.tdiv_le_tdiv hpos hlow
  · conv_rhs => rw [← Int.mul_tdiv_cancel (max a b) (by omega : rr ≠ 0)]
    exact Int.tdiv_le_tdiv hpos hhigh

/-- R423: the frame leaves the register side of the block. -/
theorem sameRegs_renderChip (cfg : Config) (c : Chip) : c.SameRegs (renderChip cfg c) :=
  (catchUp_sameRegs cfg c).trans (by simp [renderChip, Chip.SameRegs, Chip.slot, Chip.chan])

/-! ### The settled statements -/

/-- Settles O48: the fold over the channels is their sum, and the bounds are those of the outputs. -/
theorem legalChannelSumsNeverWrap : Obligations.LegalChannelSumsNeverWrap := by
  intro c v total
  refine ⟨fun n => rfl, mix_eq_sum .a c, mix_eq_sum .b c, mix_eq_sum .c c, mix_eq_sum .d c, fun hlegal => ?_⟩
  obtain ⟨-, -, -, hslots⟩ := hlegal
  have hout (i : SlotIdx) : outRange (c.slot i).out := by
    obtain ⟨-, -, hrange, -⟩ := hslots i
    exact hrange
  exact ⟨accm_bounds hout, busRange_mix hout⟩

/-- Settles O49: A and C leave as summed in this tick, and B and D as they stood before it. -/
theorem tickReturnsOldBDAndNewAC : Obligations.TickReturnsOldBDAndNewAC := by
  intro cfg c r cl
  have hout : r.2 = _ := tick_out cfg c
  rw [hout]
  exact ⟨toInt_busOut _, toInt_busOut _, toInt_busOut _, toInt_busOut _⟩

/-- Settles O50: `tick_eq`, and each bus sum read at its own point of the run. -/
theorem tickMixesAtTheStatedPoints : Obligations.TickMixesAtTheStatedPoints := by
  intro cfg c r
  constructor
  · rw [← runSlots_all]
    simp only [r, tick_eq, tickEnd_eq_with]
    rw [← runSlots_mixbuff cfg 0 36 c, ← runSlots_timer cfg 0 36 c, ← runSlots_egTimer cfg 0 36 c,
      ← runSlots_egTimerrem cfg 0 36 c, ← runSlots_egState cfg 0 36 c, ← runSlots_egAdd cfg 0 36 c,
      ← runSlots_egTimerLo cfg 0 36 c, ← runSlots_tremolopos cfg 0 36 c, ← runSlots_tremolo cfg 0 36 c,
      ← runSlots_vibpos cfg 0 36 c]
  · intro k got last seen
    have hgot : got = mix k (runSlots cfg 0 (mixPoint cfg k) c) := by
      simp only [got, r, tick_mixbuff]
      cases k <;> rfl
    rw [hgot]
    refine mix_congr (fun n => ?_) (fun i => ?_) k
    · rw [runSlots_chan]
      exact (chan_setSlots ..).symm
    · rw [slot_setSlots_ofFn, runSlots_slot_of_le cfg (mixPoint_le cfg k)]
      simp only [r, tick_slot]
      rfl

/-- Settles O53: each of the 36 slot steps steps the register once, and nothing else of the tick does. -/
theorem tickStepsNoiseThirtySixTimes : Obligations.TickStepsNoiseThirtySixTimes := by
  intro cfg c
  rw [tick_eq, tickEnd_noise]
  exact runSlots_noise cfg 0 36 c

/-- Settles O55: the mean lies between the samples, so within 16 bits. -/
theorem framesLieBetweenSamples : Obligations.FramesLieBetweenSamples := by
  intro c old new hlt
  have hold := BitVec.le_toInt old
  have hold' := BitVec.toInt_lt (x := old)
  have hnew := BitVec.le_toInt new
  have hnew' := BitVec.toInt_lt (x := new)
  obtain ⟨hlow, hhigh⟩ := tdiv_mean_bounds (a := old.toInt) (b := new.toInt) (Int.natCast_nonneg c.samplecnt)
    (Int.ofNat_lt.mpr hlt)
  rw [interpolate, tdiv, toInt_s16 (by omega) (by omega)]
  exact ⟨hlow, hhigh⟩

/-- Settles O60: RENDER is a case split on the flag and the ratio. -/
theorem renderStopsOnlyOnZeroRatio : Obligations.RenderStopsOnlyOnZeroRatio := by
  intro s
  cases hv : s.chip.valid with
  | false => simp [exec_render_of_not_valid hv]
  | true =>
    by_cases hr : s.chip.rateratio = 0
    · simp [exec, execRender, renderCall, hv, hr]
    · simp [exec_render_of_valid hv (Nat.pos_of_ne_zero hr), hr]

/-- Settles O56: RENDER returns its error or the frame's block. -/
theorem renderNeverTouchesRegisters : Obligations.RenderNeverTouchesRegisters := by
  intro s t hexec
  cases hv : s.chip.valid with
  | false =>
    rw [exec_render_of_not_valid hv] at hexec
    cases hexec
    exact ⟨Chip.SameRegs.rfl' _, rfl⟩
  | true =>
    have hr : 1 ≤ s.chip.rateratio := by
      refine Nat.pos_of_ne_zero fun hr => ?_
      rw [(renderStopsOnlyOnZeroRatio s).mpr ⟨hv, hr⟩] at hexec
      cases hexec
    rw [exec_render_of_valid hv hr] at hexec
    cases hexec
    exact ⟨sameRegs_renderChip params s.chip, rfl⟩

end Sys2Proof.Machine

/-! R315 and R346: the legal values of the register side of the block. A legal state is taken apart into what register
writes own and what ticks own, so that a register write is asked about its own half alone. -/

namespace Sys2Proof.Machine

open Spec

/-! ### The two halves of a legal state -/

/-- The routing of channel `n` holds legal values (R36, R346). -/
structure RouteLegal (n : ChanIdx) (c : Chip) : Prop where
  alg : algLegal n (c.chan n).alg
  out : outLegal n (c.chan n).out.v0 ∧ outLegal n (c.chan n).out.v1 ∧ outLegal n (c.chan n).out.v2 ∧
    outLegal n (c.chan n).out.v3
  mod1 : modLegal (op1 n) (c.slot (op1 n)).mod
  mod2 : modLegal (op2 n) (c.slot (op2 n)).mod

/-- What register writes alone change holds legal values. -/
structure Chip.RegLegal (c : Chip) : Prop where
  tremoloshift : c.tremoloshift = 2 ∨ c.tremoloshift = 4
  vibshift : c.vibshift ≤ 1
  pairs : pairsAgree c
  chtype : ∀ n : ChanIdx, chtypeLegal c.rhythmOn n (c.chan n).chtype
  route : ∀ n : ChanIdx, RouteLegal n c
  egKsl : ∀ i : SlotIdx, (c.slot i).egKsl ≤ 224
  regSl : ∀ i : SlotIdx, (c.slot i).regSl.toNat ≤ 14 ∨ (c.slot i).regSl = 31

/-- The outputs of a slot and its feedback hold legal values (R271, R347). -/
structure Slot.OutputLegal (s : Slot) : Prop where
  out : outRange s.out
  prout : outRange s.prout
  fbmod : -2043 ≤ s.fbmod.toInt ∧ s.fbmod.toInt ≤ 2042

/-- What ticks alone change holds legal values. -/
structure Chip.TickLegal (c : Chip) : Prop where
  egAdd : c.egAdd ≤ 13
  tremolopos : c.tremolopos ≤ 209
  tremolo : c.tremolo ≤ 26
  noise : c.noise ≠ 0
  mixbuff : busRange c.mixbuff.v0 ∧ busRange c.mixbuff.v1 ∧ busRange c.mixbuff.v2 ∧ busRange c.mixbuff.v3
  output : ∀ i : SlotIdx, (c.slot i).OutputLegal

/-- What the resampler counts with holds legal values (R400). -/
structure Chip.RateLegal (c : Chip) : Prop where
  pos : 1 ≤ c.rateratio
  le : c.rateratio ≤ 65535
  samplecnt : c.samplecnt < c.rateratio + 1024

theorem Chip.Legal.regLegal {c : Chip} (h : c.Legal) : c.RegLegal := by
  obtain ⟨⟨htrem, hvib, -⟩, hpairs, hchans, hslots⟩ := h
  refine ⟨htrem, hvib, hpairs, fun n => ?_, fun n => ?_, fun i => ?_, fun i => ?_⟩
  · obtain ⟨-, htype, -⟩ := hchans n
    exact htype
  · obtain ⟨halg, -, hout⟩ := hchans n
    obtain ⟨-, -, -, -, -, hmod1⟩ := hslots (op1 n)
    obtain ⟨-, -, -, -, -, hmod2⟩ := hslots (op2 n)
    exact ⟨halg, hout, hmod1, hmod2⟩
  · obtain ⟨hksl, -⟩ := hslots i
    exact hksl
  · obtain ⟨-, hsl, -⟩ := hslots i
    exact hsl

theorem Chip.Legal.tickLegal {c : Chip} (h : c.Legal) : c.TickLegal := by
  obtain ⟨⟨-, -, hadd, hpos, htrem, hnoise, hA, hB, hC, hD, -⟩, -, -, hslots⟩ := h
  refine ⟨hadd, hpos, htrem, hnoise, ⟨hA, hB, hC, hD⟩, fun i => ?_⟩
  obtain ⟨-, -, hout, hprout, hfb, -⟩ := hslots i
  exact ⟨hout, hprout, hfb⟩

theorem Chip.Legal.rateLegal {c : Chip} (h : c.Legal) : c.RateLegal := by
  obtain ⟨⟨-, -, -, -, -, -, -, -, -, -, hpos, hle, hcnt⟩, -⟩ := h
  exact ⟨hpos, hle, hcnt⟩

/-- Every slot is an operator of its channel. -/
theorem modLegal_of_routeLegal {c : Chip} (h : ∀ n, RouteLegal n c) (i : SlotIdx) : modLegal i (c.slot i).mod := by
  obtain hi | hi := (channelOf_eq_iff i _).mp rfl
  · have hmod := (h (channelOf i)).mod1
    rwa [← hi] at hmod
  · have hmod := (h (channelOf i)).mod2
    rwa [← hi] at hmod

theorem legal_of_halves {c : Chip} (hreg : c.RegLegal) (htick : c.TickLegal) (hrate : c.RateLegal) : c.Legal := by
  obtain ⟨hA, hB, hC, hD⟩ := htick.mixbuff
  refine ⟨⟨hreg.tremoloshift, hreg.vibshift, htick.egAdd, htick.tremolopos, htick.tremolo, htick.noise, hA, hB, hC, hD,
    hrate.pos, hrate.le, hrate.samplecnt⟩, hreg.pairs, fun n => ?_, fun i => ?_⟩
  · exact ⟨(hreg.route n).alg, hreg.chtype n, (hreg.route n).out⟩
  · have hout := htick.output i
    exact ⟨hreg.egKsl i, hreg.regSl i, hout.out, hout.prout, hout.fbmod, modLegal_of_routeLegal hreg.route i⟩

/-! ### Legal routes -/

theorem RouteLegal.of_sameRouting {n : ChanIdx} {a b : Chip} (h : RouteLegal n a) (hsame : SameRouting n a b) :
    RouteLegal n b := by
  refine ⟨?_, ?_, ?_, ?_⟩
  · rw [hsame.alg]; exact h.alg
  · rw [hsame.out]; exact h.out
  · rw [hsame.mod1]; exact h.mod1
  · rw [hsame.mod2]; exact h.mod2

@[simp] theorem modLegal_zero (i : SlotIdx) : modLegal i .zero = true := rfl

@[simp] theorem modLegal_fb_op1 (n : ChanIdx) : modLegal (op1 n) .fb = true := by simp [modLegal]

@[simp] theorem modLegal_op2_op1 (n : ChanIdx) : modLegal (op2 n) (.out (op1 n)) = true := by
  revert n; decide

@[simp] theorem outLegal_zero (n : ChanIdx) : outLegal n .zero = true := rfl

@[simp] theorem outLegal_op1 (n : ChanIdx) : outLegal n (.out (op1 n)) = true := by simp [outLegal]

@[simp] theorem outLegal_op2 (n : ChanIdx) : outLegal n (.out (op2 n)) = true := by simp [outLegal]

theorem outLegal_of_pair {n m : ChanIdx} (h : pair n = some m) :
    outLegal n (.out (op1 m)) = true ∧ outLegal n (.out (op2 m)) = true := by simp [outLegal, h]

/-- An algorithm that is a connection bit. -/
theorem algLegal_of_con {n : ChanIdx} {a : BitVec 4} {con : Bool} (h : a.toNat = con.toNat) : algLegal n a := by
  cases con
  · exact .inl (BitVec.eq_of_toNat_eq h)
  · exact .inr (.inl (BitVec.eq_of_toNat_eq h))

theorem routeLegal_of_twoRouted {n : ChanIdx} {c : Chip} {con : Bool} (halg : (c.chan n).alg.toNat = con.toNat)
    (h : TwoRouted c n con) : RouteLegal n c := by
  obtain ⟨hmod1, hmod2, hout⟩ := h
  refine ⟨algLegal_of_con halg, ?_, ?_, ?_⟩
  · rw [hout]; cases con <;> simp [outs]
  · rw [hmod1]; simp
  · rw [hmod2]; cases con <;> simp

theorem op2_lt_op1_of_pair {p s : ChanIdx} (hpair : pair p = some s) (hfirst : p.val % 9 < 3) : op2 p < op1 s := by
  revert p s; decide

theorem second_of_pair {p s : ChanIdx} (hpair : pair p = some s) (hfirst : p.val % 9 < 3) :
    3 ≤ s.val % 9 ∧ s.val % 9 < 6 := by
  revert p s; decide

theorem routeLegal_of_fourRouted {p s : ChanIdx} (hpair : pair p = some s) (hfirst : p.val % 9 < 3) {c : Chip}
    {conP conS : Bool} (h : FourRouted c p s conP conS) : RouteLegal p c ∧ RouteLegal s c := by
  obtain ⟨halgP, halgS, hmodP1, hmodP2, hmodS1, hmodS2, houtP, houtS⟩ := h
  obtain ⟨hout1, hout2⟩ := outLegal_of_pair (pair_symm hpair)
  obtain ⟨hlow, hhigh⟩ := second_of_pair hpair hfirst
  refine ⟨⟨.inr (.inr (.inl ⟨hfirst, halgP⟩)), ?_, ?_, ?_⟩, ⟨.inr (.inr (.inr ⟨hlow, hhigh, ?_⟩)), ?_, ?_, ?_⟩⟩
  · rw [houtP]; simp [outs]
  · rw [hmodP1]; simp
  · rw [hmodP2]; cases conP <;> simp
  · rw [halgS]; cases conP <;> cases conS <;> decide
  · rw [houtS]; cases conP <;> cases conS <;> simp [outs, hout1, hout2]
  · rw [hmodS1]; split <;> simp [modLegal, op2_lt_op1_of_pair hpair hfirst]
  · rw [hmodS2]; split <;> simp

/-! ### Writes that leave the routing -/

/-- A register write that leaves types and routing is asked about the key-scale and sustain levels alone. -/
theorem Chip.RegLegal.of_sameRouting {a b : Chip} (h : a.RegLegal) (hglobals : a.SameGlobals b)
    (htype : ∀ n : ChanIdx, (b.chan n).chtype = (a.chan n).chtype) (hroute : ∀ n : ChanIdx, SameRouting n a b)
    (hksl : ∀ i : SlotIdx, (b.slot i).egKsl ≤ 224)
    (hsl : ∀ i : SlotIdx, (b.slot i).regSl.toNat ≤ 14 ∨ (b.slot i).regSl = 31) : b.RegLegal := by
  have hrhythm : b.rhythmOn = a.rhythmOn := by rw [← hglobals]; rfl
  refine ⟨?_, ?_, fun n m hpair => ?_, fun n => ?_, fun n => (h.route n).of_sameRouting (hroute n), hksl, hsl⟩
  · rw [← hglobals]; exact h.tremoloshift
  · rw [← hglobals]; exact h.vibshift
  · rw [htype, htype]; exact h.pairs n m hpair
  · rw [htype, hrhythm]; exact h.chtype n

/-- The replacement of one slot record by one with the same source. -/
theorem regLegal_of_setSlot {f : Chip → Chip} {i : SlotIdx} {g : Chip → Slot}
    (hf : ∀ c : Chip, f c = c.setSlot i (g c)) (hmod : ∀ c : Chip, (g c).mod = (c.slot i).mod)
    (hksl : ∀ c : Chip, (c.slot i).egKsl ≤ 224 → (g c).egKsl ≤ 224)
    (hsl : ∀ c : Chip, ((c.slot i).regSl.toNat ≤ 14 ∨ (c.slot i).regSl = 31) →
      ((g c).regSl.toNat ≤ 14 ∨ (g c).regSl = 31)) (c : Chip) (h : c.RegLegal) : (f c).RegLegal := by
  have hslot (j : SlotIdx) : (f c).slot j = if j = i then g c else c.slot j := by rw [hf, Chip.slot_setSlot]
  have hmods (j : SlotIdx) : ((f c).slot j).mod = (c.slot j).mod := by
    rw [hslot]
    split
    next hj => rw [hj, hmod]
    next => rfl
  have hchan (n : ChanIdx) : (f c).chan n = c.chan n := by rw [hf, Chip.chan_setSlot]
  refine h.of_sameRouting (by rw [hf]; rfl) (fun n => by rw [hchan])
    (fun n => ⟨by rw [hchan], by rw [hchan], hmods _, hmods _⟩) (fun j => ?_) fun j => ?_
  · rw [hslot]
    split
    · exact hksl c (h.egKsl i)
    · exact h.egKsl j
  · rw [hslot]
    split
    · exact hsl c (h.regSl i)
    · exact h.regSl j

/-- R301: at the highest block and F-number the level is 4 · 64 − 32. -/
theorem ksl_le (f : BitVec 10) (block : BitVec 3) : ksl f block ≤ 224 := by
  have hrom : ∀ k < 16, [0, 32, 40, 45, 48, 51, 53, 55, 56, 58, 59, 60, 61, 62, 63, 64].getD k 0 ≤ 64 := by decide
  have hentry := hrom (f.toNat / 64) (by omega)
  unfold ksl
  omega

theorem storedSl_legal (d : Byte) :
    let sl : BitVec 5 := if d.toNat / 16 = 15 then 31 else BitVec.ofNat 5 (d.toNat / 16)
    sl.toNat ≤ 14 ∨ sl = 31 := by
  revert d
  decide +kernel

/-- R209 and R210 write no more of a channel than frequency, block and key-scale value, and of a slot than key-scale
level and key. -/
theorem Chip.RegLegal.of_freq {a b : Chip} (h : a.RegLegal) (hglobals : a.SameGlobals b)
    (hchan : ∀ m : ChanIdx, ∃ f bl k, b.chan m = { a.chan m with fNum := f, block := bl, ksv := k })
    (hslot : ∀ j : SlotIdx, ∃ l k, l ≤ 224 ∧ b.slot j = { a.slot j with egKsl := l, key := k }) : b.RegLegal := by
  have hmods (j : SlotIdx) : (b.slot j).mod = (a.slot j).mod := by
    obtain ⟨l, k, -, hj⟩ := hslot j
    rw [hj]
  refine h.of_sameRouting hglobals (fun m => ?_) (fun m => ?_) (fun j => ?_) fun j => ?_
  · obtain ⟨f, bl, k, hm⟩ := hchan m
    rw [hm]
  · obtain ⟨f, bl, k, hm⟩ := hchan m
    exact ⟨by rw [hm], by rw [hm], hmods _, hmods _⟩
  · obtain ⟨l, k, hl, hj⟩ := hslot j
    rw [hj]
    exact hl
  · obtain ⟨l, k, -, hj⟩ := hslot j
    rw [hj]
    exact h.regSl j

theorem regLegal_writeChA0 (n : ChanIdx) (d : Byte) (c : Chip) (h : c.RegLegal) : (writeChA0 n d c).RegLegal := by
  cases hsecond : isSecond n c with
  | true =>
    rw [writeChA0, if_pos hsecond]
    exact h
  | false =>
    refine h.of_freq (sameGlobals_writeChA0 n d c) (fun m => ?_) fun j => ?_
    · rw [writeChA0_eq hsecond, chan_freqChanged_storeFreq]
      split
      next hm => subst hm; exact ⟨_, _, _, rfl⟩
      next => split <;> exact ⟨_, _, _, rfl⟩
    · rw [writeChA0_eq hsecond, slot_freqChanged_storeFreq]
      split
      next => exact ⟨_, (c.slot j).key, ksl_le _ _, rfl⟩
      next =>
        split
        · exact ⟨_, (c.slot j).key, ksl_le _ _, rfl⟩
        · exact ⟨_, (c.slot j).key, h.egKsl j, rfl⟩

theorem regLegal_writeChB0 (n : ChanIdx) (d : Byte) (c : Chip) (h : c.RegLegal) : (writeChB0 n d c).RegLegal := by
  cases hsecond : isSecond n c with
  | true =>
    rw [writeChB0_of_isSecond hsecond]
    exact h
  | false =>
    refine h.of_freq (sameGlobals_writeChB0 n d c) (fun m => ?_) fun j => ?_
    · rw [chan_writeChB0 hsecond]
      split <;> exact ⟨_, _, _, rfl⟩
    · rw [slot_writeChB0 hsecond]
      split
      · exact ⟨_, _, ksl_le _ _, rfl⟩
      · exact ⟨_, (c.slot j).key, h.egKsl j, rfl⟩

/-! ### Writes that re-route -/

/-- A register write that re-routes is asked about types and routes alone. -/
theorem Chip.RegLegal.of_reroute {a b : Chip} (h : a.RegLegal) (hglobals : a.SameGlobals b)
    (hslots : ∀ i : SlotIdx, SlotRoutingOnly a b i) (hpairs : pairsAgree b)
    (htype : ∀ n : ChanIdx, chtypeLegal a.rhythmOn n (b.chan n).chtype) (hroute : ∀ n : ChanIdx, RouteLegal n b) :
    b.RegLegal := by
  have hrhythm : b.rhythmOn = a.rhythmOn := by rw [← hglobals]; rfl
  refine ⟨?_, ?_, hpairs, fun n => ?_, hroute, fun i => ?_, fun i => ?_⟩
  · rw [← hglobals]; exact h.tremoloshift
  · rw [← hglobals]; exact h.vibshift
  · rw [hrhythm]; exact htype n
  · rw [← hslots i]; exact h.egKsl i
  · rw [← hslots i]; exact h.regSl i

/-- Every channel with a pair is in R202's list. -/
theorem mem_pairs_of_pair {n m : ChanIdx} (h : pair n = some m) :
    (n.val % 9 < 3 ∧ ∃ k, (k, n, m) ∈ pairs) ∨ (3 ≤ n.val % 9 ∧ n.val % 9 < 6 ∧ ∃ k, (k, m, n) ∈ pairs) := by
  have hlist : ∀ n m : ChanIdx, pair n = some m → (n.val % 9 < 3 ∧ ∃ k < 6, (k, n, m) ∈ pairs) ∨
      (3 ≤ n.val % 9 ∧ n.val % 9 < 6 ∧ ∃ k < 6, (k, m, n) ∈ pairs) := by decide
  obtain ⟨hn, k, -, hk⟩ | ⟨hlow, hhigh, k, -, hk⟩ := hlist n m h
  · exact .inl ⟨hn, k, hk⟩
  · exact .inr ⟨hlow, hhigh, k, hk⟩

/-- No channel of a pair is a drum channel. -/
theorem not_drum_range_of_pair {n m : ChanIdx} (h : pair n = some m) : ¬ (6 ≤ n.val ∧ n.val ≤ 8) := by
  revert n m; decide

theorem chtype_ne_drum_of_pair {c : Chip} (h : c.RegLegal) {n m : ChanIdx} (hpair : pair n = some m) :
    (c.chan n).chtype ≠ .drum := by
  obtain ⟨-, -, hdrum⟩ := h.chtype n
  intro htype
  obtain ⟨hlow, hhigh, -⟩ := hdrum.mp htype
  exact not_drum_range_of_pair hpair ⟨hlow, hhigh⟩

theorem mem_pairs {k : Nat} {p q : ChanIdx} (h : (k, p, q) ∈ pairs) : pair p = some q ∧ p.val % 9 < 3 := by
  have hall : ∀ x ∈ pairs, pair x.2.1 = some x.2.2 ∧ x.2.1.val % 9 < 3 := by decide
  exact hall _ h

/-- A written pair is routed legally, from a pair that was. -/
theorem routeLegal_of_pairWritten {newm on : Bool} {p q : ChanIdx} {a b : Chip} (hpair : pair p = some q)
    (hfirst : p.val % 9 < 3) (hq : RouteLegal q a) (h : PairWritten newm on p q a b) :
    RouteLegal p b ∧ RouteLegal q b := by
  obtain ⟨-, -, hfour, hfirstTwo, hsecondTwo, hstay⟩ := h
  cases on with
  | false =>
    obtain ⟨halgP, htwoP⟩ := hfirstTwo (.inl rfl)
    obtain ⟨halgQ, htwoQ⟩ := hsecondTwo rfl
    exact ⟨routeLegal_of_twoRouted halgP htwoP, routeLegal_of_twoRouted halgQ htwoQ⟩
  | true =>
    cases newm with
    | true => exact routeLegal_of_fourRouted hpair hfirst (hfour rfl rfl)
    | false =>
      obtain ⟨halgP, htwoP⟩ := hfirstTwo (.inr rfl)
      obtain ⟨halg, hout, hslot⟩ := hstay rfl rfl
      exact ⟨routeLegal_of_twoRouted halgP htwoP, hq.of_sameRouting ⟨halg, hout,
        by rw [hslot _ (channelOf_op1 q)], by rw [hslot _ (channelOf_op2 q)]⟩⟩

theorem regLegal_write4op (d : Byte) (c : Chip) (h : c.RegLegal) : (write4op d c).RegLegal := by
  have hrouting := routingOnly_write4op d c
  have hwritten {k : Nat} {p q : ChanIdx} (hk : (k, p, q) ∈ pairs) :
      PairWritten c.newm (bit d k) p q c (write4op d c) := pairWritten_connectPairs d disjointPairs_pairs c _ hk
  have hstay {n : ChanIdx} (hn : pair n = none) : SameChannel n c (write4op d c) :=
    sameChannel_connectPairs d disjointPairs_pairs (outside_pairs hn) c
  refine h.of_reroute hrouting.globals hrouting.slots (fun n m hpair => ?_) (fun n => ?_) fun n => ?_
  · obtain ⟨-, k, hk⟩ | ⟨-, -, k, hk⟩ := mem_pairs_of_pair hpair
    all_goals
      obtain ⟨htypeP, htypeQ, -⟩ := hwritten hk
      rw [htypeP, htypeQ]
      cases bit d k <;> decide
  · cases hpair : pair n with
    | none =>
      rw [(hstay hpair).chan]
      exact h.chtype n
    | some m =>
      have hrange := not_drum_range_of_pair hpair
      obtain ⟨hn, k, hk⟩ | ⟨hlow, hhigh, k, hk⟩ := mem_pairs_of_pair hpair
      all_goals
        obtain ⟨htypeP, htypeQ, -⟩ := hwritten hk
      · rw [htypeP, chtypeLegal]
        cases bit d k <;> simp <;> omega
      · rw [htypeQ, chtypeLegal]
        cases bit d k <;> simp <;> omega
  · cases hpair : pair n with
    | none => exact (h.route n).of_sameRouting (hstay hpair).sameRouting
    | some m =>
      obtain ⟨-, k, hk⟩ | ⟨-, -, k, hk⟩ := mem_pairs_of_pair hpair
      · obtain ⟨hpq, hfirst⟩ := mem_pairs hk
        exact (routeLegal_of_pairWritten hpq hfirst (h.route m) (hwritten hk)).1
      · obtain ⟨hpq, hfirst⟩ := mem_pairs hk
        exact (routeLegal_of_pairWritten hpq hfirst (h.route n) (hwritten hk)).2

theorem drumChan_cases {n : ChanIdx} (h : 6 ≤ n.val ∧ n.val ≤ 8) : n = 6 ∨ n = 7 ∨ n = 8 := by
  revert n; decide

/-- R342: a drum channel re-routed alone. -/
theorem routeLegal_updateAlg_of_drum {n : ChanIdx} {c : Chip} (hdrum : (c.chan n).chtype = .drum)
    (hrange : 6 ≤ n.val ∧ n.val ≤ 8) (hroute : RouteLegal n c) : RouteLegal n (updateAlg n c) := by
  have halg := algLegal_of_con (n := n) (alg_updateAlg (not_partner_of_drum hdrum))
  have hout := hroute.out
  rw [← out_updateAlg_of_drum hdrum] at hout
  obtain rfl | h78 := drumChan_cases hrange
  · obtain ⟨hmod1, hmod2⟩ := slot_updateAlg_six hdrum
    refine ⟨halg, hout, ?_, ?_⟩
    · show modLegal 12 ((updateAlg 6 c).slot 12).mod
      rw [hmod1]; rfl
    · show modLegal 15 ((updateAlg 6 c).slot 15).mod
      rw [hmod2]; cases (c.chan 6).con <;> rfl
  · obtain ⟨hmod1, hmod2⟩ := slot_updateAlg_seven_or_eight h78 hdrum
    refine ⟨halg, hout, ?_, ?_⟩
    · rw [hmod1]; rfl
    · rw [hmod2]; rfl

/-- The re-routing of a channel of a legal block routes it, and its partner, legally. -/
theorem routeLegal_updateAlg {c : Chip} (h : c.RegLegal) (n m : ChanIdx) : RouteLegal m (updateAlg n c) := by
  by_cases hpartner : ∃ k, Partner c n k
  · obtain ⟨k, hpart⟩ := hpartner
    have hboth : RouteLegal n (updateAlg n c) ∧ RouteLegal k (updateAlg n c) := by
      obtain ⟨hnew, htype | htype, hpair⟩ := hpart
      · obtain ⟨hfirst, -⟩ := h.chtype n
        exact routeLegal_of_fourRouted hpair (hfirst htype)
          (fourRouted_updateAlg_first hnew htype hpair (chtype_ne_drum_of_pair h (pair_symm hpair)))
      · obtain ⟨hfirst, -⟩ := h.chtype k
        have htypeK := (h.pairs k n (pair_symm hpair)).mpr htype
        exact (routeLegal_of_fourRouted (pair_symm hpair) (hfirst htypeK)
          (fourRouted_updateAlg_second hnew htype hpair)).symm
    by_cases hmn : m = n
    · subst hmn; exact hboth.1
    · by_cases hmk : m = k
      · subst hmk; exact hboth.2
      · refine (h.route m).of_sameRouting (sameChannel_updateAlg hmn fun hm => hmk ?_).sameRouting
        obtain ⟨-, -, hpairK⟩ := hpart
        obtain ⟨-, -, hpairM⟩ := hm
        exact Option.some.inj (hpairM.symm.trans hpairK)
  · have halone := not_exists.mp hpartner
    by_cases hmn : m = n
    · subst hmn
      by_cases hdrum : (c.chan m).chtype = .drum
      · obtain ⟨-, -, hrange⟩ := h.chtype m
        obtain ⟨hlow, hhigh, -⟩ := hrange.mp hdrum
        exact routeLegal_updateAlg_of_drum hdrum ⟨hlow, hhigh⟩ (h.route m)
      · exact routeLegal_of_twoRouted (alg_updateAlg halone) (twoRouted_updateAlg halone hdrum)
    · exact (h.route m).of_sameRouting (sameChannel_updateAlg hmn (halone m)).sameRouting

/-- R211's first part leaves types and routing. -/
theorem regLegal_storeFbCon (n : ChanIdx) (d : Byte) (c : Chip) (h : c.RegLegal) : (storeFbCon n d c).RegLegal := by
  have hchan (m : ChanIdx) : ∃ f k, (storeFbCon n d c).chan m = { c.chan m with fb := f, con := k } := by
    by_cases hm : m = n
    · subst hm; exact ⟨_, _, chan_storeFbCon_self m d c⟩
    · exact ⟨_, _, chan_storeFbCon_ne hm d c⟩
  refine h.of_sameRouting rfl (fun m => chtype_storeFbCon ..) (fun m => ?_) h.egKsl h.regSl
  obtain ⟨f, k, hm⟩ := hchan m
  exact ⟨by rw [hm], by rw [hm], rfl, rfl⟩

theorem regLegal_writeChC0 (n : ChanIdx) (d : Byte) (c : Chip) (h : c.RegLegal) : (writeChC0 n d c).RegLegal := by
  have hstored := regLegal_storeFbCon n d c h
  have hrouting := routingOnly_updateAlg n (storeFbCon n d c)
  refine h.of_reroute (sameGlobals_writeChC0 n d c) (fun i => ?_) (fun m k hpair => ?_) (fun m => ?_) fun m => ?_
  · rw [SlotRoutingOnly, slot_writeChC0]
    exact hrouting.slots i
  · rw [chtype_writeChC0, chtype_writeChC0]
    exact h.pairs m k hpair
  · rw [chtype_writeChC0]
    exact h.chtype m
  · exact (routeLegal_updateAlg hstored n m).of_sameRouting (sameRouting_writeChC0 n d c m)

/-! ### WR_RHY -/

theorem rhythmOn_of_storeRhythm {d : Byte} {c b : Chip} (h : (storeRhythm d c).SameGlobals b) :
    b.rhythmOn = d.getLsbD 5 := by
  have hbit : ∀ d : Byte, (BitVec.ofNat 6 (d.toNat % 64)).getLsbD 5 = d.getLsbD 5 := by decide +kernel
  rw [← h]
  exact hbit d

/-- WR_RHY is asked about the channels 6 to 8 alone: their types and routes. -/
theorem Chip.RegLegal.of_rhythm {d : Byte} {a b : Chip} (h : a.RegLegal) (hglobals : (storeRhythm d a).SameGlobals b)
    (hchan : ∀ n : ChanIdx, ¬ (6 ≤ n.val ∧ n.val ≤ 8) → SameChannel n a b)
    (htype : ∀ n : ChanIdx, 6 ≤ n.val ∧ n.val ≤ 8 → (b.chan n).chtype = if d.getLsbD 5 then .drum else .twoOp)
    (hroute : ∀ n : ChanIdx, 6 ≤ n.val ∧ n.val ≤ 8 → RouteLegal n b)
    (hslots : ∀ i : SlotIdx, (b.slot i).egKsl = (a.slot i).egKsl ∧ (b.slot i).regSl = (a.slot i).regSl) :
    b.RegLegal := by
  refine ⟨?_, ?_, fun n m hpair => ?_, fun n => ?_, fun n => ?_, fun i => ?_, fun i => ?_⟩
  · rw [← hglobals]
    show (if d.getLsbD 7 then 2 else 4) = 2 ∨ (if d.getLsbD 7 then 2 else 4) = 4
    split <;> decide
  · rw [← hglobals]
    show (if d.getLsbD 6 then 0 else 1) ≤ 1
    split <;> decide
  · rw [(hchan n (not_drum_range_of_pair hpair)).chan, (hchan m (not_drum_range_of_pair (pair_symm hpair))).chan]
    exact h.pairs n m hpair
  · rw [rhythmOn_of_storeRhythm hglobals]
    by_cases hn : 6 ≤ n.val ∧ n.val ≤ 8
    · rw [htype n hn, chtypeLegal]
      cases d.getLsbD 5 with
      | false => simp
      | true => simp; omega
    · obtain ⟨hfour, hfour2, hdrum⟩ := h.chtype n
      rw [(hchan n hn).chan]
      refine ⟨hfour, hfour2, fun htypeN => ?_, fun ⟨hlow, hhigh, _⟩ => absurd ⟨hlow, hhigh⟩ hn⟩
      obtain ⟨hlow, hhigh, -⟩ := hdrum.mp htypeN
      exact absurd ⟨hlow, hhigh⟩ hn
  · by_cases hn : 6 ≤ n.val ∧ n.val ≤ 8
    · exact hroute n hn
    · exact (h.route n).of_sameRouting (hchan n hn).sameRouting
  · rw [(hslots i).1]
    exact h.egKsl i
  · rw [(hslots i).2]
    exact h.regSl i

theorem drumBit_eq_none {i : SlotIdx} (h : ¬ (6 ≤ (channelOf i).val ∧ (channelOf i).val ≤ 8)) : drumBit i = none := by
  revert i; decide

theorem regLegal_rhythmEnter {d : Byte} (hon : d.getLsbD 5 = true) (c : Chip) (h : c.RegLegal) :
    (rhythmEnter d (storeRhythm d c)).RegLegal := by
  have hchan := chan_rhythmEnter d (storeRhythm d c)
  have hslot := slot_rhythmEnter d (storeRhythm d c)
  simp only [chan_storeRhythm, slot_storeRhythm] at hchan hslot
  refine h.of_rhythm (sameGlobals_rhythmEnter d _) (fun n hn => ⟨?_, fun i hi => ?_⟩) (fun n hn => ?_) (fun n hn => ?_)
    fun i => ?_
  · rw [hchan, if_neg (by rintro rfl; exact hn (by decide)), if_neg (by rintro rfl; exact hn (by decide)),
      if_neg (by rintro rfl; exact hn (by decide))]
  · rw [hslot, drumBit_eq_none (by rwa [hi])]
  · obtain rfl | rfl | rfl := drumChan_cases hn <;> simp [hchan, hon]
  · have hmod : ∀ i : SlotIdx, ∀ con : Bool, 6 ≤ (channelOf i).val ∧ (channelOf i).val ≤ 8 →
        (drumBit i).isSome ∧ modLegal i (drumMod i con) := by decide
    have hmods (i : SlotIdx) (hi : channelOf i = n) : modLegal i ((rhythmEnter d (storeRhythm d c)).slot i).mod := by
      obtain ⟨hsome, hlegal⟩ := hmod i ((c.chan 6).alg.getLsbD 0) (by rwa [hi])
      obtain ⟨b, hb⟩ := Option.isSome_iff_exists.mp hsome
      rw [hslot, hb]
      exact hlegal
    refine ⟨?_, ?_, hmods _ (channelOf_op1 n), hmods _ (channelOf_op2 n)⟩
    · obtain rfl | rfl | rfl := drumChan_cases hn <;> simp only [hchan] <;> exact (h.route _).alg
    · obtain rfl | rfl | rfl := drumChan_cases hn <;> simp only [hchan, Fin.reduceEq, if_true, if_false] <;> decide
  · rw [hslot]
    cases drumBit i <;> exact ⟨rfl, rfl⟩

theorem regLegal_rhythmLeft {d : Byte} (hoff : d.getLsbD 5 = false) {b c : Chip} (h : c.RegLegal)
    (hleft : LeftRhythm [6, 7, 8] (storeRhythm d c) b) : b.RegLegal := by
  have hchan := hleft.chan
  have hslot := hleft.slot
  simp only [chan_storeRhythm, slot_storeRhythm, mem_drumChans_iff] at hchan hslot
  refine h.of_rhythm hleft.globals (fun n hn => ⟨?_, fun i hi => ?_⟩) (fun n hn => ?_) (fun n hn => ?_) fun i => ?_
  · rw [hchan, if_neg hn]
  · rw [hslot, if_neg (by rwa [hi])]
  · rw [hchan, if_pos hn, hoff]
    rfl
  · have hfree := blocksRouting_eq_false_of_algLegal (h.route n).alg (by omega)
    have halg : (c.chan n).alg.toNat = ((c.chan n).alg.getLsbD 0).toNat := by
      obtain halg | halg | ⟨hlt, -⟩ | ⟨-, hlt, -⟩ := (h.route n).alg
      · rw [halg]; rfl
      · rw [halg]; rfl
      · omega
      · omega
    refine routeLegal_of_twoRouted (con := (c.chan n).alg.getLsbD 0) ?_ ⟨?_, ?_, ?_⟩
    · rw [hchan, if_pos hn]
      exact halg
    · rw [hslot, channelOf_op1, if_pos hn]
      simp [leaveSlot, hfree, twoOpMod]
    · rw [hslot, channelOf_op2, if_pos hn]
      simp [leaveSlot, hfree, twoOpMod]
    · rw [hchan, if_pos hn]
      simp [leaveChan, hfree, twoOpOut]
  · rw [hslot]
    split <;> exact ⟨rfl, rfl⟩

theorem regLegal_writeRhy (d : Byte) (c : Chip) (h : c.RegLegal) : (writeRhy d c).RegLegal := by
  cases hbit : d.getLsbD 5 with
  | true =>
    rw [writeRhy_eq, if_pos hbit]
    exact regLegal_rhythmEnter hbit c h
  | false => exact regLegal_rhythmLeft hbit h (leftRhythm_writeRhy hbit c)

/-! ### Every family -/

theorem everyFamily_regLegal : EveryFamily fun f => ∀ c : Chip, c.RegLegal → (f c).RegLegal where
  ignored _ h := h
  nts _ _ h := ⟨h.tremoloshift, h.vibshift, h.pairs, h.chtype,
    fun n => (h.route n).of_sameRouting ⟨rfl, rfl, rfl, rfl⟩, h.egKsl, h.regSl⟩
  fourOp := regLegal_write4op
  newm _ _ h := ⟨h.tremoloshift, h.vibshift, h.pairs, h.chtype,
    fun n => (h.route n).of_sameRouting ⟨rfl, rfl, rfl, rfl⟩, h.egKsl, h.regSl⟩
  op20 i d := regLegal_of_setSlot (writeOp20_eq_setSlot i d) (fun _ => rfl) (fun _ => id) fun _ => id
  op40 i d := regLegal_of_setSlot (writeOp40_eq_setSlot i d) (fun _ => rfl) (fun _ _ => ksl_le _ _) fun _ => id
  op60 i d := regLegal_of_setSlot (writeOp60_eq_setSlot i d) (fun _ => rfl) (fun _ => id) fun _ => id
  op80 i d := regLegal_of_setSlot (writeOp80_eq_setSlot i d) (fun _ => rfl) (fun _ => id) fun _ _ => storedSl_legal d
  opE0 i d := regLegal_of_setSlot (writeOpE0_eq_setSlot i d) (fun _ => rfl) (fun _ => id) fun _ => id
  chA0 := regLegal_writeChA0
  chB0 := regLegal_writeChB0
  chC0 := regLegal_writeChC0
  rhy := regLegal_writeRhy

end Sys2Proof.Machine

/-! R271, R315, R347, R351, R390 to R393 and R400: the legal values of the tick side of the block, and the invariant as
a whole. A register write keeps the tick side as it is and a tick the register side, so each is asked about its own. -/

namespace Sys2Proof.Machine

open Spec

/-! ### Frames -/

theorem Chip.RegLegal.of_sameRegs {a b : Chip} (h : a.RegLegal) (hsame : a.SameRegs b) : b.RegLegal := by
  obtain ⟨-, -, -, hrhy, htrem, hvib, -, hchan, hslot⟩ := hsame
  have hrhythm : b.rhythmOn = a.rhythmOn := by rw [Chip.rhythmOn, hrhy, Chip.rhythmOn]
  have hmod (i : SlotIdx) : (b.slot i).mod = (a.slot i).mod := by
    obtain ⟨-, -, -, -, -, -, -, -, -, -, -, -, -, -, hmod⟩ := hslot i
    exact hmod
  refine ⟨?_, ?_, fun n m hpair => ?_, fun n => ?_, fun n => ?_, fun i => ?_, fun i => ?_⟩
  · rw [htrem]; exact h.tremoloshift
  · rw [hvib]; exact h.vibshift
  · rw [hchan, hchan]; exact h.pairs n m hpair
  · rw [hchan, hrhythm]; exact h.chtype n
  · exact (h.route n).of_sameRouting ⟨by rw [hchan], by rw [hchan], hmod _, hmod _⟩
  · obtain ⟨hksl, -⟩ := hslot i
    rw [hksl]; exact h.egKsl i
  · obtain ⟨-, -, -, -, -, -, -, -, -, -, -, hsl, -⟩ := hslot i
    rw [hsl]; exact h.regSl i

theorem Chip.TickLegal.of_sameTick {a b : Chip} (h : a.TickLegal) (hsame : a.SameTick b) : b.TickLegal := by
  obtain ⟨-, -, -, -, hadd, -, hpos, htrem, -, hnoise, -, -, -, -, -, -, hmix, -, -, -, hslot⟩ := hsame
  refine ⟨?_, ?_, ?_, ?_, ?_, fun i => ?_⟩
  · rw [hadd]; exact h.egAdd
  · rw [hpos]; exact h.tremolopos
  · rw [htrem]; exact h.tremolo
  · rw [hnoise]; exact h.noise
  · rw [hmix]; exact h.mixbuff
  · obtain ⟨-, -, -, -, -, -, hout, hprout, hfb⟩ := hslot i
    have hi := h.output i
    exact ⟨by rw [hout]; exact hi.out, by rw [hprout]; exact hi.prout, by rw [hfb]; exact hi.fbmod⟩

theorem legal_of_leavesTickState {f : Chip → Chip} (hleaves : LeavesTickState f)
    (hreg : ∀ c : Chip, c.RegLegal → (f c).RegLegal) {c : Chip} (h : c.Legal) : (f c).Legal := by
  have htick := hleaves.tick c
  have hrate := h.rateLegal
  refine legal_of_halves (hreg c h.regLegal) (h.tickLegal.of_sameTick htick) ?_
  obtain ⟨-, -, -, -, -, -, -, -, -, -, -, -, -, -, -, -, -, hcnt, -⟩ := htick
  have hratio := hleaves.rateratio c
  exact ⟨hratio ▸ hrate.pos, hratio ▸ hrate.le, by rw [hcnt, hratio]; exact hrate.samplecnt⟩

/-! ### The slot step -/

/-- R347: two outputs of at most 4085, over at least 4. -/
theorem feedbackVal_bounds {prout out : S16} (hprout : outRange prout) (hout : outRange out) (fb : BitVec 3) :
    -2043 ≤ feedbackVal fb prout out ∧ feedbackVal fb prout out ≤ 2042 := by
  have hdiv {x : Int} {k : Nat} (hlow : -8170 ≤ x) (hhigh : x ≤ 8168) (h2 : 2 ≤ k) (h8 : k ≤ 8) :
      -2043 ≤ x / 2 ^ k ∧ x / 2 ^ k ≤ 2042 := by
    interval_cases k <;> omega
  obtain ⟨hplow, hphigh⟩ := hprout
  obtain ⟨holow, hohigh⟩ := hout
  rw [feedbackVal_eq_div]
  split
  next => decide
  next hfb =>
    have hpos : fb.toNat ≠ 0 := fun h => hfb (BitVec.eq_of_toNat_eq h)
    exact hdiv (by omega) (by omega) (by omega) (by omega)

theorem outRange_wave (wf : BitVec 3) (p : BitVec 10) (env : BitVec 9) : outRange (s16 (wave params wf p env)) := by
  obtain ⟨hlow, hhigh⟩ := wave_params_bounds wf p env
  have hcast : (s16 (wave params wf p env)).toInt = wave params wf p env := toInt_s16 (by omega) (by omega)
  exact ⟨by rw [hcast]; exact hlow, by rw [hcast]; exact hhigh⟩

theorem outputLegal_slotStep {c : Chip} {i : SlotIdx} (h : (c.slot i).OutputLegal) :
    ((slotStep params i c).slot i).OutputLegal := by
  refine ⟨?_, ?_, ?_⟩
  · rw [slotStep_out]
    exact outRange_wave ..
  · rw [prout_slotStep]
    exact h.out
  · obtain ⟨hlow, hhigh⟩ := feedbackVal_bounds h.prout h.out (c.chan (channelOf i)).fb
    rw [fbmod_slotStep, toInt_s16 (by omega) (by omega)]
    exact ⟨hlow, hhigh⟩

theorem tickLegal_slotStep (i : SlotIdx) (c : Chip) (h : c.TickLegal) : (slotStep params i c).TickLegal := by
  refine ⟨?_, ?_, ?_, ?_, ?_, fun j => ?_⟩
  · rw [slotStep_egAdd]; exact h.egAdd
  · rw [slotStep_tremolopos]; exact h.tremolopos
  · rw [slotStep_tremolo]; exact h.tremolo
  · rw [slotStep_noise]; exact noiseNext_ne_zero h.noise
  · rw [slotStep_mixbuff]; exact h.mixbuff
  · by_cases hj : j = i
    · subst hj; exact outputLegal_slotStep (h.output j)
    · rw [slotStep_slot_ne params i j c hj]; exact h.output j

/-! ### The tick -/

theorem tickLegal_setMixbuff {c : Chip} (h : c.TickLegal) {m : Quad Int}
    (hm : busRange m.v0 ∧ busRange m.v1 ∧ busRange m.v2 ∧ busRange m.v3) : ({ c with mixbuff := m } : Chip).TickLegal :=
  ⟨h.egAdd, h.tremolopos, h.tremolo, h.noise, hm, h.output⟩

theorem tickLegal_runSlots (lo n : Nat) (c : Chip) (h : c.TickLegal) : (runSlots params lo n c).TickLegal :=
  runSlots_invariant Chip.TickLegal params tickLegal_slotStep lo n c h

/-- R390: at a depth of at least 2 the tremolo is at most 105 / 4. -/
theorem tremoloAt_le {shift : Nat} (h : shift = 2 ∨ shift = 4) (pos : Nat) : tremoloAt pos shift ≤ 26 := by
  rw [tremoloAt_eq]
  obtain rfl | rfl := h <;> split <;> omega

theorem tickLegal_tickEnd {c : Chip} (hshift : c.tremoloshift = 2 ∨ c.tremoloshift = 4) (h : c.TickLegal) :
    (tickEnd c).TickLegal := by
  refine ⟨?_, ?_, ?_, ?_, ?_, fun i => ?_⟩
  · have hadd := h.egAdd
    rw [tickEnd_eq_with]
    dsimp only
    split_ifs <;> omega
  · have hpos := h.tremolopos
    rw [tickEnd_eq_with, tremoloposNext_eq]
    dsimp only
    split <;> omega
  · rw [tickEnd_eq_with]
    exact tremoloAt_le hshift _
  · rw [tickEnd_noise]; exact h.noise
  · rw [tickEnd_mixbuff]; exact h.mixbuff
  · rw [tickEnd_slot]; exact h.output i

theorem tickLegal_tick {c : Chip} (hshift : c.tremoloshift = 2 ∨ c.tremoloshift = 4) (h : c.TickLegal) :
    (tick params c).1.TickLegal := by
  have hmix (k : Bus) : busRange (mix k (runSlots params 0 (mixPoint params k) c)) :=
    busRange_mix (fun i => ((tickLegal_runSlots 0 _ c h).output i).out) k
  have hrun := tickLegal_setMixbuff (m := mixed params c) (tickLegal_runSlots 0 36 c h)
    ⟨hmix .a, hmix .b, hmix .c, hmix .d⟩
  have hkeep : (runSlots params 0 36 c).tremoloshift = c.tremoloshift := (sameClock_runSlots params 0 36 c).tremoloshift
  rw [tick_eq]
  refine tickLegal_tickEnd ?_ hrun
  show (runSlots params 0 36 c).tremoloshift = 2 ∨ (runSlots params 0 36 c).tremoloshift = 4
  rwa [hkeep]

/-- A turn of the resampler shifts the samples and counts down, which no legal value of a tick speaks of. -/
theorem tickLegal_resampleTick {c : Chip} (hshift : c.tremoloshift = 2 ∨ c.tremoloshift = 4) (h : c.TickLegal) :
    (resampleTick params c).TickLegal := by
  have htick := tickLegal_tick hshift h
  exact ⟨htick.egAdd, htick.tremolopos, htick.tremolo, htick.noise, htick.mixbuff, htick.output⟩

theorem tickLegal_catchUp {c : Chip} (hshift : c.tremoloshift = 2 ∨ c.tremoloshift = 4) (h : c.TickLegal) :
    (catchUp params c).TickLegal := by
  refine (resampleLoop_invariant (fun x => (x.tremoloshift = 2 ∨ x.tremoloshift = 4) ∧ x.TickLegal) params
    (fun x ⟨hx, hlegal⟩ => ⟨?_, tickLegal_resampleTick hx hlegal⟩) _ c ⟨hshift, h⟩).2
  obtain ⟨-, -, -, -, hkeep, -⟩ := resampleTick_sameRegs params x
  rwa [hkeep]

theorem samplecnt_renderChip (cfg : Config) {c : Chip} (h : 1 ≤ c.rateratio) :
    (renderChip cfg c).samplecnt = c.samplecnt % c.rateratio + 1024 := by
  show (catchUp cfg c).samplecnt + 1024 = _
  rw [catchUp_samplecnt cfg c h]

theorem rateratio_renderChip (cfg : Config) (c : Chip) : (renderChip cfg c).rateratio = c.rateratio :=
  catchUp_rateratio cfg c

theorem legal_renderChip {c : Chip} (h : c.Legal) : (renderChip params c).Legal := by
  have hreg := h.regLegal
  have hrate := h.rateLegal
  have hcaught := tickLegal_catchUp hreg.tremoloshift h.tickLegal
  refine legal_of_halves (hreg.of_sameRegs (sameRegs_renderChip params c)) ?_ ?_
  · exact ⟨hcaught.egAdd, hcaught.tremolopos, hcaught.tremolo, hcaught.noise, hcaught.mixbuff, hcaught.output⟩
  · have hratio := rateratio_renderChip params c
    refine ⟨hratio ▸ hrate.pos, hratio ▸ hrate.le, ?_⟩
    rw [samplecnt_renderChip params hrate.pos, hratio]
    exact Nat.add_lt_add_right (Nat.mod_lt _ hrate.pos) 1024

/-! ### Reset -/

/-- Settles O12: the bounds of the ratio are quotients of the bounds of the rate. -/
theorem rateratioFitsExactlyForAcceptedRates : Obligations.RateratioFitsExactlyForAcceptedRates := by
  intro r
  refine ⟨?_, rfl, rfl⟩
  simp only [validRate, rateRatio, rsmOne, tickRate]
  omega

theorem rateRatio_bounds {r : Int} (h : validRate r) : 1 ≤ rateRatio r.toNat ∧ rateRatio r.toNat ≤ 65535 := by
  obtain ⟨hiff, -⟩ := rateratioFitsExactlyForAcceptedRates r.toNat
  exact hiff.mp (by rwa [Int.toNat_of_nonneg (by omega)])

theorem regLegal_chipReset (rate : Nat) : (chipReset rate).RegLegal := by
  refine ⟨?_, ?_, fun n m _ => ?_, fun n => ?_, fun n => ?_, fun i => ?_, fun i => ?_⟩
  · rw [chipReset_eq_with]; exact .inr rfl
  · rw [chipReset_eq_with]; exact le_refl 1
  · rw [chan_chipReset, chan_chipReset]; simp [chanReset]
  · have hrhythm : (chipReset rate).rhythmOn = false := by
      rw [chipReset_eq_with]
      simp [Chip.rhythmOn, chipUnrouted]
    rw [chan_chipReset, hrhythm]
    simp [chtypeLegal, chanReset]
  · refine routeLegal_of_twoRouted (con := false) ?_ ⟨?_, ?_, ?_⟩
    · rw [chan_chipReset]; rfl
    · rw [slot_chipReset]; simp [seriesMod]
    · rw [slot_chipReset]; simp [seriesMod]
    · rw [chan_chipReset]; rfl
  · rw [slot_chipReset]; exact Nat.zero_le _
  · rw [slot_chipReset]; exact .inl (Nat.zero_le _)

theorem tickLegal_chipReset (rate : Nat) : (chipReset rate).TickLegal := by
  have hbus : busRange 0 := by decide
  have hslot : slotReset.OutputLegal := ⟨by decide, by decide, by decide⟩
  refine ⟨?_, ?_, ?_, ?_, ?_, fun i => ?_⟩
  · rw [chipReset_eq_with]; exact Nat.zero_le _
  · rw [chipReset_eq_with]; exact Nat.zero_le _
  · rw [chipReset_eq_with]; exact Nat.zero_le _
  · rw [chipReset_eq_with]; exact (by decide : (1 : BitVec 23) ≠ 0)
  · rw [chipReset_eq_with]; exact ⟨hbus, hbus, hbus, hbus⟩
  · rw [slot_chipReset]; exact ⟨hslot.out, hslot.prout, hslot.fbmod⟩

theorem rateratio_chipReset (rate : Nat) : (chipReset rate).rateratio = rateRatio rate := by
  rw [chipReset_eq_with]
  rfl

theorem samplecnt_chipReset (rate : Nat) : (chipReset rate).samplecnt = 0 := by
  rw [chipReset_eq_with]
  rfl

theorem legal_chipReset {r : Int} (h : validRate r) : (chipReset r.toNat).Legal := by
  obtain ⟨hpos, hle⟩ := rateRatio_bounds h
  rw [← rateratio_chipReset] at hpos hle
  refine legal_of_halves (regLegal_chipReset _) (tickLegal_chipReset _) ⟨hpos, hle, ?_⟩
  rw [samplecnt_chipReset]
  exact Nat.lt_add_left _ (by decide)

/-- Settles O13: both are the reset block at a rate with a legal ratio. -/
theorem resetStatesAreLegal : Obligations.ResetStatesAreLegal := by
  refine ⟨fun _ => ?_, fun s t r hr hexec _ => ?_⟩
  · have h := legal_chipReset (r := 49716) (by decide)
    simp only [Int.reduceToNat] at h
    simp only [State.reset]
    exact h
  · rw [exec_reset_of_valid hr] at hexec
    cases hexec
    dsimp only
    exact legal_chipReset hr

/-! ### Every step -/

theorem inv_regWrite {f : Chip → Chip} (hleaves : LeavesTickState f)
    (hreg : ∀ c : Chip, c.RegLegal → (f c).RegLegal) {s : State} (h : s.Inv) : (s.regWrite f).Inv := by
  cases hv : s.chip.valid with
  | false =>
    rw [State.regWrite_of_not_valid f hv]
    exact h
  | true =>
    rw [State.regWrite_of_valid f hv]
    exact fun _ => legal_of_leavesTickState hleaves hreg (h hv)

/-- A command completes from a state that meets the invariant, in a state that meets it. -/
theorem exec_inv {s : State} (h : s.Inv) (i : Instr) : ∃ t, exec i s = .next t ∧ t.Inv := by
  obtain ⟨r, rfl⟩ | rfl | hw := instr_cases i
  · by_cases hr : validRate r
    · exact ⟨_, exec_reset_of_valid hr s, resetStatesAreLegal.2 s _ r hr (exec_reset_of_valid hr s)⟩
    · exact ⟨_, exec_reset_of_not_valid hr s, h⟩
  · cases hv : s.chip.valid with
    | false => exact ⟨_, exec_render_of_not_valid hv, h⟩
    | true => exact ⟨_, exec_render_of_valid hv (h hv).rateLegal.pos, fun _ => legal_renderChip (h hv)⟩
  · obtain ⟨f, ⟨hleaves, hreg⟩, hf⟩ := (everyFamily_leavesTickState.and everyFamily_regLegal).exec hw
    exact ⟨_, hf s, inv_regWrite hleaves hreg h⟩

theorem step_of_pending_nil {s : State} (h : s.pending = []) : step s = .next s := by
  unfold step
  rw [h]
  rfl

theorem step_of_decode_error {s : State} {call : Call} {rest : List Call} {e : DecodeError}
    (hp : s.pending = call :: rest) (hd : decode call = .error e) : step s = .next (s.taken rest).dropped := by
  unfold step
  rw [hp]
  simp only [hd]

theorem step_inv {s : State} (h : s.Inv) : ∃ t, step s = .next t ∧ t.Inv := by
  cases hp : s.pending with
  | nil => exact ⟨s, step_of_pending_nil hp, h⟩
  | cons call rest =>
    cases hd : decode call with
    | error e => exact ⟨_, step_of_decode_error hp hd, h⟩
    | ok i =>
      rw [step_of_decode hp hd]
      exact exec_inv (s := s.taken rest) h i

/-- Settles O14: a register write keeps the one half and a tick the other, and what each changes stays legal. -/
theorem stepKeepsLegalStates : Obligations.StepKeepsLegalStates := by
  intro s t h hstep
  obtain ⟨t', hstep', h'⟩ := step_inv h
  rw [hstep] at hstep'
  cases hstep'
  exact h'

/-- Settles O15: a legal ratio is not 0. -/
theorem stepFromLegalStateNeverStops : Obligations.StepFromLegalStateNeverStops := by
  intro s h
  obtain ⟨t, hstep, -⟩ := step_inv h
  exact ⟨t, hstep⟩

/-- Settles O5. -/
theorem stepRunsTheDecodedCommand : Obligations.StepRunsTheDecodedCommand :=
  ⟨fun _ _ _ _ hp hd => step_of_decode hp hd, fun _ hp => step_of_pending_nil hp⟩

end Sys2Proof.Machine

/-! R34, R401, R402, R421, R425 and R426: what holds of calls and of runs of calls. -/

namespace Sys2Proof.Machine

open Spec

/-! ### The word of a write -/

theorem isRegisterWrite_decodeWord (w : CmdWord) : isRegisterWrite (decodeWord w) = true := by
  simp only [decodeWord, apply_ite isRegisterWrite]
  simp only [isRegisterWrite, ite_self]

/-- R120, R421: address and the value's low 8 bits, side by side. -/
theorem writeWord_eq_ofNat {a : Int} (hlow : 0 ≤ a) (hhigh : a ≤ 0x1FF) (v : Int) :
    writeWord a v = BitVec.ofNat 17 (a.toNat * 256 + (v % 256).toNat) := by
  have hv : (v % 256).toNat < 2 ^ 8 := by omega
  have hcast (w : Nat) {x : Int} (hx : 0 ≤ x) : BitVec.ofInt w x = BitVec.ofNat w x.toNat := by
    rw [← BitVec.ofInt_natCast, Int.toNat_of_nonneg hx]
  rw [← writeWord_emod, writeWord, hcast 9 hlow, hcast 8 (Int.emod_nonneg _ (by decide))]
  apply BitVec.eq_of_toNat_eq
  rw [BitVec.toNat_append, BitVec.toNat_ofNat, BitVec.toNat_ofNat, BitVec.toNat_ofNat, Nat.mod_eq_of_lt hv,
    ← Nat.shiftLeft_add_eq_or_of_lt hv, Nat.shiftLeft_eq]
  omega

theorem decode_write_of_inside {a : Int} (hlow : 0 ≤ a) (hhigh : a ≤ 0x1FF) (v : Int) :
    decode (.write a v) = .ok (decodeWord (writeWord a v)) := if_pos ⟨hlow, hhigh⟩

theorem decode_write_of_outside {a : Int} (h : a < 0 ∨ 0x1FF < a) (v : Int) :
    decode (.write a v) = .error .addressOutsideSpace := if_neg (by omega)

/-! ### Register writes before the first reset -/

theorem exec_write_of_not_valid {s : State} {i : Instr} (hv : s.chip.valid = false) (hi : isRegisterWrite i = true) :
    exec i s = .next s.noEffect := by
  obtain ⟨f, hf⟩ := exec_eq_regWrite hi
  rw [hf, State.regWrite_of_not_valid f hv]

/-- Settles O8. -/
theorem writeBeforeResetHasNoEffect : Obligations.WriteBeforeResetHasNoEffect := fun _ _ hv hi =>
  exec_write_of_not_valid hv hi

/-- Settles O6: a call outside the space is dropped, and one inside is a register write. -/
theorem writeCallWritesOrDoesNothing : Obligations.WriteCallWritesOrDoesNothing := by
  intro s a v rest before
  have hpending : before.pending = .write a v :: rest := rfl
  have hinside (hlow : 0 ≤ a) (hhigh : a ≤ 0x1FF) :
      step before = exec (decodeWord (writeWord a v)) { s with pending := rest } :=
    step_of_decode hpending (decode_write_of_inside hlow hhigh v)
  have houtside (h : a < 0 ∨ 0x1FF < a) : step before = .next { s with pending := rest, result := .returned } :=
    step_of_decode_error hpending (decode_write_of_outside h v)
  refine ⟨fun h => ?_, fun hlow hhigh => ?_, ?_⟩
  · by_cases hout : a < 0 ∨ 0x1FF < a
    · exact houtside hout
    · have hv : s.chip.valid = false := h.resolve_right hout
      rw [hinside (by omega) (by omega), exec_write_of_not_valid (s := { s with pending := rest }) hv
        (isRegisterWrite_decodeWord _)]
      rfl
  · rw [hinside hlow hhigh, writeWord_eq_ofNat hlow hhigh]
  · by_cases hout : a < 0 ∨ 0x1FF < a
    · exact ⟨_, houtside hout, rfl, rfl, Chip.SameTick.rfl' s.chip⟩
    · obtain ⟨t, hexec, hresult, hrest, htick, -⟩ := registerWritesNeverTouchTickState { s with pending := rest }
        _ (isRegisterWrite_decodeWord (writeWord a v))
      exact ⟨t, (hinside (by omega) (by omega)).trans hexec, hresult, hrest, htick⟩

/-! ### Two machines -/

/-- No command of the model is refused. -/
theorem exec_next_or_fault (i : Instr) (s : State) : (∃ t, exec i s = .next t) ∨ ∃ f, exec i s = .fault f := by
  obtain ⟨r, rfl⟩ | rfl | hw := instr_cases i
  · exact .inl ⟨_, rfl⟩
  · cases hv : s.chip.valid with
    | false => exact .inl ⟨_, exec_render_of_not_valid hv⟩
    | true =>
      by_cases hr : s.chip.rateratio = 0
      · exact .inr ⟨_, (renderStopsOnlyOnZeroRatio s).mpr ⟨hv, hr⟩⟩
      · exact .inl ⟨_, exec_render_of_valid hv (Nat.pos_of_ne_zero hr)⟩
  · obtain ⟨f, hf⟩ := exec_eq_regWrite hw
    exact .inl ⟨_, hf s⟩

theorem step_next_or_fault (s : State) : (∃ t, step s = .next t) ∨ ∃ f, step s = .fault f := by
  cases hp : s.pending with
  | nil => exact .inl ⟨s, step_of_pending_nil hp⟩
  | cons call rest =>
    cases hd : decode call with
    | error e => exact .inl ⟨_, step_of_decode_error hp hd⟩
    | ok i =>
      rw [step_of_decode hp hd]
      exact exec_next_or_fault i _

/-- Two blocks that were never reset answer each command alike. -/
theorem exec_agree_of_not_valid {a b : State} (hpending : a.pending = b.pending) (hva : a.chip.valid = false)
    (hvb : b.chip.valid = false) (i : Instr) : ∃ a' b', exec i a = .next a' ∧ exec i b = .next b' ∧ Agree a' b' := by
  obtain ⟨r, rfl⟩ | rfl | hw := instr_cases i
  · by_cases hr : validRate r
    · exact ⟨_, _, exec_reset_of_valid hr a, exec_reset_of_valid hr b, hpending, rfl, .inl rfl⟩
    · exact ⟨_, _, exec_reset_of_not_valid hr a, exec_reset_of_not_valid hr b, hpending, rfl, .inr ⟨hva, hvb⟩⟩
  · exact ⟨_, _, exec_render_of_not_valid hva, exec_render_of_not_valid hvb, hpending, rfl, .inr ⟨hva, hvb⟩⟩
  · exact ⟨_, _, exec_write_of_not_valid hva hw, exec_write_of_not_valid hvb hw, hpending, rfl, .inr ⟨hva, hvb⟩⟩

/-- Settles O9: with one block the machines are the same, and without a reset one no command reads a field. -/
theorem unresetFieldsAreNeverRead : Obligations.UnresetFieldsAreNeverRead := by
  rintro a b ⟨hpending, hresult, hchip | ⟨hva, hvb⟩⟩
  · obtain rfl : a = b := by
      cases a; cases b; cases hpending; cases hresult; cases hchip; rfl
    obtain ⟨t, ht⟩ | ⟨f, hf⟩ := step_next_or_fault a
    · exact .inl ⟨t, t, ht, ht, rfl, rfl, .inl rfl⟩
    · exact .inr ⟨f, hf, hf⟩
  · refine .inl ?_
    cases hp : a.pending with
    | nil =>
      exact ⟨a, b, step_of_pending_nil hp, step_of_pending_nil (hpending.symm.trans hp), hpending, hresult,
        .inr ⟨hva, hvb⟩⟩
    | cons call rest =>
      have hp' := hpending.symm.trans hp
      cases hd : decode call with
      | error e => exact ⟨_, _, step_of_decode_error hp hd, step_of_decode_error hp' hd, rfl, rfl, .inr ⟨hva, hvb⟩⟩
      | ok i =>
        rw [step_of_decode hp hd, step_of_decode hp' hd]
        exact exec_agree_of_not_valid (a := a.taken rest) (b := b.taken rest) rfl hva hvb i

/-- An accepted RESET leaves the block of its rate, and the calls to come. -/
theorem step_reset {s : State} {r : Int} {rest : List Call} (h : validRate r) (hp : s.pending = .reset r :: rest) :
    step s = .next ⟨chipReset r.toNat, rest, .returned⟩ := by
  rw [step_of_decode (i := .reset r) hp rfl, exec_reset_of_valid h]
  rfl

/-- Settles O10: after the first step the two machines are one. -/
theorem runFromResetForgetsThePast : Obligations.RunFromResetForgetsThePast := by
  intro a b r k hr hp
  rw [core_run_of_next (step_reset hr hp) k, core_run_of_next (step_reset hr rfl) k]

/-! ### The ticks that have run -/

/-- The ticks run after `j` RENDERs from a reset, and what `samplecnt` then holds (R400, R401). -/
def ticksAfter (rr : Nat) : Nat → Nat
  | 0 => 0
  | k + 1 => k * 1024 / rr

/-- See `ticksAfter`. -/
def countAfter (rr : Nat) : Nat → Nat
  | 0 => 0
  | k + 1 => k * 1024 % rr + 1024

/-- One RENDER more (R400). -/
theorem ticksAfter_succ {rr : Nat} (h : 0 < rr) (j : Nat) :
    ticksAfter rr (j + 1) = ticksAfter rr j + countAfter rr j / rr := by
  cases j with
  | zero => simp [ticksAfter, countAfter]
  | succ k =>
    have hsplit := Nat.div_add_mod (k * 1024) rr
    rw [ticksAfter, ticksAfter, countAfter, ← Nat.mul_add_div h, ← Nat.add_assoc, hsplit, Nat.succ_mul]

theorem countAfter_succ (rr j : Nat) : countAfter rr (j + 1) = countAfter rr j % rr + 1024 := by
  cases j with
  | zero => simp [countAfter]
  | succ k => rw [countAfter, countAfter, Nat.mod_add_mod, Nat.succ_mul]

/-- `j` RENDERs have run since the reset. -/
structure Clocked (rr j : Nat) (c : Chip) : Prop where
  valid : c.valid = true
  rateratio : c.rateratio = rr
  timer : c.timer = BitVec.ofNat 16 (ticksAfter rr j)
  samplecnt : c.samplecnt = countAfter rr j

theorem clocked_chipReset (rate : Nat) : Clocked (rateRatio rate) 0 (chipReset rate) := by
  refine ⟨rfl, rateratio_chipReset rate, ?_, samplecnt_chipReset rate⟩
  rw [chipReset_eq_with]
  rfl

theorem timer_renderChip (cfg : Config) {c : Chip} (h : 1 ≤ c.rateratio) :
    (renderChip cfg c).timer = c.timer + BitVec.ofNat 16 (c.samplecnt / c.rateratio) := by
  show (catchUp cfg c).timer = _
  rw [catchUp_eq_iterate cfg c h, iterate_resampleTick_timer]

theorem Clocked.renderChip {rr j : Nat} {c : Chip} (hrr : 1 ≤ rr) (h : Clocked rr j c) :
    Clocked rr (j + 1) (renderChip params c) := by
  have hpos : 1 ≤ c.rateratio := by rw [h.rateratio]; exact hrr
  obtain ⟨hvalid, -⟩ := sameRegs_renderChip params c
  refine ⟨hvalid.trans h.valid, (rateratio_renderChip params c).trans h.rateratio, ?_, ?_⟩
  · rw [timer_renderChip params hpos, h.timer, h.samplecnt, h.rateratio, ticksAfter_succ hrr, BitVec.ofNat_add]
  · rw [samplecnt_renderChip params hpos, h.samplecnt, h.rateratio, countAfter_succ]

/-- A register write runs no tick. -/
theorem Clocked.of_write {rr j : Nat} {c c' : Chip} (h : Clocked rr j c) (htick : c.SameTick c')
    (hvalid : c'.valid = c.valid) (hratio : c'.rateratio = c.rateratio) : Clocked rr j c' := by
  obtain ⟨htimer, -, -, -, -, -, -, -, -, -, -, -, -, -, -, -, -, hcnt, -⟩ := htick
  exact ⟨hvalid.trans h.valid, hratio.trans h.rateratio, htimer.trans h.timer, hcnt.trans h.samplecnt⟩

/-- A call that is no RESET counts as many RENDERs as it is. -/
theorem step_clocked {rr j : Nat} (hrr : 1 ≤ rr) {s : State} {call : Call} {rest : List Call}
    (hp : s.pending = call :: rest) (hcall : ∀ x, call ≠ .reset x) (h : Clocked rr j s.chip) :
    ∃ t, step s = .next t ∧ t.pending = rest ∧ Clocked rr (j + renders [call]) t.chip := by
  cases call with
  | reset r => exact absurd rfl (hcall r)
  | render =>
    have hpos : 1 ≤ (s.taken rest).chip.rateratio := h.rateratio ▸ hrr
    rw [step_of_decode (i := .render) hp rfl, exec_render_of_valid (s := s.taken rest) h.valid hpos]
    exact ⟨_, rfl, rfl, h.renderChip hrr⟩
  | write a v =>
    by_cases hout : a < 0 ∨ 0x1FF < a
    · exact ⟨_, step_of_decode_error hp (decode_write_of_outside hout v), rfl, h⟩
    · obtain ⟨t, hexec, -, hrest, htick, hvalid, hratio⟩ := registerWritesNeverTouchTickState (s.taken rest)
        _ (isRegisterWrite_decodeWord (writeWord a v))
      rw [step_of_decode hp (decode_write_of_inside (by omega) (by omega) v)]
      exact ⟨t, hexec, hrest, h.of_write htick hvalid hratio⟩

theorem renders_cons (call : Call) (cs : List Call) : renders (call :: cs) = renders [call] + renders cs := by
  cases call <;> simp [renders, Nat.add_comm]

theorem run_clocked {rr : Nat} (hrr : 1 ≤ rr) (cs rest : List Call) (hcs : ∀ x, Call.reset x ∉ cs) {j : Nat} {s : State}
    (hp : s.pending = cs ++ rest) (h : Clocked rr j s.chip) :
    ∃ t, Sys2Proof.core.run cs.length s = .next t ∧ t.pending = rest ∧ Clocked rr (j + renders cs) t.chip := by
  induction cs generalizing j s with
  | nil => exact ⟨s, rfl, hp, h⟩
  | cons call cs ih =>
    obtain ⟨t, hstep, hrest, hclock⟩ := step_clocked hrr hp (fun x hx => hcs x (hx ▸ List.mem_cons_self)) h
    rw [List.length_cons, core_run_of_next hstep, renders_cons, ← Nat.add_assoc]
    exact ih (fun x hx => hcs x (List.mem_cons_of_mem _ hx)) hrest hclock

/-- Settles O58: each RENDER carries the remainder of the quotient over to the next. -/
theorem ticksRunAreTheClosedForm : Obligations.TicksRunAreTheClosedForm := by
  intro s r cs rest k hr hcs hrenders hp
  obtain ⟨hrr, -⟩ := rateRatio_bounds hr
  obtain ⟨t, hrun, hrest, hclock⟩ := run_clocked hrr cs rest hcs
    (s := ⟨chipReset r.toNat, cs ++ rest, .returned⟩) rfl (clocked_chipReset r.toNat)
  rw [Nat.zero_add, hrenders] at hclock
  refine ⟨t, ?_, hrest, hclock.timer, hclock.samplecnt⟩
  rw [core_run_of_next (step_reset hr hp)]
  exact hrun

/-! ### The ticks of one RENDER -/

/-- Settles O57: the loop's turns are `samplecnt / rateratio`, and a legal `samplecnt` is below the ratio plus 1024. -/
theorem renderTickCountIsBounded : Obligations.RenderTickCountIsBounded := by
  intro s hv hlegal rr turn
  have hrate := hlegal.rateLegal
  have hpos : 0 < rr := hrate.pos
  have hcnt : s.chip.samplecnt < rr + 1024 := hrate.samplecnt
  have hceil : s.chip.samplecnt / rr ≤ (1024 + rr - 1) / rr := Nat.div_le_div_right (by omega)
  have hbound : (1024 + rr - 1) / rr ≤ 1024 := by
    rw [Nat.div_le_iff_le_mul_add_pred hpos]
    omega
  refine ⟨_, s.chip.samplecnt / rr, exec_render_of_valid hv hrate.pos, ?_, ?_, hceil, hceil.trans hbound,
    fun h => Nat.div_le_div_right h⟩
  · rw [renderChip, catchUp_eq_iterate params _ hpos]
    rfl
  · exact timer_renderChip params hpos

end Sys2Proof.Machine

/-! R534. After a reset nothing is keyed and no frequency is set, so every phase, output, feedback and sum stays 0 from
tick to tick, and with them every sample. -/

namespace Sys2Proof.Machine

open Spec

/-! ### The silent state -/

/-- A slot that is off, at phase 0, with nothing to put out. -/
structure Slot.Silent (s : Slot) : Prop where
  key : s.key = 0
  egGen : s.egGen = .release
  egRout : s.egRout = 0x1FF
  regVib : s.regVib = false
  regWf : s.regWf = 0
  pgPhase : s.pgPhase = 0
  out : s.out = 0
  prout : s.prout = 0
  fbmod : s.fbmod = 0

/-- Every slot is silent, every frequency 0, rhythm mode off, and every bus sum and sample 0. -/
structure Chip.Silent (c : Chip) : Prop where
  rhythm : c.rhythmOn = false
  fNum : ∀ n : ChanIdx, (c.chan n).fNum = 0
  slot : ∀ i : SlotIdx, (c.slot i).Silent
  mixbuff : c.mixbuff = Quad.all 0
  oldsamples : c.oldsamples = Quad.all 0
  samples : c.samples = Quad.all 0

theorem silent_chipReset (rate : Nat) : (chipReset rate).Silent := by
  refine ⟨?_, fun n => ?_, fun i => ?_, ?_, ?_, ?_⟩
  · rw [chipReset_eq_with]
    simp [Chip.rhythmOn, chipUnrouted]
  · rw [chan_chipReset]; rfl
  · rw [slot_chipReset]
    exact ⟨rfl, rfl, rfl, rfl, rfl, rfl, rfl, rfl, rfl⟩
  · rw [chipReset_eq_with]; rfl
  · rw [chipReset_eq_with]; rfl
  · rw [chipReset_eq_with]; rfl

/-! ### The slot step -/

/-- R250: at F-number 0 and without vibrato the phase stays. -/
theorem phaseInc_effFnum_zero (vibpos : BitVec 3) (vibshift : Nat) (block : BitVec 3) (mult : BitVec 4) :
    phaseInc (effFnum 0 false vibpos vibshift) block mult = 0 := by
  simp [phaseInc, effFnum]

theorem feedbackVal_zero (fb : BitVec 3) : feedbackVal fb 0 0 = 0 := by
  simp [feedbackVal]

/-- R262: a sine at phase 0 is not negative, and at full attenuation 0. -/
theorem s16_wave_silent (cfg : Config) : s16 (wave cfg 0 (wavePhase 0 0) 0x1FF) = 0 := by
  rw [wave_of_silent]
  rfl

/-- R270: whatever source modulates a silent slot is 0. -/
theorem out_slotStep_silent {c : Chip} (h : c.Silent) (cfg : Config) (i : SlotIdx) :
    ((slotStep cfg i c).slot i).out = 0 := by
  have hphase : ((slotStep cfg i c).slot i).pgPhaseOut = 0 := by
    rw [pgPhaseOut_slotStep_of_not_replaced (.inl h.rhythm), tickPhase, (h.slot i).pgPhase]
    rfl
  have hcast : (s16 0).toInt = 0 := rfl
  have hzero : (0 : S16).toInt = 0 := rfl
  rw [slotStep_out, hphase, (h.slot i).regWf, egTotal_of_silent (h.slot i).egRout]
  split
  next => exact s16_wave_silent cfg
  next => rw [(h.slot i).prout, (h.slot i).out, feedbackVal_zero, hcast, s16_wave_silent]
  next j _ => rw [(h.slot j).out, hzero, s16_wave_silent]

theorem silent_slotStep_self {c : Chip} (h : c.Silent) (cfg : Config) (i : SlotIdx) :
    ((slotStep cfg i c).slot i).Silent := by
  have hi := h.slot i
  have hr := retrigger_eq_false_of_key hi.key
  have hoff : (c.slot i).egOff = true := (egOff_iff _).mpr (by rw [hi.egRout]; decide)
  obtain ⟨-, -, -, -, -, -, -, -, hslots⟩ := slotStep_sameRegs cfg i c
  obtain ⟨-, hkey, -, hvib, -, -, -, -, -, -, -, -, -, hwf, -⟩ := hslots i
  refine ⟨hkey.trans hi.key, ?_, ?_, hvib.trans hi.regVib, hwf.trans hi.regWf, ?_, out_slotStep_silent h cfg i, ?_, ?_⟩
  · rw [egGen_slotStep, egGenNext_of_key_eq_zero hi.key]
  · exact egRout_slotStep_of_egOff hr (by simp [hi.egGen]) hoff cfg
  · rw [slotStep_slot_self]
    simp only [hr, hi.pgPhase, hi.regVib, h.fNum, phaseInc_effFnum_zero]
    rfl
  · rw [prout_slotStep, hi.out]
  · rw [fbmod_slotStep, hi.prout, hi.out, feedbackVal_zero]
    rfl

theorem silent_slotStep (cfg : Config) (i : SlotIdx) (c : Chip) (h : c.Silent) : (slotStep cfg i c).Silent := by
  refine ⟨?_, fun n => ?_, fun j => ?_, ?_, ?_, ?_⟩
  · rw [Chip.rhythmOn, slotStep_rhy]; exact h.rhythm
  · rw [slotStep_chan]; exact h.fNum n
  · by_cases hj : j = i
    · subst hj; exact silent_slotStep_self h cfg j
    · rw [slotStep_slot_ne cfg i j c hj]; exact h.slot j
  · rw [slotStep_mixbuff]; exact h.mixbuff
  · rw [slotStep_oldsamples]; exact h.oldsamples
  · rw [slotStep_samples]; exact h.samples

/-! ### The tick and the frame -/

theorem mix_silent {c : Chip} (h : c.Silent) (k : Bus) : mix k c = 0 := by
  have hval (o : OutSrc) : outVal c o = 0 := by
    cases o with
    | zero => rfl
    | out j => rw [outVal, (h.slot j).out]; rfl
  have haccm (n : ChanIdx) : (accm c n).toInt = 0 := by
    simp only [accm, hval]
    rfl
  simp [mix_eq_sum, haccm]

theorem silent_tick (cfg : Config) (c : Chip) (h : c.Silent) : (tick cfg c).1.Silent := by
  refine tick_invariant Chip.Silent cfg (silent_slotStep cfg) (fun x hx => ?_) (fun x hx => ?_) (fun x hx => ?_) c h
  · have hmix : (mixAC x).mixbuff = Quad.all 0 := by
      simp only [mixAC, mix_silent hx, hx.mixbuff, Quad.all]
    exact ⟨hx.rhythm, hx.fNum, hx.slot, hmix, hx.oldsamples, hx.samples⟩
  · have hmix : (mixBD x).mixbuff = Quad.all 0 := by
      simp only [mixBD, mix_silent hx, hx.mixbuff, Quad.all]
    exact ⟨hx.rhythm, hx.fNum, hx.slot, hmix, hx.oldsamples, hx.samples⟩
  · rw [tickEnd_eq_with]
    exact ⟨hx.rhythm, hx.fNum, hx.slot, hx.mixbuff, hx.oldsamples, hx.samples⟩

theorem silent_resampleTick (cfg : Config) (c : Chip) (h : c.Silent) : (resampleTick cfg c).Silent := by
  have htick := silent_tick cfg c h
  have hout : (tick cfg c).2 = Quad.all 0 := by
    rw [tick_out, htick.mixbuff, h.mixbuff]
    rfl
  exact ⟨htick.rhythm, htick.fNum, htick.slot, htick.mixbuff, h.samples, hout⟩

theorem silent_catchUp (cfg : Config) (c : Chip) (h : c.Silent) : (catchUp cfg c).Silent :=
  resampleLoop_invariant Chip.Silent cfg (silent_resampleTick cfg) _ c h

theorem interpolate_zero (c : Chip) : interpolate c 0 0 = 0 := by
  simp [interpolate, tdiv, s16]

theorem renderFrame_silent (cfg : Config) {c : Chip} (h : c.Silent) : renderFrame cfg c = .frame 0 0 := by
  have hcaught := silent_catchUp cfg c h
  rw [renderFrame, hcaught.oldsamples, hcaught.samples]
  simp only [Quad.all, interpolate_zero]

theorem silent_renderChip (cfg : Config) {c : Chip} (h : c.Silent) : (renderChip cfg c).Silent := by
  have hcaught := silent_catchUp cfg c h
  exact ⟨hcaught.rhythm, hcaught.fNum, hcaught.slot, hcaught.mixbuff, hcaught.oldsamples, hcaught.samples⟩

/-! ### The run -/

/-- A RENDER of a silent block. -/
theorem step_render_silent {s : State} {rest : List Call} (hp : s.pending = .render :: rest)
    (hv : s.chip.valid = true) (hr : 1 ≤ s.chip.rateratio) (h : s.chip.Silent) :
    step s = .next ⟨renderChip params s.chip, rest, .frame 0 0⟩ := by
  rw [step_of_decode (i := .render) hp rfl, exec_render_of_valid (s := s.taken rest) hv hr]
  simp only [State.taken_chip, renderFrame_silent params h]
  rfl

theorem run_silent (k : Nat) (rest : List Call) {s : State} (hp : s.pending = List.replicate (k + 1) .render ++ rest)
    (hv : s.chip.valid = true) (hr : 1 ≤ s.chip.rateratio) (h : s.chip.Silent) :
    ∃ t, Sys2Proof.core.run (k + 1) s = .next t ∧ t.result = .frame 0 0 ∧ t.pending = rest := by
  induction k generalizing s with
  | zero =>
    rw [core_run_of_next (step_render_silent hp hv hr h)]
    exact ⟨_, rfl, rfl, rfl⟩
  | succ k ih =>
    rw [core_run_of_next (step_render_silent hp hv hr h)]
    obtain ⟨hvalid, -⟩ := sameRegs_renderChip params s.chip
    exact ih rfl (hvalid.trans hv) (by rw [rateratio_renderChip]; exact hr) (silent_renderChip params h)

/-- Settles O59: the reset block is silent, and a RENDER leaves a silent block. -/
theorem silenceAfterReset : Obligations.SilenceAfterReset := by
  intro s r k rest hr hp
  obtain ⟨hpos, -⟩ := rateRatio_bounds hr
  rw [core_run_of_next (step_reset hr hp)]
  exact run_silent k rest rfl rfl (by rw [rateratio_chipReset]; exact hpos) (silent_chipReset _)

end Sys2Proof.Machine
